-- ==== Sys2Proof/Word.lean ====
section
/-! DEFINITION. The words of the machine (spec 00 R7, R8, R9): bytes, the 32-bit host integers, the 64-bit results, and the
character alphabet. -/

namespace Sys2Proof

/-- A byte, `v[7:0]` (00 R8). -/
abbrev Byte := BitVec 8

/-- A host integer, `int32`: 32 bits, two's complement (00 R7 `INT_W`). -/
abbrev I32 := BitVec 32

/-- The width of RESULT and of `getButtons64` (00 R7 `WIDE_W`, 10 R30). -/
abbrev I64 := BitVec 64

/-- `CHAR`, the character alphabet of text. The spec leaves it a parameter that contains `'.'` and `' '` and has decidable
equality (00 R7, D14); it is taken as unbounded code numbers, so that no bound on the alphabet is assumed.
PRESUMED (log 7): `'.'`, `' '` and the other named characters have their usual code numbers; only their being distinct
matters. -/
abbrev CHAR := Nat

end Sys2Proof
end

