-- ==== Sys2Proof/Config.lean ====
section
/-! DEFINITION. What the implementation fixes and the spec leaves open (00 R7, 93): the free values ("draws", 00 R15) and the
parameters. Each `opaque` constant has no value in Lean: a statement that holds of the model holds for every value of it. -/

namespace Sys2Proof

/-- The pull-resistor modes of a data pin in input mode that N4 names. -/
inductive PullMode where
  | none
  | up
  | down
deriving DecidableEq, Repr, Inhabited

/-- The level STB has at reset: a draw (10 R21, 70 R261, D7). Free value, log 1. -/
opaque Config.resetStb : Bool

/-- The level CLK has at reset: a draw (10 R22, 70 R261, D7). Free value, log 1. -/
opaque Config.resetClk : Bool

/-- The level DIO_OUT has at reset: a draw (10 R23, 70 R261, D7). Free value, log 1. -/
opaque Config.resetDio : Bool

/-- `PULL_MODE` (00 R7, 40 R103, D9): OPEN. It affects only what a SAMPLE of a line returns, so it is an argument of
`Config.lineLevel` and of nothing else. -/
opaque Config.pullMode : PullMode

/-- The level the data line presents at a SAMPLE that nothing else settles: the oracle's answer, a draw (40 R105, D24).
The second argument is the number of levels drawn so far. Free value, log 3. -/
opaque Config.lineLevel : PullMode → Nat → Bool

/-- `DIO_RESTORE_LEVEL` (00 R7, 40 R104, D8): the level a freshly acquired output drives, a draw at each DIR_OUT. The argument
is the number of such draws made so far. Free value, log 4. -/
opaque Config.dioRestoreLevel : Nat → Bool

/-- The display byte the chip holds at an address nothing has written since the reading started: a draw (44 R201). Free
value, log 6. -/
opaque Config.ramPowerUp : Nat → Byte

/-- The masks of the characters that must have a glyph but whose masks the source does not give (43 R183). Free value,
log 8. -/
opaque Config.fontMask : CHAR → Byte

/-- The other entries of the static font table (43 R180, D13): a finite table, whatever it holds. Free value, log 8. -/
opaque Config.fontTable : List (CHAR × Byte)

/-- What ERR_INFO.pos, an int32, records of a realPos outside int32, which needs a text of more than 2^31 characters: the
spec states no value (10 R32). Free value, log 19. -/
opaque Config.posOutOfRange : Int → I32

/-- `T_EDGE_MIN` (00 R7, 70 R267, D10): the minimum time between pin events, default 0. No rule depends on time, so nothing in
the model reads it (log 23). -/
def Config.tEdgeMin : Nat := 0

/-- `N_POS`: character positions (00 R7). -/
abbrev Config.nPos : Nat := 8

/-- `N_PLANES`: segment bit-planes rendered by `setText` (00 R7). -/
abbrev Config.nPlanes : Nat := 7

/-- `N_KEYBYTES`: bytes read per key scan (00 R7). -/
abbrev Config.nKeyBytes : Nat := 4

/-- `RAM_BYTES`: chip display bytes (00 R7, 20 R51). -/
abbrev Config.ramBytes : Nat := 16

end Sys2Proof
end

