-- ==== Sys2Proof/Syntax.lean ====
section
/-! DEFINITION. The instructions: one constructor of `Instr` per row of spec/opcode_table.json (30 R77, R78 for the host
requests; 30 R72 to R75 and 44 R204 for the bus command bytes), and the host request as the port carries it. -/

namespace Sys2Proof

/-- The bus commands: the command bytes the source glosses, and the address bytes (44 R204; the BUS8 rows of the table). -/
inductive BusCommand where
  /-- `0x40` (44 R205). -/
  | dataWriteAuto
  /-- `0x42` (44 R207). -/
  | dataReadKeys
  /-- `0x44` (44 R206). -/
  | dataWriteFixed
  /-- `0x88 | I`: BRIGHT = I (44 R208). -/
  | displayCtrl (bright : BitVec 3)
  /-- `0xC0 | a`: ADDR = a; 0..15 glossed, 16..63 CHIP_OOR (30 R75, 44 R209, R211). -/
  | address (addr : BitVec 6)
deriving DecidableEq, Repr

/-- The instructions: thirteen host requests and five bus commands. -/
inductive Instr where
  /-- ENABLE, OPSEL 0x0: A = intensity (41 R130). -/
  | enable (intensity : I32)
  /-- SEND_CHAR, OPSEL 0x1: A = pos, B = data, F = dot (41 R133). -/
  | sendChar (pos data : I32) (dot : Bool)
  /-- SET_TEXT, OPSEL 0x2: TXT = text (41 R135). -/
  | setText (text : List CHAR)
  /-- GET_BUTTONS, OPSEL 0x3 (42 R160). -/
  | getButtons
  /-- GET_BUTTONS64, OPSEL 0x4 (42 R162). -/
  | getButtons64
  /-- FONT_LOOKUP, OPSEL 0x5: C = character (43 R186). -/
  | fontLookup (ch : CHAR)
  /-- ROTATE_BITS, OPSEL 0x6: A = value (43 R189). -/
  | rotateBits (value : I32)
  /-- POW2, OPSEL 0x7: A = n (43 R190). -/
  | pow2 (n : I32)
  /-- SEND_BYTE, OPSEL 0x8, internal: A = value (40 R106). -/
  | sendByte (value : I32)
  /-- SEND_COMMAND, OPSEL 0x9, internal: A = cmd (40 R107). -/
  | sendCommand (cmd : I32)
  /-- SEND_DATA, OPSEL 0xA, internal: A = addr, B = data (40 R108). -/
  | sendData (addr data : I32)
  /-- RECEIVE_BYTE, OPSEL 0xB, internal (40 R110). -/
  | receiveByte
  /-- RESERVED, OPSEL 0xC to 0xF (30 R81). -/
  | reserved (opsel : BitVec 4)
  /-- CMD_DATA_WRITE_AUTO, bus byte 0x40 (44 R205). -/
  | cmdDataWriteAuto
  /-- CMD_DATA_READ_KEYS, bus byte 0x42 (44 R207). -/
  | cmdDataReadKeys
  /-- CMD_DATA_WRITE_FIXED, bus byte 0x44 (44 R206). -/
  | cmdDataWriteFixed
  /-- CMD_DISPLAY_CTRL, bus bytes 0x88 to 0x8F (44 R208). -/
  | cmdDisplayCtrl (bright : BitVec 3)
  /-- CMD_ADDRESS, bus bytes 0xC0 to 0xFF (44 R209). -/
  | cmdAddress (addr : BitVec 6)
deriving DecidableEq, Repr

/-- A bus command as an instruction of the table. -/
def BusCommand.toInstr : BusCommand → Instr
  | .dataWriteAuto => .cmdDataWriteAuto
  | .dataReadKeys => .cmdDataReadKeys
  | .dataWriteFixed => .cmdDataWriteFixed
  | .displayCtrl b => .cmdDisplayCtrl b
  | .address a => .cmdAddress a

/-- The host request as the port carries it (30 R77): the 69-bit control word and the two character ports. -/
structure Request where
  /-- `OPSEL | (A << 4) | (B << 36) | (F << 68)`. -/
  word : BitVec 69
  /-- Port C: one CHAR (FONT_LOOKUP). -/
  c : CHAR
  /-- Port TXT: a finite list of CHAR (SET_TEXT). -/
  txt : List CHAR
deriving DecidableEq, Repr

end Sys2Proof
end

