-- ==== Sys2Proof/Machine/State.lean ====
section
/-! DEFINITION. The machine's state as plain data: everything 10_state.md R20 gives the engine, everything 44 R201 gives the
reference receiver, the model's own inputs and free-value counter, and the state after reset (70 R261). -/

namespace Sys2Proof.Machine

/-! ### Vocabulary -/

/-- The direction of the data pin (10 R24). -/
inductive DioMode where
  | output
  | input
deriving DecidableEq, Repr

/-- The bus events (40 R100). -/
inductive BusEvent where
  | stb (level : Bool)
  | clk (level : Bool)
  | dio (level : Bool)
  | dirIn
  | dirOut
  | sample (level : Bool)
deriving DecidableEq, Repr

/-- STATUS.ERR codes (60 R231). Codes 6 and 7 are never written, so they have no name here. -/
inductive ErrCode where
  | none
  | dotPosition
  | noGlyph
  | reservedOp
  | domain
  | modelFault
deriving DecidableEq, Repr

/-- The model faults (60 R235). -/
inductive ModelFault where
  /-- `DIO_WRITE_IN_INPUT_MODE` (40 R102). -/
  | dioWriteInInputMode
  /-- `SAMPLE_IN_OUTPUT_MODE` (40 R105). -/
  | sampleInOutputMode
  /-- `RESULT_READ_INVALID` (10 R30). -/
  | resultReadInvalid
deriving DecidableEq, Repr

/-- MSTEP, the sequencer position (10 R28): IDLE, or `(op, k)`: running host operation `op`, `k` bus events of it emitted.
The operation is held with its operands (log 20). -/
inductive MStep where
  | idle
  | running (op : Instr) (k : Nat)
deriving DecidableEq, Repr

/-- ERR_INFO, what an error records (10 R32). -/
structure ErrInfo where
  pos : I32
  ch : Option CHAR
deriving DecidableEq, Repr

/-! ### The reference receiver (44 R201) -/

/-- WMODE: the last data command (44 R201). -/
inductive WMode where
  | none
  | auto
  | fixed
  | read
deriving DecidableEq, Repr

/-- What the command byte of the open frame was: the model's own record of R207's "in the rest of the frame" and of R209's and
R210's "address frame". DEDUCED (log 26). -/
inductive FrameKind where
  /-- No command byte yet in this frame. -/
  | none
  /-- An address command with a in 0..15. -/
  | address
  /-- The read-key-scan command. -/
  | scan
  /-- Any other command byte. -/
  | other
deriving DecidableEq, Repr

/-- KEYS[0..3], the bytes the chip presents in the current key scan (44 R201). -/
structure Keys where
  k0 : Byte
  k1 : Byte
  k2 : Byte
  k3 : Byte
deriving DecidableEq, Repr

/-- Display RAM: (address, byte) pairs, addresses strictly rising, within the 16 addresses of 20 R51. An address not listed has
had no byte written since the reading started; what the chip holds there is a draw (44 R201), so it reads as no value and
no listed byte can equal it (log 6). -/
abbrev Memory := List Host.Cell

/-- The canonical form of `Memory`. -/
abbrev Memory.wf (m : Memory) : Prop :=
  m.Pairwise (fun x y => x.1 < y.1) ∧ ∀ c ∈ m, c.1 < Config.ramBytes

/-- The reference receiver's state (44 R201), with the levels the outside puts on the data line. -/
structure Receiver where
  /-- RAM[0..15]. -/
  ram : Memory
  /-- WMODE. -/
  wmode : WMode
  /-- APTR: 0..15 or NONE. -/
  aptr : Option (BitVec 4)
  /-- DISP_ON. -/
  dispOn : Option Bool
  /-- BRIGHT. -/
  bright : Option (BitVec 3)
  /-- IN_FRAME. -/
  inFrame : Bool
  /-- SHIFT. -/
  shift : Byte
  /-- NBITS: 0..7 between bits; 8 while a complete byte waits to be dispatched (log 13). -/
  nbits : Nat
  /-- NBYTES. -/
  nbytes : Nat
  /-- KEYS[0..3]. -/
  keys : Keys
  /-- KI: 0..3; 4 when all four bytes of the scan have been presented (log 5). -/
  ki : Nat
  /-- KJ: 0..7. -/
  kj : Nat
  /-- UNKNOWN. -/
  unknown : Bool
  /-- The model's own: which command opened the frame (log 26). -/
  frame : FrameKind
  /-- The model's own: the reading of BUS has started (44 R215, log 26). -/
  reading : Bool
  /-- The model's own: levels the outside presents at the draws of the data line to come, oldest first (log 3). -/
  line : List Bool
  /-- The model's own: how many levels of the data line have been drawn, the index of the next free value (log 3). -/
  draws : Nat
deriving DecidableEq, Repr

/-- The receiver's state before the reading starts: that of 44 R201, with the reading not started and no level drawn yet. KEYS
has no value there before the first 0x42: 0, DESIGN CHOICE (log 5). -/
def Receiver.start : Receiver where
  ram := []
  wmode := .none
  aptr := none
  dispOn := none
  bright := none
  inFrame := false
  shift := 0
  nbits := 0
  nbytes := 0
  keys := ⟨0, 0, 0, 0⟩
  ki := 0
  kj := 0
  unknown := false
  frame := .none
  reading := false
  line := []
  draws := 0

/-! ### The host's side -/

/-- A reading of the display (44 R201, R215): RAM[0..15], DISP_ON and BRIGHT. -/
structure DisplayReading where
  ram : List Byte
  dispOn : Option Bool
  bright : Option (BitVec 3)
deriving DecidableEq, Repr

/-- What a host can do at the port: write REQ (10 R29), read RESULT (R30), STATUS (R31) or ERR_INFO (R32); and, for claims, the
observation of the display through the reading (44 R211). How the host's actions stand in time is the model's own: DESIGN CHOICE
(log 10, 11). -/
inductive HostAction where
  /-- Write REQ; the host's next action comes when the operation has ended. -/
  | request (r : Request)
  /-- Write REQ; the host's next actions may fall between the events of the operation. -/
  | start (r : Request)
  /-- Do nothing while the engine makes one move. -/
  | wait
  | readResult
  | readStatus
  | readErrInfo
  | observeDisplay
deriving DecidableEq, Repr

/-- What the host read last. -/
inductive HostData where
  | result (v : I64)
  | status (v : Byte)
  | errInfo (v : ErrInfo)
  | display (v : DisplayReading)
deriving DecidableEq, Repr

/-! ### Stops -/

/-- Why a step stops with a fault. Both are safe: the model stops where the engine does nothing more. -/
inductive Fault where
  /-- A step of the engine after a model fault: "On a fault the engine stops" and BUSY "never clears" (60 R235). Raised by
  `fetch`, never by an instruction's meaning. Safe. -/
  | engineStopped (cause : ModelFault)
  /-- BUSY = 1 with no operation in progress and no model fault: no rule gives the engine anything to do, and it accepts no
  request (60 R241). No run reaches it (log 31). Raised by `fetch`. Safe. -/
  | busyWithoutOperation
deriving DecidableEq, Repr

/-- Why a step refuses. -/
inductive Refusal where
  /-- An instruction that has no meaning yet, rejected by name in `exec`'s arm. Safe. -/
  | notModelled (mnemonic : String)
  /-- A display observation before an ENABLE has completed: there is no display reading (70 R263). Raised by
  `observeDisplay`, never by an instruction's meaning. Safe. -/
  | displayBeforeEnable
  /-- A display observation while the receiver's UNKNOWN = 1 (60 R236, 44 R211). Raised by `observeDisplay`, never by an
  instruction's meaning. Safe. -/
  | displayUnknown
deriving DecidableEq, Repr

/-! ### The state -/

/-- The machine's state. DIO_MODE, STATUS and its ENABLED and DIO_MODE bits are views (`State.dioMode`, `State.status`) of the
fields that hold them (log 21). -/
structure State where
  /-- STB: the level driven on the strobe line (10 R21). -/
  stb : Bool
  /-- CLK: the level driven on the clock line (10 R22). -/
  clk : Bool
  /-- DIO_OUT: the level driven on the data line, or none (`⊥`) while the data pin is an input (10 R23, R24). -/
  dioOut : Option Bool
  /-- RX_ACC: the receive accumulator (10 R25). -/
  rxAcc : I32
  /-- BTN_ACC: the key-scan accumulator (10 R26), in 64 bits (log 22). -/
  btnAcc : I64
  /-- TB: the text buffer of `setText` (10 R27); empty outside it (log 34). -/
  tb : List CHAR
  /-- DM: the dot mask of `setText` (10 R27); 0 outside it (log 34). -/
  dm : Byte
  /-- PACC: the bit-plane accumulator of `setText` (10 R27); 0 outside it (log 34). -/
  pacc : Byte
  /-- MSTEP: the sequencer position (10 R28). -/
  mstep : MStep
  /-- REQ: the request pending or in progress, none when there is none (10 R29). -/
  req : Option Request
  /-- RESULT (10 R30). -/
  result : I64
  /-- STATUS.BUSY (10 R31). -/
  busy : Bool
  /-- STATUS.ERR (10 R31, 60 R231). -/
  err : ErrCode
  /-- STATUS.RESULT_VALID (10 R31). -/
  resultValid : Bool
  /-- ENABLED, the ghost flag, and STATUS.ENABLED (10 R31, R33). -/
  enabled : Bool
  /-- ERR_INFO (10 R32). -/
  errInfo : ErrInfo
  /-- BUS, the trace of bus events (10 R34), held newest first: `State.bus` reads it in the spec's order (log 33). -/
  trace : List BusEvent
  /-- The model fault bit, with the fault that set it (60 R235). -/
  modelFault : Option ModelFault
  /-- The refusal mark of the run (60 R236). -/
  refusalMark : Bool
  /-- The reference receiver, with the data line's levels to come (44 R201). -/
  chip : Receiver
  /-- The model's own: how many times DIO has been re-acquired as an output, the index of the next drawn level (log 4). -/
  restores : Nat
  /-- The model's own: what the host will do, next first (log 11). -/
  host : List HostAction
  /-- The model's own: what the host read last (log 11). -/
  hostData : Option HostData
deriving DecidableEq, Repr

/-- The machine right after reset, which is construction (70 R260, R261). The pin levels are draws (log 1); registers the spec
leaves unwritten hold 0 or nothing, DESIGN CHOICE (log 2). -/
def State.reset : State where
  stb := Config.resetStb
  clk := Config.resetClk
  dioOut := some Config.resetDio
  rxAcc := 0
  btnAcc := 0
  tb := []
  dm := 0
  pacc := 0
  mstep := .idle
  req := none
  result := 0
  busy := false
  err := .none
  resultValid := false
  enabled := false
  errInfo := ⟨0, none⟩
  trace := []
  modelFault := none
  refusalMark := false
  chip := Receiver.start
  restores := 0
  host := []
  hostData := none

/-- BUS: the trace of bus events, oldest first (10 R34). -/
def State.bus (s : State) : List BusEvent := s.trace.reverse

end Sys2Proof.Machine
end

