-- ==== Sys2Proof/Machine/Flags.lean ====
section
/-! DEFINITION. STATUS and its fields (10 R31, 60 R231), and the direction of the data pin (10 R24). The engine has no other
flags (10 R36). -/

namespace Sys2Proof.Machine

/-- DIO_MODE: INPUT exactly while DIO_OUT is `⊥` (10 R23, R24). -/
def State.dioMode (s : State) : DioMode :=
  match s.dioOut with
  | some _ => .output
  | none => .input

/-- The code of an error (60 R231). -/
def ErrCode.code : ErrCode → BitVec 3
  | .none => 0
  | .dotPosition => 1
  | .noGlyph => 2
  | .reservedOp => 3
  | .domain => 4
  | .modelFault => 5

/-- STATUS.DIO_MODE: 0 = OUTPUT, 1 = INPUT (10 R31). -/
def DioMode.code : DioMode → Bool
  | .output => false
  | .input => true

/-- STATUS as the host reads it (10 R31): bit 7 reads 0, then RESULT_VALID, DIO_MODE, ENABLED, ERR and BUSY. -/
def State.status (s : State) : Byte :=
  BitVec.ofBool false ++ BitVec.ofBool s.resultValid ++ BitVec.ofBool s.dioMode.code ++ BitVec.ofBool s.enabled
    ++ s.err.code ++ BitVec.ofBool s.busy

/-- The sequencer is running an operation: MSTEP = (op, k), and no model fault has stopped the engine (10 R28, 60 R235). -/
def State.running (s : State) : Bool :=
  match s.mstep, s.modelFault with
  | .running _ _, none => true
  | _, _ => false

/-- The engine accepts a request: STATUS.BUSY = 0 (60 R241), and no model fault has stopped it (60 R235). -/
def State.canAccept (s : State) : Bool :=
  !s.busy && s.modelFault.isNone

end Sys2Proof.Machine
end

