-- ==== Sys2Proof/WellFormed.lean ====
section
/-! DEFINITION. Well-formed instructions: those an encoding stands for. Every operand is typed with its field's width, so the
one check left is the reserved row's OPSEL (30 R78, R81). -/

namespace Sys2Proof

/-- The instruction stands for an encoding of spec 30: RESERVED carries an OPSEL in 0xC to 0xF; every other row's operands
are well formed by their types. -/
def Instr.wf : Instr → Bool
  | .reserved opsel => decide (12 ≤ opsel.toNat)
  | .enable _ | .sendChar _ _ _ | .setText _ | .getButtons | .getButtons64 | .fontLookup _ | .rotateBits _ | .pow2 _
  | .sendByte _ | .sendCommand _ | .sendData _ _ | .receiveByte
  | .cmdDataWriteAuto | .cmdDataReadKeys | .cmdDataWriteFixed | .cmdDisplayCtrl _ | .cmdAddress _ => true

/-- The instruction is one a host sends over the request port (an HREQ row), rather than a bus command byte. -/
def Instr.isRequest : Instr → Bool
  | .enable _ | .sendChar _ _ _ | .setText _ | .getButtons | .getButtons64 | .fontLookup _ | .rotateBits _ | .pow2 _
  | .sendByte _ | .sendCommand _ | .sendData _ _ | .receiveByte | .reserved _ => true
  | .cmdDataWriteAuto | .cmdDataReadKeys | .cmdDataWriteFixed | .cmdDisplayCtrl _ | .cmdAddress _ => false

end Sys2Proof
end

