-- ==== Sys2Proof/Decode.lean ====
section
/-! DEFINITION. The two decoders of the block (30): the host request's control word (R77, R78), total, and the bus command byte
(R72 to R76, 44 R204), which rejects an unglossed byte by name; the encoder for each; and the numbering of
spec/opcode_table.json. -/

namespace Sys2Proof

/-! ### Named constants of the source (00 R16) -/

/-- `CMD_DATA_WRITE_AUTO`: "data-command: auto-increment write mode" (00 R16). -/
def busDataWriteAuto : Byte := 0x40
/-- `CMD_DATA_WRITE_FIXED`: "set fixed-address write mode" (00 R16). -/
def busDataWriteFixed : Byte := 0x44
/-- `CMD_DATA_READ_KEYS`: "read-key-scan command" (00 R16). -/
def busDataReadKeys : Byte := 0x42
/-- `CMD_DISPLAY_CTRL` (00 R16). -/
def busDisplayCtrl : Byte := 0x80
/-- `DISPLAY_ON` (00 R16, 90 C5). -/
def busDisplayOn : Byte := 0x08
/-- `CMD_ADDRESS`: "display-address command" (00 R16). -/
def busAddress : Byte := 0xC0

/-! ### Host requests (30 R77, R78) -/

/-- OPSEL, bits [3:0] of the control word (30 R77). -/
def Request.opsel (r : Request) : BitVec 4 := r.word.extractLsb' 0 4
/-- A, bits [35:4] (30 R77). -/
def Request.a (r : Request) : I32 := r.word.extractLsb' 4 32
/-- B, bits [67:36] (30 R77). -/
def Request.b (r : Request) : I32 := r.word.extractLsb' 36 32
/-- F, bit [68] (30 R77). -/
def Request.f (r : Request) : Bool := r.word.getLsbD 68

/-- The packed control word `OPSEL | (A[31:0] << 4) | (B[31:0] << 36) | (F << 68)` (30 R77). -/
def packWord (opsel : BitVec 4) (a b : I32) (f : Bool) : BitVec 69 :=
  opsel.setWidth 69 ||| (a.setWidth 69 <<< 4) ||| (b.setWidth 69 <<< 36) ||| ((BitVec.ofBool f).setWidth 69 <<< 68)

/-- The request a host operation, a micro-operation or a reserved code is (30 R78). Total: OPSEL has no value without a row.
Operands an operation does not use are ignored (30 R77). -/
def decodeHreq (r : Request) : Instr :=
  match r.opsel.toNat with
  | 0 => .enable r.a
  | 1 => .sendChar r.a r.b r.f
  | 2 => .setText r.txt
  | 3 => .getButtons
  | 4 => .getButtons64
  | 5 => .fontLookup r.c
  | 6 => .rotateBits r.a
  | 7 => .pow2 r.a
  | 8 => .sendByte r.a
  | 9 => .sendCommand r.a
  | 10 => .sendData r.a r.b
  | 11 => .receiveByte
  | _ => .reserved r.opsel

/-! ### Bus command bytes (30 R72 to R76, 44 R204) -/

/-- Why the decoder rejects. -/
inductive Reject where
  /-- A command byte the source does not gloss (44 R204 "any other", R211). -/
  | unglossedByte (b : Byte)
deriving DecidableEq, Repr

/-- CLS, `cmd[7:6]` (30 R72). -/
def busClass (v : Byte) : BitVec 2 := v.extractLsb' 6 2
/-- BRIGHT, `cmd[2:0]` (30 R74). -/
def busBright (v : Byte) : BitVec 3 := v.extractLsb' 0 3
/-- ADDR, `cmd[5:0]` (30 R75). -/
def busAddr (v : Byte) : BitVec 6 := v.extractLsb' 0 6

/-- The command a byte that opens a frame is (44 R204): 0x40, 0x42, 0x44, 0x88 to 0x8F, 0xC0 to 0xFF; any other is rejected by
name. The address bytes 0xD0 to 0xFF decode to CMD_ADDRESS, as the table's mask has it; what the chip does with them is
CHIP_OOR (44 R211). -/
def decodeBus8 (v : Byte) : Except Reject BusCommand :=
  if v = busDataWriteAuto then .ok .dataWriteAuto
  else if v = busDataReadKeys then .ok .dataReadKeys
  else if v = busDataWriteFixed then .ok .dataWriteFixed
  else if v &&& 0xF8 = busDisplayCtrl ||| busDisplayOn then .ok (.displayCtrl (busBright v))
  else if busClass v = 3 then .ok (.address (busAddr v))
  else .error (.unglossedByte v)

/-! ### The instruction's code, decoded and encoded -/

/-- The code of an instruction: a host request or a bus byte. -/
inductive Code where
  | hreq (r : Request)
  | bus8 (v : Byte)
deriving DecidableEq, Repr

/-- The decoder, over both encodings. -/
def decode : Code → Except Reject Instr
  | .hreq r => .ok (decodeHreq r)
  | .bus8 v =>
    match decodeBus8 v with
    | .ok c => .ok c.toInstr
    | .error e => .error e

/-- The encoder, from the same tables. Operands an operation does not use are written 0, or the empty list (30 R77). CHAR 0
stands for "no character" on port C. -/
def encode : Instr → Code
  | .enable a => .hreq ⟨packWord 0 a 0 false, 0, []⟩
  | .sendChar a b f => .hreq ⟨packWord 1 a b f, 0, []⟩
  | .setText t => .hreq ⟨packWord 2 0 0 false, 0, t⟩
  | .getButtons => .hreq ⟨packWord 3 0 0 false, 0, []⟩
  | .getButtons64 => .hreq ⟨packWord 4 0 0 false, 0, []⟩
  | .fontLookup c => .hreq ⟨packWord 5 0 0 false, c, []⟩
  | .rotateBits a => .hreq ⟨packWord 6 a 0 false, 0, []⟩
  | .pow2 a => .hreq ⟨packWord 7 a 0 false, 0, []⟩
  | .sendByte a => .hreq ⟨packWord 8 a 0 false, 0, []⟩
  | .sendCommand a => .hreq ⟨packWord 9 a 0 false, 0, []⟩
  | .sendData a b => .hreq ⟨packWord 10 a b false, 0, []⟩
  | .receiveByte => .hreq ⟨packWord 11 0 0 false, 0, []⟩
  | .reserved o => .hreq ⟨packWord o 0 0 false, 0, []⟩
  | .cmdDataWriteAuto => .bus8 busDataWriteAuto
  | .cmdDataReadKeys => .bus8 busDataReadKeys
  | .cmdDataWriteFixed => .bus8 busDataWriteFixed
  | .cmdDisplayCtrl i => .bus8 (busDisplayCtrl ||| busDisplayOn ||| i.setWidth 8)
  | .cmdAddress a => .bus8 (busAddress ||| a.setWidth 8)

/-! ### The numbering of spec/opcode_table.json -/

/-- The code that bits `w` of a table row stand for. The table gives both kinds of row no more than 8 bits, so the width alone
does not tell them apart: a one-byte word that is a bus command is that command, every other word is a control word with
the bits above it 0. DESIGN CHOICE (log 14). -/
def codeOfTableWord (nbits w : Nat) : Code :=
  let hreq : Code := .hreq ⟨BitVec.ofNat 69 w, 0, []⟩
  if nbits ≤ 8 ∧ w < 256 then
    match decodeBus8 (BitVec.ofNat 8 w) with
    | .ok _ => .bus8 (BitVec.ofNat 8 w)
    | .error _ => hreq
  else hreq

/-- The instruction the decoder reads from the bits `w` of a table row. -/
def decodeTableWord (nbits w : Nat) : Option Instr :=
  match decode (codeOfTableWord nbits w) with
  | .ok i => some i
  | .error _ => none

end Sys2Proof
end

