-- ==== Sys2Proof/Machine/Roms.lean ====
section
/-! DEFINITION. The immutable tables (10 R35, 20 R53): FONT, DOTW and ROTATE, and the pure unit POW2 (43). -/

namespace Sys2Proof.Machine

/-- The characters the tests of the source require to have a glyph (43 R183): 0 1 2 3 4 7 8 E a b c d e f g h. -/
def requiredGlyphs : List CHAR :=
  ['0', '1', '2', '3', '4', '7', '8', 'E', 'a', 'b', 'c', 'd', 'e', 'f', 'g', 'h'].map Char.toNat

/-- FONT, the font ROM: the mask of a character, or none where it has no entry (43 R180). The three masks of R182 are fixed; the
other characters R183 requires have a mask, which one is free; the rest is the finite static table, whatever it holds
(log 8). -/
def font (c : CHAR) : Option Byte :=
  if c = '0'.toNat then some 0x3F
  else if c = '1'.toNat then some 0x06
  else if c = '8'.toNat then some 0x7F
  else if c ∈ requiredGlyphs then some (Config.fontMask c)
  else Config.fontTable.lookup c

/-- DOTW, the dot-weight ROM, indexed by realPos in 0..7 (43 R187). An index outside never occurs (43 R187). -/
def dotWeights : List Byte := [0x08, 0x04, 0x02, 0x01, 0x80, 0x40, 0x20, 0x10]

/-- `DOTW[r]` (43 R187). -/
def dotw (r : Nat) : Byte := dotWeights.getD r 0

/-- ROTATE as a configuration table of 256 entries whose trusted value is the identity (43 R188, D12). -/
def rotateTable : List Byte := (List.range 256).map (BitVec.ofNat 8)

/-- `ROTATE(v)` (43 R188). -/
def rotate (v : Byte) : Byte := rotateTable.getD v.toNat 0

/-- `pow2(n)` for n ≥ 0: exact up to 30, then saturating (43 R190); none for n < 0, which has no meaning (43 R191). -/
def pow2Value (n : I32) : Option I32 :=
  if n.toInt < 0 then none
  else if n.toInt ≤ 30 then some ((1 : I32) <<< n.toNat)
  else some 0x7FFFFFFF

end Sys2Proof.Machine
end

