-- ==== Sys2Proof/Machine/Operands.lean ====
section
/-! DEFINITION. Operand forms: how an operation's operands become bus bytes (30 R79, R80; 40 R106 to R108), and how a text becomes
the buffer and bit-planes of `setText` (41 R135 to R145). -/

namespace Sys2Proof.Machine

/-! ### Bus bytes -/

/-- `clamp(x, lo, hi)` (00 R9). -/
def clamp (x lo hi : Int) : Int := min (max x lo) hi

/-- `I = clamp(intensity, 0, 7)`, a u3 (30 R79, 41 R131). -/
def clampIntensity (a : I32) : BitVec 3 := BitVec.ofInt 3 (clamp a.toInt 0 7)

/-- The display-control byte `0x80 | 0x08 | I` (30 R79, 41 R131). -/
def displayCtrlByte (i : BitVec 3) : Byte := busDisplayCtrl ||| busDisplayOn ||| i.setWidth 8

/-- The byte an int32 operand sends: `value[7:0]` (40 R106). -/
def lowByte (v : I32) : Byte := v.setWidth 8

/-- `0xC0 | addr`, as int32 (40 R108). -/
def addressWord (addr : I32) : I32 := busAddress.setWidth 32 ||| addr

/-- SEND_CHAR's address, `trunc_32(pos * 2)` (30 R80, 41 R133). -/
def charAddress (pos : I32) : I32 := pos * 2

/-- SEND_CHAR's data, `data | (dot ? 128 : 0)` (30 R80, 41 R133). -/
def charData (data : I32) (dot : Bool) : I32 := data ||| (if dot then 128 else 0)

/-- ERR_INFO.pos of an exact integer (10 R32). Outside int32 the spec states no value: a free value (log 19). -/
def posOfInt (p : Int) : I32 :=
  if -2147483648 ≤ p ∧ p ≤ 2147483647 then BitVec.ofInt 32 p else Config.posOutOfRange p

/-! ### Text -/

/-- `'.'` (00 R7 `CHAR`). -/
def chDot : CHAR := '.'.toNat
/-- `' '` (00 R7 `CHAR`). -/
def chSpace : CHAR := ' '.toNat

/-- `firstIndex(T, c)` (00 R10). -/
def firstIndex (t : List CHAR) (c : CHAR) : Option Nat := t.findIdx? (fun x => x == c)

/-- realPos of the first dot, at index j of a text of length L: `j + (8 - L)`, an exact integer (41 R136). -/
def realPos (j len : Nat) : Int := (j : Int) + (8 - (len : Int))

/-- Step 1 of `setText` (41 R136 to R138): the dot mask, or the negative realPos of the dot-position error. With no dot the
mask is 0x00 (D11). -/
def dotMask (t : List CHAR) : Except Int Byte :=
  match firstIndex t chDot with
  | none => .ok 0
  | some j =>
    let r := realPos j t.length
    if r < 0 then .error r else .ok (dotw r.toNat)

/-- Step 2 of `setText`: every dot is removed (41 R139). -/
def dropDots (t : List CHAR) : List CHAR := t.filter (fun c => c != chDot)

/-- Steps 4 to 7 of `setText`, on the text without its dots: truncate to 8, reverse, pad with spaces on the left, swap the two
halves (41 R141). -/
def layOut (t1 : List CHAR) : List CHAR :=
  let t2 := t1.take 8
  let t3 := t2.reverse
  let t4 := List.replicate (8 - t3.length) chSpace ++ t3
  t4.drop 4 ++ t4.take 4

/-- TB of a text (41 R141). -/
def textBuffer (t : List CHAR) : List CHAR := layOut (dropDots t)

/-- `TB[p]` (41 R143). -/
def bufferAt (tb : List CHAR) (p : Nat) : CHAR := tb.getD p chSpace

/-- What position p gives bit-plane i: `FONT(c)[i] << p`, nothing at a space (41 R143). A character without a glyph gives
nothing here: its error ends the operation first (41 R144). -/
def planeBit (i p : Nat) (c : CHAR) : Byte :=
  if c = chSpace then 0
  else match font c with
    | some m => (BitVec.ofBool (m.getLsbD i)).setWidth 8 <<< p
    | none => 0

/-- `PACC_i`: the OR over the positions of `TB[p]` (41 R143). -/
def planeByte (tb : List CHAR) (i : Nat) : Byte :=
  (List.range 8).foldl (fun acc p => acc ||| planeBit i p (bufferAt tb p)) 0

end Sys2Proof.Machine
end

