-- ==== Sys2Proof/Machine/Receiver.lean ====
section
/-! DEFINITION. The reference receiver (44): the display memory, the draws of the data line, framing, bit capture, the five bus
commands, data bytes, the answer to SAMPLE, and the display reading with what it shows on the board. -/

namespace Sys2Proof.Machine

/-! ### Display memory (20 R51, 44 R209) -/

/-- `MemRead`: the byte last written at an address, or no value where nothing has been written since the reading started. -/
def Memory.read (m : Memory) (a : Nat) : Option Byte := m.lookup a

/-- `MemWrite(RAM, a, 1, v)` on the canonical form: the entry of `a` is put in its place (00 R12). -/
def Memory.write : Memory → Nat → Byte → Memory
  | [], a, v => [(a, v)]
  | (b, w) :: rest, a, v =>
    if a < b then (a, v) :: (b, w) :: rest
    else if a = b then (a, v) :: rest
    else (b, w) :: Memory.write rest a v

/-- The display byte the chip holds at an address: what was last written, else a draw (44 R201, log 6). -/
def Memory.shown (m : Memory) (a : Nat) : Byte := (m.read a).getD (Config.ramPowerUp a)

/-! ### Draws of the data line (40 R105, 44 R207, log 3) -/

/-- The j-th level from now the outside presents on the data line: the supplied one, else a free value. -/
def Receiver.lineAt (c : Receiver) (j : Nat) : Bool :=
  c.line.getD j (Config.lineLevel Config.pullMode (c.draws + j))

/-- `n` levels have been drawn. -/
def Receiver.dropLine (n : Nat) (c : Receiver) : Receiver :=
  { c with line := c.line.drop n, draws := c.draws + n }

/-- The byte with bits `f 0` (least significant) to `f 7`. -/
def byteOfBits (f : Nat → Bool) : Byte :=
  (List.range 8).foldl (fun acc j => acc ||| ((BitVec.ofBool (f j)).setWidth 8 <<< j)) 0

/-- The i-th byte of the levels to come, least significant bit first. -/
def Receiver.lineByte (c : Receiver) (i : Nat) : Byte := byteOfBits (fun j => c.lineAt (8 * i + j))

/-- `KEYS[i]` (44 R201). -/
def Keys.byte (k : Keys) : Nat → Byte
  | 0 => k.k0
  | 1 => k.k1
  | 2 => k.k2
  | _ => k.k3

/-! ### Framing (44 R202, R214) -/

/-- The reading starts, if it has not, with the receiver's state of 44 R201 (44 R215). -/
def Receiver.startReading (c : Receiver) : Receiver :=
  if c.reading then c else { Receiver.start with reading := true, line := c.line, draws := c.draws }

/-- What the receiver does when STB goes from level `old` to level `new`: only a change of level is an edge (44 R214). A falling
edge starts a frame: IN_FRAME <- 1, NBITS <- 0, NBYTES <- 0. A rising edge ends it: IN_FRAME <- 0, and UNKNOWN <- 1 if a
partial byte is left (44 R202). -/
def chipStb (old new : Bool) (c : Receiver) : Receiver :=
  if c.reading then
    let falls := !new && old
    let rises := new && !old
    { c with
      inFrame := (c.inFrame && !rises) || falls
      unknown := c.unknown || (c.nbits != 0 && rises)
      nbits := if falls then 0 else c.nbits
      nbytes := if falls then 0 else c.nbytes
      frame := if falls then .none else c.frame }
  else c

/-! ### Byte dispatch (44 R204 to R211) -/

/-- UNKNOWN <- 1: the reading has met something the source does not gloss (44 R211). -/
def Receiver.setUnknown (c : Receiver) : Receiver := { c with unknown := true }

/-- `0x40`: WMODE <- AUTO (44 R205). -/
def Receiver.writeAuto (c : Receiver) : Receiver := { c with wmode := .auto, frame := .other }

/-- `0x44`: WMODE <- FIXED (44 R206). -/
def Receiver.writeFixed (c : Receiver) : Receiver := { c with wmode := .fixed, frame := .other }

/-- `0x42`: WMODE <- READ, KI <- 0, KJ <- 0, and KEYS[0..3] are drawn (44 R207). -/
def Receiver.readKeys (c : Receiver) : Receiver :=
  { c with
    wmode := .read, frame := .scan, ki := 0, kj := 0
    keys := ⟨c.lineByte 0, c.lineByte 1, c.lineByte 2, c.lineByte 3⟩
    line := c.line.drop 32, draws := c.draws + 32 }

/-- `0x88 | I`: DISP_ON <- 1, BRIGHT <- I (44 R208). -/
def Receiver.displayCtrl (c : Receiver) (i : BitVec 3) : Receiver :=
  { c with dispOn := some true, bright := some i, frame := .other }

/-- `0xC0 | a`: APTR <- a for a in 0..15 (44 R209); for a in 16..63 the source does not gloss it, UNKNOWN <- 1 (44 R211). -/
def Receiver.address (c : Receiver) (a : BitVec 6) : Receiver :=
  if a.toNat < Config.ramBytes then { c with aptr := some (a.setWidth 4), frame := .address }
  else { c with unknown := true, frame := .other }

/-- The effect of a command byte (44 R204). -/
def Receiver.busCommand (c : Receiver) : BusCommand → Receiver
  | .dataWriteAuto => c.writeAuto
  | .dataReadKeys => c.readKeys
  | .dataWriteFixed => c.writeFixed
  | .displayCtrl i => c.displayCtrl i
  | .address a => c.address a

/-- A command byte: a glossed one has its effect, any other makes the reading UNKNOWN (44 R204, R211). -/
def Receiver.commandByte (c : Receiver) (v : Byte) : Receiver :=
  match decodeBus8 v with
  | .ok cmd => c.busCommand cmd
  | .error _ => { c with unknown := true, frame := .other }

/-- `RAM[a] <- d` (44 R209, R210). -/
def Receiver.store (c : Receiver) (a : Nat) (d : Byte) : Receiver := { c with ram := c.ram.write a d }

/-- The address the data byte with index NBYTES of the open frame goes to, none where the rules place it nowhere: in an address
frame with WMODE = FIXED the first data byte goes to APTR (44 R209); with WMODE = AUTO data byte number n goes to
APTR + n while that is at most 15 (44 R210). -/
def Receiver.dataAddress (c : Receiver) : Option Nat :=
  match c.frame, c.aptr, c.wmode with
  | .address, some a, .fixed => if c.nbytes = 1 then some a.toNat else none
  | .address, some a, .auto =>
    if a.toNat + (c.nbytes - 1) < Config.ramBytes then some (a.toNat + (c.nbytes - 1)) else none
  | _, _, _ => none

/-- A data byte (NBYTES ≥ 1): stored where R209 and R210 place it, else UNKNOWN (44 R204, R211). -/
def Receiver.dataByte (c : Receiver) (d : Byte) : Receiver :=
  match c.dataAddress with
  | some a => c.store a d
  | none => c.setUnknown

/-- After the dispatch of a byte: NBITS <- 0 and NBYTES <- NBYTES + 1 (44 R203). -/
def Receiver.byteDone (c : Receiver) : Receiver := { c with nbits := 0, nbytes := c.nbytes + 1 }

/-- The complete byte v is dispatched with index NBYTES (44 R203, R204). -/
def Receiver.takeByte (c : Receiver) (v : Byte) : Receiver :=
  (if c.nbytes = 0 then c.commandByte v else c.dataByte v).byteDone

/-- The complete byte in SHIFT is dispatched (44 R203). -/
def Receiver.dispatchByte (c : Receiver) : Receiver := c.takeByte c.shift

/-! ### Bit capture (44 R203) -/

/-- `SHIFT[n] <- b`. -/
def setBit (v : Byte) (n : Nat) (b : Bool) : Byte :=
  (v &&& ~~~((1 : Byte) <<< n)) ||| ((BitVec.ofBool b).setWidth 8 <<< n)

/-- `SHIFT[NBITS] <- b`, `NBITS <- NBITS + 1`, and the dispatch of a complete byte (44 R203). -/
def Receiver.captureBit (c : Receiver) (b : Bool) : Receiver :=
  let c1 := { c with shift := setBit c.shift c.nbits b, nbits := c.nbits + 1 }
  if 8 ≤ c1.nbits then c1.dispatchByte else c1

/-- What the receiver does when CLK goes from level `old` to level `new`: a rising edge inside a frame, with the data pin an
output, captures the level DIO_OUT drives (44 R203, R214). -/
def chipClk (old new : Bool) (dioOut : Option Bool) (c : Receiver) : Receiver :=
  if c.reading && (c.inFrame && (new && !old)) then
    match dioOut with
    | some d => c.captureBit d
    | none => c
  else c

/-! ### The answer to SAMPLE (40 R105, 44 R207) -/

/-- The chip is presenting KEYS: the open frame's command was 0x42 and not all four bytes have been presented (44 R207). -/
def Receiver.presenting (c : Receiver) : Bool :=
  c.reading && (c.inFrame && (decide (c.frame = .scan) && decide (c.ki < Config.nKeyBytes)))

/-- The level the data line presents at a SAMPLE: `KEYS[KI][KJ]` while the chip presents them, else the oracle's answer. -/
def Receiver.sampleLevel (c : Receiver) : Bool :=
  if c.presenting then (c.keys.byte c.ki).getLsbD c.kj else c.lineAt 0

/-- Each SAMPLE advances KJ, and after KJ = 7 it advances KI (44 R207). -/
def Receiver.advanceKey (c : Receiver) : Receiver :=
  if c.kj = 7 then { c with kj := 0, ki := c.ki + 1 } else { c with kj := c.kj + 1 }

/-- What a SAMPLE changes on the chip's side: the key bit presented, or one level of the line drawn. -/
def Receiver.afterSample (c : Receiver) : Receiver :=
  if c.presenting then c.advanceKey else c.dropLine 1

/-! ### The display observation (44 R201, R211, R215; 70 R263) -/

/-- The display reading, or why there is none: no completed ENABLE (70 R263), or UNKNOWN = 1 (44 R211). -/
def State.displayReading (s : State) : Except Refusal DisplayReading :=
  if !s.enabled then .error .displayBeforeEnable
  else if s.chip.unknown then .error .displayUnknown
  else .ok
    { ram := (List.range Config.ramBytes).map s.chip.ram.shown
      dispOn := s.chip.dispOn
      bright := s.chip.bright }

/-! ### The board reading (44 R213) -/

/-- Segment i, for i in 0..6, of the digit at position p, on the board the source targets: bit p of RAM[2i] (44 R213). -/
def boardSegment (ram : Nat → Byte) (i p : Nat) : Bool := (ram (2 * i)).getLsbD p

/-- The decimal point of position p: bit p of RAM[14] (44 R213). -/
def boardPoint (ram : Nat → Byte) (p : Nat) : Bool := (ram 14).getLsbD p

/-- What one digit of the board shows. -/
structure BoardDigit where
  /-- Segment i is bit i. -/
  segments : BitVec 7
  /-- The decimal point. -/
  point : Bool
deriving DecidableEq, Repr

/-- The digit at position p, for display bytes `ram` (44 R213). -/
def boardDigit (ram : Nat → Byte) (p : Nat) : BoardDigit where
  segments := (byteOfBits (fun i => boardSegment ram i p)).setWidth 7
  point := boardPoint ram p

/-- The eight digits a display reading shows, position 0 first: chip register i drives segment i of all of them (44 R213). A reading
holds all 16 bytes, so the default is never read. -/
def DisplayReading.board (d : DisplayReading) : List BoardDigit :=
  (List.range Config.nPos).map (boardDigit (fun a => d.ram.getD a 0))

/-- The board, where the display can be read. 44 R213 gives it after a successful SET_TEXT. -/
def State.boardReading (s : State) : Except Refusal (List BoardDigit) := s.displayReading.map DisplayReading.board

end Sys2Proof.Machine
end

