-- ==== Sys2Proof/Machine/BusCommands.lean ====
section
/-! DEFINITION. The bus command bytes (44 R204 to R211) as instructions of the receiver: the dispatch of a complete command byte, its
effect and then the byte count (44 R203). -/

namespace Sys2Proof.Machine

/-- CMD_DATA_WRITE_AUTO, `0x40` (44 R205). -/
def execCmdDataWriteAuto (s : State) : Host.Outcome State Fault Refusal :=
  .next { s with chip := (s.chip.writeAuto).byteDone }

/-- CMD_DATA_READ_KEYS, `0x42` (44 R207). -/
def execCmdDataReadKeys (s : State) : Host.Outcome State Fault Refusal :=
  .next { s with chip := (s.chip.readKeys).byteDone }

/-- CMD_DATA_WRITE_FIXED, `0x44` (44 R206). -/
def execCmdDataWriteFixed (s : State) : Host.Outcome State Fault Refusal :=
  .next { s with chip := (s.chip.writeFixed).byteDone }

/-- CMD_DISPLAY_CTRL, `0x88 | I` (44 R208). -/
def execCmdDisplayCtrl (bright : BitVec 3) (s : State) : Host.Outcome State Fault Refusal :=
  .next { s with chip := (s.chip.displayCtrl bright).byteDone }

/-- CMD_ADDRESS, `0xC0 | a` (44 R209; a ≥ 16: R211). -/
def execCmdAddress (addr : BitVec 6) (s : State) : Host.Outcome State Fault Refusal :=
  .next { s with chip := (s.chip.address addr).byteDone }

end Sys2Proof.Machine
end

