-- ==== Sys2Proof/Machine/Ops.lean ====
section
/-! DEFINITION. The shared operations of the engine: emitting a bus event (40 R100 to R105), accepting and completing a request (60
R241), and the three ways a request ends otherwise: an argument error (60 R239), a model fault (60 R235), a refusal (60
R236). -/

namespace Sys2Proof.Machine

/-! ### Errors, faults and refusals -/

/-- The instruction is SET_TEXT, the operation TB, DM and PACC belong to (10 R27). -/
def isSetText : Instr → Bool
  | .setText _ => true
  | .enable _ | .sendChar _ _ _ | .getButtons | .getButtons64 | .fontLookup _ | .rotateBits _ | .pow2 _ | .sendByte _
  | .sendCommand _ | .sendData _ _ | .receiveByte | .reserved _ | .cmdDataWriteAuto | .cmdDataReadKeys | .cmdDataWriteFixed
  | .cmdDisplayCtrl _ | .cmdAddress _ => false

/-- SET_TEXT is in progress. -/
def MStep.inSetText : MStep → Bool
  | .idle => false
  | .running op _ => isSetText op

/-- TB, DM and PACC do not survive SET_TEXT (10 R27): they hold again what reset leaves in them. DESIGN CHOICE: the spec gives them no
value outside `setText` (log 34). -/
def dropText (s : State) : State :=
  { s with
    tb := if s.mstep.inSetText then [] else s.tb
    dm := if s.mstep.inSetText then 0 else s.dm
    pacc := if s.mstep.inSetText then 0 else s.pacc }

/-- What completion, an argument error and a refusal have in common, beside what each writes itself: MSTEP <- IDLE, BUSY <- 0 (10 R28, 60
R236, R239, R241), no request is pending, and nothing is left of TB, DM and PACC (10 R27). -/
def endOperation (s : State) : State :=
  { dropText s with mstep := .idle, busy := false, req := none }

/-- Entry on an argument error (60 R239): ERR and ERR_INFO are written, RESULT_VALID is cleared, the engine goes IDLE. Events
already emitted stand. No state is saved for a handler. -/
def raiseInvalidArgument (code : ErrCode) (info : ErrInfo) (s : State) : State :=
  { endOperation s with err := code, errInfo := info, resultValid := false }

/-- Entry on a model fault (60 R235): the engine stops, BUSY is 1, ERR = MODEL_FAULT, and the fault bit is set for good, with the name of
the first fault. The operation in progress ends (00 R12) without completing: MSTEP stays at the event the fault stopped it at, for
only a completion and an abort return it to IDLE (10 R28, R38), REQ keeps its request, and nothing is left of TB, DM and PACC (log
18). -/
def enterFault (f : ModelFault) (s : State) : State :=
  { dropText s with busy := true, err := .modelFault, modelFault := some (s.modelFault.getD f) }

/-- A refused request (60 R236): ERR is written, RESULT is unchanged, RESULT_VALID and BUSY are cleared, and the run's refusal
mark is set for good. -/
def refuseRequest (code : ErrCode) (s : State) : State :=
  { endOperation s with err := code, resultValid := false, refusalMark := true }

/-! ### Acceptance and return (60 R241) -/

/-- Acceptance of a request: BUSY <- 1, ERR <- 0, MSTEP = (op, 0). -/
def accept (op : Instr) (s : State) : State :=
  { s with busy := true, err := .none, mstep := .running op 0 }

/-- Completion: MSTEP <- IDLE, BUSY <- 0, ERR = NONE, and no request is pending. An operation that an argument error, a refusal or a
model fault has ended does not complete. -/
def complete (s : State) : State :=
  if s.running then { endOperation s with err := .none } else s

/-! ### Bus events (40 R100 to R105) -/

/-- MSTEP advances by one per emitted event (10 R28). -/
def MStep.advance : MStep → MStep
  | .idle => .idle
  | .running op k => .running op (k + 1)

/-- The event is appended to BUS (10 R34) and MSTEP advances (10 R28). -/
def record (e : BusEvent) (s : State) : State :=
  { s with trace := e :: s.trace, mstep := s.mstep.advance }

/-- `Emit(STB(b))`: STB <- b (40 R101). The receiver sees the change of level. -/
def emitStb (b : Bool) (s : State) : State :=
  record (.stb b) { s with stb := b, chip := chipStb s.stb b s.chip }

/-- `Emit(CLK(b))`: CLK <- b (40 R101). The receiver sees the change of level. -/
def emitClk (b : Bool) (s : State) : State :=
  record (.clk b) { s with clk := b, chip := chipClk s.clk b s.dioOut s.chip }

/-- `Emit(DIO(b))`: DIO_OUT <- b; a model fault if the data pin is an input (40 R102). -/
def emitDio (b : Bool) (s : State) : State :=
  match s.dioMode with
  | .output => record (.dio b) { s with dioOut := some b }
  | .input => enterFault .dioWriteInInputMode s

/-- `Emit(DIR_IN)`: the data pin becomes an input and is not driven (40 R103). -/
def emitDirIn (s : State) : State :=
  record .dirIn { s with dioOut := none }

/-- `Emit(DIR_OUT)`: the data pin becomes an output, at a drawn level (40 R104, log 4). -/
def emitDirOut (s : State) : State :=
  record .dirOut { s with dioOut := some (Config.dioRestoreLevel s.restores), restores := s.restores + 1 }

/-- `b <- Sample()`, then `if b = 1: RX_ACC <- RX_ACC | 0x80` (40 R105, R109); a model fault if the data pin is an output. That the
write of RX_ACC falls in the step of the SAMPLE, not of the CLK(1) after it, is the model's: DESIGN CHOICE (log 20). -/
def emitSample (s : State) : State :=
  match s.dioMode with
  | .input =>
    let b := s.chip.sampleLevel
    record (.sample b) { s with rxAcc := if b then s.rxAcc ||| 0x80 else s.rxAcc, chip := s.chip.afterSample }
  | .output => enterFault .sampleInOutputMode s

end Sys2Proof.Machine
end

