-- ==== Sys2Proof/Machine/Sequencer.lean ====
section
/-! DEFINITION. The sequencer: the actions its sequences are made of, how one action and a sequence of them run, one event of an
operation in progress (10 R28), and the frame of a host request (60 R241). -/

namespace Sys2Proof.Machine

/-- What a sequence is made of: the bus events of 40 R100, and the register actions between them that the pseudocode of the
rules writes. -/
inductive Action where
  /-- `Emit(STB(b))`. -/
  | stb (b : Bool)
  /-- `Emit(CLK(b))`. -/
  | clk (b : Bool)
  /-- `Emit(DIO(b))`. -/
  | dio (b : Bool)
  /-- `Emit(DIR_IN)`. -/
  | dirIn
  /-- `Emit(DIR_OUT)`. -/
  | dirOut
  /-- `b <- Sample(); if b = 1: RX_ACC <- RX_ACC | 0x80` (40 R109). -/
  | sample
  /-- `RX_ACC <- 0` (40 R109). -/
  | rxClear
  /-- `RX_ACC <- RX_ACC >> 1` (40 R109). -/
  | rxShift
  /-- `BTN_ACC <- 0` (42 R160, R162). -/
  | btnClear
  /-- `BTN_ACC <- BTN_ACC | (b_i << i)`, int32 (42 R160). -/
  | btnOr (i : Nat)
  /-- `BTN_ACC <- BTN_ACC + b_i * 256^i`, 64 bits (42 R162). -/
  | btnAdd (i : Nat)
  /-- `RESULT <- zext_64(BTN_ACC)`, BTN_ACC as int32 (42 R160). -/
  | resultOfBtn32
  /-- `RESULT <- BTN_ACC` (42 R162). -/
  | resultOfBtn64
  /-- `RESULT <- v; STATUS.RESULT_VALID <- 1` (43). -/
  | setResult (v : I64)
  /-- `STATUS.RESULT_VALID <- 0` (10 R30). -/
  | clearValid
  /-- `ENABLED <- 1; STATUS.ENABLED <- 1` (41 R130). -/
  | setEnabled
  /-- The reading starts, if it has not (44 R215). -/
  | startReading
  /-- `DM <- v` (41 R135). -/
  | setDm (v : Byte)
  /-- `TB <- t` (41 R135). -/
  | setTb (t : List CHAR)
  /-- `PACC <- 0` (41 R135). -/
  | paccClear
  /-- `PACC <- PACC | (m[i] << p)`, v the shifted bit (41 R135). -/
  | paccOr (v : Byte)
  /-- `raise InvalidArgument(code, pos, ch)` (60 R239). -/
  | raise (code : ErrCode) (info : ErrInfo)
  /-- `refuse`, with the ERR code it writes (60 R236). -/
  | refuse (code : ErrCode)
deriving DecidableEq, Repr

/-- The action emits a bus event. -/
def Action.isEvent : Action → Bool
  | .stb _ | .clk _ | .dio _ | .dirIn | .dirOut | .sample => true
  | .rxClear | .rxShift | .btnClear | .btnOr _ | .btnAdd _ | .resultOfBtn32 | .resultOfBtn64 | .setResult _ | .clearValid
  | .setEnabled | .startReading | .setDm _ | .setTb _ | .paccClear | .paccOr _ | .raise _ _ | .refuse _ => false

/-- What an action does. -/
def act : Action → State → State
  | .stb b, s => emitStb b s
  | .clk b, s => emitClk b s
  | .dio b, s => emitDio b s
  | .dirIn, s => emitDirIn s
  | .dirOut, s => emitDirOut s
  | .sample, s => emitSample s
  | .rxClear, s => { s with rxAcc := 0 }
  | .rxShift, s => { s with rxAcc := s.rxAcc >>> 1 }
  | .btnClear, s => { s with btnAcc := 0 }
  | .btnOr i, s => { s with btnAcc := (s.btnAcc.setWidth 32 ||| (s.rxAcc <<< i)).setWidth 64 }
  | .btnAdd i, s => { s with btnAcc := s.btnAcc + s.rxAcc.setWidth 64 * BitVec.ofNat 64 (256 ^ i) }
  | .resultOfBtn32, s => { s with result := (s.btnAcc.setWidth 32).setWidth 64, resultValid := true }
  | .resultOfBtn64, s => { s with result := s.btnAcc, resultValid := true }
  | .setResult v, s => { s with result := v, resultValid := true }
  | .clearValid, s => { s with resultValid := false }
  | .setEnabled, s => { s with enabled := true }
  | .startReading, s => { s with chip := s.chip.startReading }
  | .setDm v, s => { s with dm := v }
  | .setTb t, s => { s with tb := t }
  | .paccClear, s => { s with pacc := 0 }
  | .paccOr v, s => { s with pacc := s.pacc ||| v }
  | .raise code info, s => raiseInvalidArgument code info s
  | .refuse code, s => refuseRequest code s

/-- One action of a sequence: it runs only while the sequencer is running, so nothing of an operation happens after an argument
error (60 R239), a refusal (60 R236) or a model fault (60 R235) in it. -/
def runAction (s : State) (a : Action) : State := if s.running then act a s else s

/-- A sequence of actions, in order (20 R62). -/
def run (as : List Action) (s : State) : State := as.foldl runAction s

/-! ### Host requests -/

/-- The state a host request leaves (60 R241): if the engine accepts it, its sequence is run from MSTEP = (op, 0) and completes;
a request that is not accepted changes nothing (20 R63, log 15). -/
def runRequest (op : Instr) (script : List Action) (s : State) : State :=
  if s.canAccept then complete (run script (accept op s)) else s

/-- A host request with a reserved or internal OPSEL (30 R81, R82; 60 R241): accepted, then refused before anything else. -/
def refuseOpsel (op : Instr) (s : State) : State :=
  if s.canAccept then refuseRequest .reservedOp (accept op s) else s

/-- A micro-operation's code (30 R82): from the host port, with the sequencer IDLE, it is refused; inside the sequencer, the
micro-operation runs in line (log 16). -/
def microOperation (op : Instr) (script : List Action) (s : State) : State :=
  match s.mstep with
  | .idle => refuseOpsel op s
  | .running _ _ => run script s

/-! ### One event at a time (10 R28) -/

/-- The part of a sequence after its first k events. -/
def dropEvents : Nat → List Action → List Action
  | 0, as => as
  | _ + 1, [] => []
  | k + 1, a :: as => if a.isEvent then dropEvents k as else dropEvents (k + 1) as

/-- The actions up to and with the first event; all of them where there is no event left (log 20). -/
def firstEvent : List Action → List Action
  | [] => []
  | a :: as => if a.isEvent then [a] else a :: firstEvent as

/-- One step of an operation in progress whose sequence is `script`, k events emitted: the register actions up to the next
event, and the event; where no event is left, the rest and the completion. -/
def stepScript (script : List Action) (k : Nat) (s : State) : State :=
  let rest := dropEvents k script
  if rest.any Action.isEvent then run (firstEvent rest) s else complete (run rest s)

end Sys2Proof.Machine
end

