-- ==== Sys2Proof/Machine/Protocol.lean ====
section
/-! DEFINITION. The protocol primitives (40): SEND_BYTE, SEND_COMMAND, SEND_DATA, RX_CORE and RECEIVE_BYTE as sequences, the meaning
of each micro-operation's code, and of the reserved codes (30 R81, R82). -/

namespace Sys2Proof.Machine

/-- One bit sent: `CLK(0)`, `DIO(b)`, `CLK(1)` (40 R106, 70 R266). -/
def sendBitScript (b : Bool) : List Action := [.clk false, .dio b, .clk true]

/-- SEND_BYTE: eight bits, least significant first (40 R106). -/
def sendByteScript (value : I32) : List Action :=
  (List.range 8).flatMap (fun i => sendBitScript (value.getLsbD i))

/-- SEND_COMMAND (40 R107). -/
def sendCommandScript (cmd : I32) : List Action := [.stb false] ++ sendByteScript cmd ++ [.stb true]

/-- SEND_DATA (40 R108). -/
def sendDataScript (addr data : I32) : List Action :=
  sendCommandScript (busDataWriteFixed.setWidth 32)
    ++ [.stb false] ++ sendByteScript (addressWord addr) ++ sendByteScript data ++ [.stb true]

/-- One bit received: `RX_ACC >> 1`, `CLK(0)`, sample, `CLK(1)` (40 R109, 70 R266). -/
def receiveBitScript : List Action := [.rxShift, .clk false, .sample, .clk true]

/-- RX_CORE, the receive bit loop (40 R109). -/
def rxCoreScript : List Action := [.rxClear] ++ (List.range 8).flatMap (fun _ => receiveBitScript)

/-- RECEIVE_BYTE: the data pin is an input around the bit loop; the result is left in RX_ACC (40 R110). -/
def receiveByteScript : List Action := [.dirIn] ++ rxCoreScript ++ [.dirOut]

/-! ### Meanings -/

/-- SEND_BYTE's code (40 R106; from the host, 30 R82). -/
def execSendByte (value : I32) (s : State) : Host.Outcome State Fault Refusal :=
  .next (microOperation (.sendByte value) (sendByteScript value) s)

/-- SEND_COMMAND's code (40 R107; from the host, 30 R82). -/
def execSendCommand (cmd : I32) (s : State) : Host.Outcome State Fault Refusal :=
  .next (microOperation (.sendCommand cmd) (sendCommandScript cmd) s)

/-- SEND_DATA's code (40 R108; from the host, 30 R82). -/
def execSendData (addr data : I32) (s : State) : Host.Outcome State Fault Refusal :=
  .next (microOperation (.sendData addr data) (sendDataScript addr data) s)

/-- RECEIVE_BYTE's code (40 R110; from the host, 30 R82). -/
def execReceiveByte (s : State) : Host.Outcome State Fault Refusal :=
  .next (microOperation .receiveByte receiveByteScript s)

/-- A reserved OPSEL, 0xC to 0xF (30 R81). -/
def execReserved (opsel : BitVec 4) (s : State) : Host.Outcome State Fault Refusal :=
  .next (refuseOpsel (.reserved opsel) s)

end Sys2Proof.Machine
end

