-- ==== Sys2Proof/Machine/Display.lean ====
section
/-! DEFINITION. The display operations (41): ENABLE, SEND_CHAR and SET_TEXT. -/

namespace Sys2Proof.Machine

/-- ENABLE (41 R130): the reading starts at its first event (44 R215). -/
def enableScript (intensity : I32) : List Action :=
  [.startReading, .stb true, .clk true]
    ++ sendCommandScript (busDataWriteAuto.setWidth 32)
    ++ sendCommandScript ((displayCtrlByte (clampIntensity intensity)).setWidth 32)
    ++ [.stb false] ++ sendByteScript (busAddress.setWidth 32)
    ++ (List.range Config.ramBytes).flatMap (fun _ => sendByteScript 0)
    ++ [.stb true, .setEnabled, .clearValid]

/-- The frames of SEND_CHAR: `SEND_DATA(trunc_32(pos * 2), data | (dot ? 128 : 0))` (41 R133). -/
def charScript (pos data : I32) (dot : Bool) : List Action := sendDataScript (charAddress pos) (charData data dot)

/-- SEND_CHAR (41 R133). -/
def sendCharScript (pos data : I32) (dot : Bool) : List Action := charScript pos data dot ++ [.clearValid]

/-- What SET_TEXT does for position p of plane i: nothing at a space, the error at a character without a glyph, else the mask's
bit i into bit p of PACC (41 R135 step 8). -/
def positionScript (tb : List CHAR) (i p : Nat) : List Action :=
  let c := bufferAt tb p
  if c = chSpace then []
  else match font c with
    | none => [.raise .noGlyph ⟨posOfInt p, some c⟩]
    | some _ => [.paccOr (planeBit i p c)]

/-- Bit-plane i of SET_TEXT: accumulate, then `SEND_CHAR(i, ROTATE(PACC), 0)` (41 R135 step 8). -/
def planeScript (tb : List CHAR) (i : Nat) : List Action :=
  [.paccClear] ++ (List.range Config.nPos).flatMap (positionScript tb i)
    ++ charScript (BitVec.ofNat 32 i) ((rotate (planeByte tb i)).setWidth 32) false

/-- SET_TEXT (41 R135). -/
def setTextScript (text : List CHAR) : List Action :=
  match dotMask text with
  | .error realPos => [.raise .dotPosition ⟨posOfInt realPos, none⟩]
  | .ok dm =>
    [.setDm dm] ++ charScript 7 ((rotate dm).setWidth 32) false
      ++ [.setTb (textBuffer text)]
      ++ (List.range Config.nPlanes).flatMap (planeScript (textBuffer text))
      ++ [.clearValid]

/-! ### Meanings -/

/-- ENABLE (41 R130 to R132). -/
def execEnable (intensity : I32) (s : State) : Host.Outcome State Fault Refusal :=
  .next (runRequest (.enable intensity) (enableScript intensity) s)

/-- SEND_CHAR (41 R133, R134). -/
def execSendChar (pos data : I32) (dot : Bool) (s : State) : Host.Outcome State Fault Refusal :=
  .next (runRequest (.sendChar pos data dot) (sendCharScript pos data dot) s)

/-- SET_TEXT (41 R135 to R149). -/
def execSetText (text : List CHAR) (s : State) : Host.Outcome State Fault Refusal :=
  .next (runRequest (.setText text) (setTextScript text) s)

end Sys2Proof.Machine
end

