-- ==== Sys2Proof/Machine/KeyScan.lean ====
section
/-! DEFINITION. The key-scan operations (42): GET_BUTTONS and GET_BUTTONS64. -/

namespace Sys2Proof.Machine

/-- A key scan whose byte number i is taken up by `take i` and whose result is formed by `result` (42 R160, R162). -/
def keyScanScript (take : Nat → Action) (result : Action) : List Action :=
  [.stb false] ++ sendByteScript (busDataReadKeys.setWidth 32) ++ [.btnClear]
    ++ (List.range Config.nKeyBytes).flatMap (fun i => receiveByteScript ++ [take i])
    ++ [.stb true, result]

/-- GET_BUTTONS (42 R160). -/
def getButtonsScript : List Action := keyScanScript .btnOr .resultOfBtn32

/-- GET_BUTTONS64 (42 R162). -/
def getButtons64Script : List Action := keyScanScript .btnAdd .resultOfBtn64

/-! ### Meanings -/

/-- GET_BUTTONS (42 R160, R161). -/
def execGetButtons (s : State) : Host.Outcome State Fault Refusal :=
  .next (runRequest .getButtons getButtonsScript s)

/-- GET_BUTTONS64 (42 R162, R163). -/
def execGetButtons64 (s : State) : Host.Outcome State Fault Refusal :=
  .next (runRequest .getButtons64 getButtons64Script s)

end Sys2Proof.Machine
end

