-- ==== Sys2Proof/Machine/Lookup.lean ====
section
/-! DEFINITION. The test-port operations (43): FONT_LOOKUP, ROTATE_BITS and POW2. They emit no bus event. -/

namespace Sys2Proof.Machine

/-- FONT_LOOKUP (43 R186). -/
def fontLookupScript (ch : CHAR) : List Action :=
  match font ch with
  | some m => [.setResult (m.setWidth 64)]
  | none => [.raise .noGlyph ⟨posOfInt (-1), some ch⟩]

/-- ROTATE_BITS (43 R189). -/
def rotateBitsScript (value : I32) : List Action := [.setResult ((rotate (lowByte value)).setWidth 64)]

/-- POW2 (43 R190); n < 0 is refused (43 R191). -/
def pow2Script (n : I32) : List Action :=
  match pow2Value n with
  | some r => [.setResult (r.setWidth 64)]
  | none => [.refuse .domain]

/-! ### Meanings -/

/-- FONT_LOOKUP (43 R186). -/
def execFontLookup (ch : CHAR) (s : State) : Host.Outcome State Fault Refusal :=
  .next (runRequest (.fontLookup ch) (fontLookupScript ch) s)

/-- ROTATE_BITS (43 R189). -/
def execRotateBits (value : I32) (s : State) : Host.Outcome State Fault Refusal :=
  .next (runRequest (.rotateBits value) (rotateBitsScript value) s)

/-- POW2 (43 R190, R191). -/
def execPow2 (n : I32) (s : State) : Host.Outcome State Fault Refusal :=
  .next (runRequest (.pow2 n) (pow2Script n) s)

end Sys2Proof.Machine
end

