-- ==== Sys2Proof/Machine/Dispatch.lean ====
section
/-! DEFINITION. What each instruction does: one arm per constructor, one direct call of its meaning. -/

namespace Sys2Proof.Machine

def exec (i : Instr) (s : State) : Host.Outcome State Fault Refusal :=
  match i with
  -- Host operations (41, 42) and test-port operations (43)
  | .enable intensity => Sys2Proof.Machine.execEnable intensity s
  | .sendChar pos data dot => Sys2Proof.Machine.execSendChar pos data dot s
  | .setText text => Sys2Proof.Machine.execSetText text s
  | .getButtons => Sys2Proof.Machine.execGetButtons s
  | .getButtons64 => Sys2Proof.Machine.execGetButtons64 s
  | .fontLookup ch => Sys2Proof.Machine.execFontLookup ch s
  | .rotateBits value => Sys2Proof.Machine.execRotateBits value s
  | .pow2 n => Sys2Proof.Machine.execPow2 n s
  -- Micro-operations (40) and reserved codes (30 R81)
  | .sendByte value => Sys2Proof.Machine.execSendByte value s
  | .sendCommand cmd => Sys2Proof.Machine.execSendCommand cmd s
  | .sendData addr data => Sys2Proof.Machine.execSendData addr data s
  | .receiveByte => Sys2Proof.Machine.execReceiveByte s
  | .reserved opsel => Sys2Proof.Machine.execReserved opsel s
  -- Bus commands, executed by the receiver (44)
  | .cmdDataWriteAuto => Sys2Proof.Machine.execCmdDataWriteAuto s
  | .cmdDataReadKeys => Sys2Proof.Machine.execCmdDataReadKeys s
  | .cmdDataWriteFixed => Sys2Proof.Machine.execCmdDataWriteFixed s
  | .cmdDisplayCtrl bright => Sys2Proof.Machine.execCmdDisplayCtrl bright s
  | .cmdAddress addr => Sys2Proof.Machine.execCmdAddress addr s

end Sys2Proof.Machine
end

