-- ==== Sys2Proof/Machine/Fetch.lean ====
section
/-! DEFINITION. Which agent moves next and what it does: the receiver with a complete byte (44 R203), the engine with an operation
in progress (10 R28) or a pending request (60 R241), the host (10 R29 to R32); and how an instruction is placed where the
next step fetches it. -/

namespace Sys2Proof.Machine

/-- The sequence of a host operation; a micro-operation's or a bus command's code names no host operation. -/
def scriptOf : Instr → List Action
  | .enable intensity => enableScript intensity
  | .sendChar pos data dot => sendCharScript pos data dot
  | .setText text => setTextScript text
  | .getButtons => getButtonsScript
  | .getButtons64 => getButtons64Script
  | .fontLookup ch => fontLookupScript ch
  | .rotateBits value => rotateBitsScript value
  | .pow2 n => pow2Script n
  | .sendByte value => sendByteScript value
  | .sendCommand cmd => sendCommandScript cmd
  | .sendData addr data => sendDataScript addr data
  | .receiveByte => receiveByteScript
  | .reserved _ => [.refuse .reservedOp]
  | .cmdDataWriteAuto | .cmdDataReadKeys | .cmdDataWriteFixed | .cmdDisplayCtrl _ | .cmdAddress _ => []

/-- One event of the operation in progress, or its completion (10 R28, D27). -/
def eventStep (s : State) : State :=
  match s.mstep with
  | .running op k => if s.running then stepScript (scriptOf op) k s else s
  | .idle => s

/-- `n` events of the operation in progress. -/
def eventSteps : Nat → State → State
  | 0, s => s
  | n + 1, s => eventSteps n (eventStep s)

/-! ### The host's actions -/

/-- A host operation of the source or of the test port: OPSEL 0x0 to 0x7 (30 R78). -/
def isHostOperation : Instr → Bool
  | .enable _ | .sendChar _ _ _ | .setText _ | .getButtons | .getButtons64 | .fontLookup _ | .rotateBits _ | .pow2 _ => true
  | .sendByte _ | .sendCommand _ | .sendData _ _ | .receiveByte | .reserved _ | .cmdDataWriteAuto | .cmdDataReadKeys
  | .cmdDataWriteFixed | .cmdDisplayCtrl _ | .cmdAddress _ => false

/-- The host writes REQ (10 R29). -/
def writeReq (r : Request) (s : State) : State := { s with req := some r }

/-- The host writes REQ and goes on to act while the operation runs: the write starts it (10 R29, 60 R241), and MSTEP = (op, 0). A
code that is refused before any event leaves no room for that, and is only written (log 10). -/
def startRequest (r : Request) (s : State) : State :=
  if isHostOperation (decodeHreq r) then accept (decodeHreq r) (writeReq r s) else writeReq r s

/-- The host reads RESULT: a model fault while RESULT_VALID = 0 (10 R30, 60 R235). An engine that a fault has already stopped keeps that
fault (log 18). -/
def readResult (s : State) : State :=
  if s.resultValid then { s with hostData := some (.result s.result) }
  else enterFault .resultReadInvalid s

/-- The host reads STATUS (10 R31). -/
def readStatus (s : State) : State := { s with hostData := some (.status s.status) }

/-- The host reads ERR_INFO (10 R32). -/
def readErrInfo (s : State) : State := { s with hostData := some (.errInfo s.errInfo) }

/-- An observation of the display, refused where there is no reading (44 R211, 70 R263). -/
def observeDisplay (s : State) : Host.Outcome State Fault Refusal :=
  match s.displayReading with
  | .ok d => .next { s with hostData := some (.display d) }
  | .error r => .refused r

/-- The host's next action; with none, the engine waits IDLE with its pins held (60 R249, 70 R262, log 32). -/
def hostStep (s : State) : Host.Outcome State Fault Refusal :=
  match s.host with
  | [] => .next s
  | .request r :: rest => .next (writeReq r { s with host := rest })
  | .start r :: rest => .next (startRequest r { s with host := rest })
  | .wait :: rest => .next { s with host := rest }
  | .readResult :: rest => .next (readResult { s with host := rest })
  | .readStatus :: rest => .next (readStatus { s with host := rest })
  | .readErrInfo :: rest => .next (readErrInfo { s with host := rest })
  | .observeDisplay :: rest => observeDisplay { s with host := rest }

/-- A step while an operation is in progress: a read of the port is made before the next event, whatever the engine is doing (10
R30 to R32, 60 R235); a request waits until BUSY = 0 (10 R29), and the engine makes its move (log 10, log 27). -/
def runningStep (s : State) : Host.Outcome State Fault Refusal :=
  match s.host with
  | [] => .next (eventStep s)
  | .request _ :: _ | .start _ :: _ => .next (eventStep s)
  | .wait :: rest => .next (eventStep { s with host := rest })
  | .readResult :: _ | .readStatus :: _ | .readErrInfo :: _ | .observeDisplay :: _ => hostStep s

/-- BUSY = 1 and the engine does nothing more: the host can still read the port, but its next request is never accepted, and
with no read to come nothing moves (60 R235, log 18, log 31). -/
def stoppedStep (why : Fault) (s : State) : Host.Outcome State Fault Refusal :=
  match s.host with
  | [] => .fault why
  | .request _ :: _ | .start _ :: _ => .fault why
  | .wait :: _ | .readResult :: _ | .readStatus :: _ | .readErrInfo :: _ | .observeDisplay :: _ => hostStep s

/-! ### Fetch -/

/-- What the next step does: an instruction to run, or a move that is no instruction. -/
inductive Fetched where
  | instr (i : Instr)
  | move (o : Host.Outcome State Fault Refusal)
deriving Repr

/-- The receiver's complete byte: a glossed command byte is an instruction; any other byte is dispatched here (44 R204). -/
def fetchByte (s : State) : Fetched :=
  if s.chip.nbytes = 0 then
    match decodeBus8 s.chip.shift with
    | .ok c => .instr c.toInstr
    | .error _ => .move (.next { s with chip := s.chip.dispatchByte })
  else .move (.next { s with chip := s.chip.dispatchByte })

/-- Which agent moves: the receiver, if a complete byte waits in SHIFT; else the host, if it reads the port while an operation is
in progress; else the engine, if an operation is in progress or a request is pending; else the host (log 27). -/
def fetch (s : State) : Fetched :=
  if 8 ≤ s.chip.nbits then fetchByte s
  else
    match s.modelFault, s.mstep, s.busy, s.req with
    | some f, _, _, _ => .move (stoppedStep (.engineStopped f) s)
    | none, .running _ _, _, _ => .move (runningStep s)
    | none, .idle, true, _ => .move (stoppedStep .busyWithoutOperation s)
    | none, .idle, false, some r => .instr (decodeHreq r)
    | none, .idle, false, none => .move (hostStep s)

/-! ### Placing an instruction (log 12, log 13) -/

/-- The request is pending and the engine is free to accept it. -/
def placeRequest (r : Request) (s : State) : State :=
  { s with
    req := some r, mstep := .idle, busy := false, modelFault := none
    chip := { s.chip with nbits := s.chip.nbits % 8 } }

/-- The byte is complete in SHIFT, the first of an open frame of a reading that has started. -/
def placeByte (v : Byte) (s : State) : State :=
  { s with chip := { s.chip with reading := true, inFrame := true, shift := v, nbits := 8, nbytes := 0, frame := .none } }

/-- The code is where the next step fetches it. -/
def placeCode : Code → State → State
  | .hreq r, s => placeRequest r s
  | .bus8 v, s => placeByte v s

end Sys2Proof.Machine
end

