-- ==== Sys2Proof/Machine/Step.lean ====
section
/-! DEFINITION. One step of the machine: the fetched instruction is run, or the move that is no instruction is made. -/

namespace Sys2Proof.Machine

/-- One step (three outcomes: next, fault, refused). -/
def step (s : State) : Host.Outcome State Fault Refusal :=
  match fetch s with
  | .instr i => exec i s
  | .move o => o

/-- `s` with the instruction whose bits are `w`, numbered as spec/opcode_table.json numbers them, where `step` fetches its next
instruction: a host request pending in REQ, or a bus byte complete in the receiver's SHIFT (log 12, log 13). -/
def State.withFetchWord (s : State) (nbits w : Nat) : State := placeCode (codeOfTableWord nbits w) s

end Sys2Proof.Machine
end

