-- ==== Sys2Proof/Machine/Assembler.lean ====
section
/-! DEFINITION. The spec's line notation for host requests (30 R84) with its two pseudo-instructions (30 R85). The encoding of a line
is `encode` of the instruction it stands for. -/

namespace Sys2Proof.Machine

/-- Spaces before an operand are skipped. -/
def skipSpaces (t : List Char) : List Char := t.dropWhile (· == ' ')

/-- The value of a decimal or hexadecimal digit. -/
def digitValue (c : Char) : Option Nat :=
  if 48 ≤ c.toNat ∧ c.toNat ≤ 57 then some (c.toNat - 48)
  else if 97 ≤ c.toNat ∧ c.toNat ≤ 102 then some (c.toNat - 87)
  else if 65 ≤ c.toNat ∧ c.toNat ≤ 70 then some (c.toNat - 55)
  else none

/-- The digit of a base, if the character is one. -/
def digitOf (base : Nat) (c : Char) : Option Nat := (digitValue c).filter (· < base)

/-- The digits at the start of a text, and what follows them. -/
def readDigits (base acc : Nat) : List Char → Nat × List Char
  | [] => (acc, [])
  | c :: cs =>
    match digitOf base c with
    | some d => readDigits base (acc * base + d) cs
    | none => (acc, c :: cs)

/-- A number of at least one digit. -/
def readNumber (base : Nat) (t : List Char) : Option (Nat × List Char) :=
  match t with
  | [] => none
  | c :: _ => if (digitOf base c).isSome then some (readDigits base 0 t) else none

/-- A decimal or `0x` hexadecimal number. -/
def readNat : List Char → Option (Nat × List Char)
  | '0' :: 'x' :: cs => readNumber 16 cs
  | t => readNumber 10 t

/-- `imm`: a decimal or `0x` hexadecimal int32, which may be negative; a value outside int32 is refused. -/
def readImm (t : List Char) : Option (I32 × List Char) :=
  let signed : Option (Int × List Char) :=
    match skipSpaces t with
    | '-' :: cs => (readNat cs).map (fun r => (-(r.1 : Int), r.2))
    | cs => (readNat cs).map (fun r => ((r.1 : Int), r.2))
  match signed with
  | some (v, rest) => if -2147483648 ≤ v ∧ v ≤ 2147483647 then some (BitVec.ofInt 32 v, rest) else none
  | none => none

/-- The comma between operands. -/
def readComma (t : List Char) : Option (List Char) :=
  match skipSpaces t with
  | ',' :: cs => some cs
  | _ => none

/-- The characters of a string up to its closing quote; `\"` and `\\` stand for a quote and a backslash. A backslash before any
other character, of which the spec says nothing, refuses the line: DESIGN CHOICE (log 28). -/
def readChars : List Char → Option (List CHAR × List Char)
  | [] => none
  | '"' :: cs => some ([], cs)
  | '\\' :: '"' :: cs => (readChars cs).map (fun r => ('"'.toNat :: r.1, r.2))
  | '\\' :: '\\' :: cs => (readChars cs).map (fun r => ('\\'.toNat :: r.1, r.2))
  | '\\' :: _ => none
  | c :: cs => (readChars cs).map (fun r => (c.toNat :: r.1, r.2))

/-- A string between double quotes. -/
def readText (t : List Char) : Option (List CHAR × List Char) :=
  match skipSpaces t with
  | '"' :: cs => readChars cs
  | _ => none

/-- `'c'`: one CHAR. -/
def readChar (t : List Char) : Option (CHAR × List Char) :=
  match skipSpaces t with
  | '\'' :: c :: '\'' :: cs => some (c.toNat, cs)
  | _ => none

/-- The line is over: nothing but a comment follows. -/
def atEnd (t : List Char) : Bool :=
  match skipSpaces t with
  | [] => true
  | c :: _ => c == ';'

/-- The instruction, if the line is over after it. -/
def lineOf (i : Instr) (rest : List Char) : Option Instr := if atEnd rest then some i else none

/-- A line with one imm operand. -/
def line1 (f : I32 → Instr) (t : List Char) : Option Instr := do
  let (a, t) ← readImm t
  lineOf (f a) t

/-- A line with two imm operands. -/
def line2 (f : I32 → I32 → Instr) (t : List Char) : Option Instr := do
  let (a, t) ← readImm t
  let t ← readComma t
  let (b, t) ← readImm t
  lineOf (f a b) t

/-- SEND_CHAR's line: the third operand is 0 or 1, and 0 when it is left out (30 R84, R85). -/
def sendCharLine (t : List Char) : Option Instr := do
  let (pos, t) ← readImm t
  let t ← readComma t
  let (data, t) ← readImm t
  if atEnd t then return .sendChar pos data false
  let t ← readComma t
  let (dot, t) ← readImm t
  if dot = 0 then lineOf (.sendChar pos data false) t
  else if dot = 1 then lineOf (.sendChar pos data true) t
  else none

/-- A mnemonic's characters. -/
def isWordChar (c : Char) : Bool := c.isAlphanum || c == '_'

/-- The instruction a line of spec 30 R84 stands for; none where the assembler refuses the line. `ENABLE` alone is `ENABLE 7`
(30 R85, 41 R132). -/
def asmLine (text : String) : Option Instr :=
  let t := skipSpaces text.toList
  let rest := t.dropWhile isWordChar
  let name := String.ofList (t.takeWhile isWordChar)
  if name = "ENABLE" then (if atEnd rest then some (.enable 7) else line1 .enable rest)
  else if name = "SEND_CHAR" then sendCharLine rest
  else if name = "SET_TEXT" then (do let (s, rest) ← readText rest; lineOf (.setText s) rest)
  else if name = "GET_BUTTONS" then lineOf .getButtons rest
  else if name = "GET_BUTTONS64" then lineOf .getButtons64 rest
  else if name = "FONT_LOOKUP" then (do let (c, rest) ← readChar rest; lineOf (.fontLookup c) rest)
  else if name = "ROTATE_BITS" then line1 .rotateBits rest
  else if name = "POW2" then line1 .pow2 rest
  else if name = "SEND_BYTE" then line1 .sendByte rest
  else if name = "SEND_COMMAND" then line1 .sendCommand rest
  else if name = "SEND_DATA" then line2 .sendData rest
  else if name = "RECEIVE_BYTE" then lineOf .receiveByte rest
  else none

end Sys2Proof.Machine
end

