-- ==== Sys2Proof/Safety.lean ====
section
/-! DEFINITION. The terms claims are stated in: bus events of bytes and frames, the conditions under which a request is accepted,
idle buses, safe and ended runs, and the invariant of the machine. -/

namespace Sys2Proof.Machine

/-! ### What the bus carries (30 R70, R71) -/

/-- The 24 events of one byte sent, least significant bit first (40 R106). -/
def byteEvents (v : Byte) : List BusEvent :=
  (List.range 8).flatMap (fun i => [.clk false, .dio (v.getLsbD i), .clk true])

/-- A frame `[b0, b1, ...]` (95 notation): STB low, the bytes, STB high. -/
def frameEvents (bs : List Byte) : List BusEvent := [.stb false] ++ bs.flatMap byteEvents ++ [.stb true]

/-- The two frames of SEND_DATA: `[0x44]` and `[address, data]` (40 R108). -/
def dataFrames (address data : Byte) : List BusEvent := frameEvents [0x44] ++ frameEvents [address, data]

/-- The events of the bit loop RX_CORE when the levels sampled are `lv 0`, `lv 1`, ... (40 R109). -/
def rxCoreEvents (lv : Nat → Bool) : List BusEvent :=
  (List.range 8).flatMap (fun j => [.clk false, .sample (lv j), .clk true])

/-- The 26 events of one byte received, `<b>` (40 R110). -/
def receiveEvents (b : Byte) : List BusEvent := [.dirIn] ++ rxCoreEvents b.getLsbD ++ [.dirOut]

/-- The frame of a key scan, `[0x42, <b0>, <b1>, <b2>, <b3>]` (42 R160). -/
def scanEvents (b0 b1 b2 b3 : Byte) : List BusEvent :=
  [.stb false] ++ byteEvents 0x42 ++ receiveEvents b0 ++ receiveEvents b1 ++ receiveEvents b2 ++ receiveEvents b3 ++ [.stb true]

/-- The three frames of ENABLE after its idle-bus events, for brightness I (41 R130). -/
def enableEvents (i : BitVec 3) : List BusEvent :=
  [.stb true, .clk true] ++ frameEvents [0x40] ++ frameEvents [0x88 ||| i.setWidth 8]
    ++ frameEvents (0xC0 :: List.replicate 16 0)

/-- The 16 frames of a successful SET_TEXT: the dot frame, then the seven planes (41 R140, R145). -/
def textEvents (dm : Byte) (planes : Nat → Byte) : List BusEvent :=
  dataFrames 0xCE dm ++ (List.range 7).flatMap (fun i => dataFrames (0xC0 ||| BitVec.ofNat 8 (2 * i)) (planes i))

/-! ### What sending events leaves -/

/-- MSTEP after n more events (10 R28). -/
def MStep.add : MStep → Nat → MStep
  | .idle, _ => .idle
  | .running op k, n => .running op (k + n)

/-- The events are appended to BUS, and MSTEP counts them (10 R28, R34). -/
def State.pushEvents (s : State) (es : List BusEvent) : State :=
  { s with trace := es.reverse ++ s.trace, mstep := s.mstep.add es.length }

/-- What a state becomes when events are sent that leave STB at `stb`, CLK at 1, DIO_OUT at `d` and the receiver at `c` (40 R113):
nothing else changes. -/
def State.sent (s : State) (stb d : Bool) (c : Receiver) (es : List BusEvent) : State :=
  { s with
    stb := stb, clk := true, dioOut := some d, chip := c
    trace := es.reverse ++ s.trace, mstep := s.mstep.add es.length }

/-- What the receiver makes of a frame of the bytes `bs` sent from an idle strobe: STB falls, each byte stands complete in SHIFT and
is dispatched, STB rises (44 R202, R203). -/
def Receiver.framed (c : Receiver) (bs : List Byte) : Receiver :=
  chipStb false true (bs.foldl (fun c v => ({ c with shift := v } : Receiver).takeByte v) (chipStb true false c))

/-! ### Conditions on the state -/

/-- The engine is IDLE and accepts a request (60 R241). -/
abbrev State.ready (s : State) : Prop := s.mstep = .idle ∧ s.busy = false ∧ s.modelFault = none

/-- The host's next action is done at this step: no byte waits in the receiver, the engine has not faulted, and it is either in the
middle of an operation or IDLE with no request pending (log 27). -/
abbrev State.hostTurn (s : State) : Prop :=
  s.chip.nbits < 8 ∧ s.modelFault = none ∧ (s.mstep ≠ .idle ∨ s.busy = false ∧ s.req = none)

/-- The data pin is an output, as it is whenever no byte is being received (10 R24). -/
abbrev State.driving (s : State) : Prop := s.dioMode = .output

/-- The idle bus: STB = 1, CLK = 1, DIO_MODE = OUTPUT (10 R38). -/
abbrev State.busIdle (s : State) : Prop := s.stb = true ∧ s.clk = true ∧ s.driving

/-- The reading has started and no frame is open. -/
abbrev Receiver.betweenFrames (c : Receiver) : Prop := c.reading = true ∧ c.inFrame = false

/-- A run that can end in this state (D28, 70 R273): the engine is IDLE, no request is pending and the host issues none; and nothing
in it faulted or was refused (60 R235, R236). The spec speaks of further requests only. That a read or a wait still to come keeps
the run open too is the model's: DESIGN CHOICE (log 35). -/
abbrev State.ended (s : State) : Prop :=
  s.ready ∧ s.req = none ∧ s.host = [] ∧ s.refusalMark = false

/-- A code a host may not issue: OPSEL 0x8 to 0xF (30 R81, R82). -/
def isRefusedCode : Instr → Bool
  | .sendByte _ | .sendCommand _ | .sendData _ _ | .receiveByte | .reserved _ => true
  | .enable _ | .sendChar _ _ _ | .setText _ | .getButtons | .getButtons64 | .fontLookup _ | .rotateBits _ | .pow2 _
  | .cmdDataWriteAuto | .cmdDataReadKeys | .cmdDataWriteFixed | .cmdDisplayCtrl _ | .cmdAddress _ => false

/-! ### What the trace says of the pins -/

/-- The level of the newest STB event of a trace held newest first. -/
def lastStb : List BusEvent → Option Bool
  | [] => none
  | .stb b :: _ => some b
  | .clk _ :: es | .dio _ :: es | .dirIn :: es | .dirOut :: es | .sample _ :: es => lastStb es

/-- The level of the newest CLK event. -/
def lastClk : List BusEvent → Option Bool
  | [] => none
  | .clk b :: _ => some b
  | .stb _ :: es | .dio _ :: es | .dirIn :: es | .dirOut :: es | .sample _ :: es => lastClk es

/-- What the newest event on the data pin's direction or level leaves of DIO_OUT (40 R102 to R104): `DIO(b)` leaves b, `DIR_IN`
leaves `⊥`, `DIR_OUT` leaves some level, and before any of them the pin is an output. -/
def dioAgrees : List BusEvent → Option Bool → Bool
  | [], d => d.isSome
  | .dio b :: _, d => d == some b
  | .dirIn :: _, d => d.isNone
  | .dirOut :: _, d => d.isSome
  | .stb _ :: es, d | .clk _ :: es, d | .sample _ :: es, d => dioAgrees es d

/-! ### The invariant -/

/-- What every step keeps, from any state that meets it. -/
structure State.Inv (s : State) : Prop where
  /-- The display memory is in its canonical form, within the 16 addresses of 20 R51. -/
  ramCanonical : s.chip.ram.wf
  /-- NBITS is 0..7, or 8 while a complete byte waits (44 R201). -/
  bitCount : s.chip.nbits ≤ 8
  /-- KI and KJ stay in range (44 R201, log 5). -/
  keyPosition : s.chip.ki ≤ 4 ∧ s.chip.kj ≤ 7
  /-- RX_ACC holds values in 0..0xFF only (10 R25). -/
  rxByte : s.rxAcc.toNat ≤ 0xFF
  /-- While an operation is in progress BUSY = 1 (10 R31). -/
  runningBusy : s.mstep ≠ .idle → s.busy = true
  /-- After a model fault BUSY = 1 and ERR = MODEL_FAULT (60 R235). -/
  faultStops : s.modelFault ≠ none → s.busy = true ∧ s.err = .modelFault
  /-- TB, DM and PACC hold nothing but in a `setText` that no fault has ended (00 R12, 10 R27, log 34). -/
  textDropped : s.mstep.inSetText = false ∨ s.modelFault ≠ none → s.tb = [] ∧ s.dm = 0 ∧ s.pacc = 0
  /-- STB is the level of the newest STB event of BUS (40 R101). -/
  stbLatch : ∀ b, lastStb s.trace = some b → s.stb = b
  /-- CLK is the level of the newest CLK event of BUS (40 R101). -/
  clkLatch : ∀ b, lastClk s.trace = some b → s.clk = b
  /-- DIO_OUT, and with it DIO_MODE, is what the newest event on the data pin left (40 R102 to R104). -/
  dioLatch : dioAgrees s.trace s.dioOut = true

/-- What never goes back, between a state and a later one: BUS only grows (10 R34), ENABLED is never cleared (10 R33), the fault
bit and the refusal mark are kept (60 R235, R236), and the reading, once started, goes on and never forgets an UNKNOWN (44
R201, R215). -/
structure StickyOrder (s t : State) : Prop where
  busGrows : s.bus <+: t.bus
  enabledKept : s.enabled = true → t.enabled = true
  faultKept : ∀ f, s.modelFault = some f → t.modelFault = some f
  refusalKept : s.refusalMark = true → t.refusalMark = true
  readingKept : s.chip.reading = true → t.chip.reading = true
  unknownKept : s.chip.reading = true → s.chip.unknown = true → t.chip.unknown = true

end Sys2Proof.Machine
end

