-- ==== Sys2Proof/Certificates/Slice0/Obligations.lean ====
section
/-! DEFINITION. The statements for the provers, each from the rules of spec/ its docstring cites. Free values (draws) stand in them as
the opaque constants of Config, so each holds for every draw. -/

open Sys2Proof Sys2Proof.Machine

/-! ### Encoding -/

/-- 30 R72 to R78: decoding the code of a well-formed instruction gives the instruction back, with every operand at every value. -/
def Obligations.DecodeEncodeRoundTrip : Prop :=
  ∀ i : Instr, i.wf = true → decode (encode i) = .ok i

/-- 30 R78, R81: what the decoder gives is well formed, whatever the word or byte. -/
def Obligations.DecodedInstructionsWellFormed : Prop :=
  ∀ (c : Code) (i : Instr), decode c = .ok i → i.wf = true

/-- 30 R72 to R76, 44 R204: a bus byte decodes to a command exactly when it is that command's code, and the bytes rejected are the
unglossed ones: those that are neither 0x40, 0x42, 0x44, nor in 0x88 to 0x8F, nor at least 0xC0. -/
def Obligations.BusByteDecodingExact : Prop :=
  ∀ v : Byte,
    (∀ cmd, decodeBus8 v = .ok cmd ↔ encode cmd.toInstr = .bus8 v)
    ∧ (decodeBus8 v = .error (.unglossedByte v)
        ↔ v ≠ 0x40 ∧ v ≠ 0x42 ∧ v ≠ 0x44 ∧ ¬ (0x88 ≤ v.toNat ∧ v.toNat ≤ 0x8F) ∧ v.toNat < 0xC0)

/-- 30 R77: the fields of the packed control word, and that an operation ignores the operands it does not use: SEND_CHAR depends on
A, B and F alone, and so ignores the ports C and TXT. -/
def Obligations.ControlWordFields : Prop :=
  (∀ (o : BitVec 4) (a b : I32) (f : Bool) (c : CHAR) (t : List CHAR),
    (Request.mk (packWord o a b f) c t).opsel = o ∧ (Request.mk (packWord o a b f) c t).a = a
      ∧ (Request.mk (packWord o a b f) c t).b = b ∧ (Request.mk (packWord o a b f) c t).f = f)
  ∧ ∀ r r' : Request, r.opsel = r'.opsel →
      (r.opsel.toNat = 3 ∨ r.opsel.toNat = 4 ∨ r.opsel.toNat = 11 ∨ 12 ≤ r.opsel.toNat → decodeHreq r = decodeHreq r')
      ∧ (r.opsel.toNat = 1 → r.a = r'.a → r.b = r'.b → r.f = r'.f → decodeHreq r = decodeHreq r')
      ∧ (r.opsel.toNat = 2 → r.txt = r'.txt → decodeHreq r = decodeHreq r')
      ∧ (r.opsel.toNat = 5 → r.c = r'.c → decodeHreq r = decodeHreq r')
      ∧ (r.opsel.toNat ∈ [0, 6, 7, 8, 9] → r.a = r'.a → decodeHreq r = decodeHreq r')
      ∧ (r.opsel.toNat = 10 → r.a = r'.a → r.b = r'.b → decodeHreq r = decodeHreq r')

/-- 30 R86: the encoding examples of HREQ control words. -/
def Obligations.ControlWordExamples : Prop :=
  encode (.enable 7) = .hreq ⟨0x70, 0, []⟩
  ∧ encode (.enable 9) = .hreq ⟨0x90, 0, []⟩
  ∧ encode (.sendChar 0 0x3F true) = .hreq ⟨0x10000003F000000001, 0, []⟩
  ∧ encode (.setText ['8'.toNat]) = .hreq ⟨0x2, 0, ['8'.toNat]⟩
  ∧ encode .getButtons = .hreq ⟨0x3, 0, []⟩
  ∧ encode .getButtons64 = .hreq ⟨0x4, 0, []⟩
  ∧ encode (.pow2 31) = .hreq ⟨0x1F7, 0, []⟩
  ∧ encode (.enable (-1)) = .hreq ⟨0xFFFFFFFF0, 0, []⟩

/-- 30 R77, R78 and 44 R204: words written out from the encodings decode to the instructions they stand for (95 V30-1), one at
least of each family: display, key scan, lookup, micro-operation, reserved, bus command. -/
def Obligations.WrittenWordsDecode : Prop :=
  decodeHreq ⟨0x80000000071, 0, []⟩ = .sendChar 7 0x80 false
  ∧ decodeHreq ⟨0x3FFFFFFFFF1, 0, []⟩ = .sendChar (-1) 0x3F false
  ∧ decodeHreq ⟨0x4, 0, []⟩ = .getButtons64
  ∧ decodeHreq ⟨0x5, '8'.toNat, []⟩ = .fontLookup '8'.toNat
  ∧ decodeHreq ⟨0xA56, 0, []⟩ = .rotateBits 0xA5
  ∧ decodeHreq ⟨0x428, 0, []⟩ = .sendByte 0x42
  ∧ decodeHreq ⟨0xC, 0, []⟩ = .reserved 0xC
  ∧ decode (.bus8 0x40) = .ok .cmdDataWriteAuto
  ∧ decode (.bus8 0x8B) = .ok (.cmdDisplayCtrl 3)
  ∧ decode (.bus8 0xCE) = .ok (.cmdAddress 14)
  ∧ decode (.bus8 0x80) = .error (.unglossedByte 0x80)

/-- 30 R84, R85; 41 R132: the lines of the spec's notation, the pseudo-instructions among them. -/
def Obligations.AssemblerLines : Prop :=
  asmLine "ENABLE" = some (.enable 7)
  ∧ asmLine "ENABLE" = asmLine "ENABLE 7"
  ∧ asmLine "SEND_CHAR 8, 6" = asmLine "SEND_CHAR 8, 6, 0"
  ∧ asmLine "SEND_CHAR 0, 0x3F, 1" = some (.sendChar 0 0x3F true)
  ∧ asmLine "SET_TEXT \"8.0\" ; text" = some (.setText ['8'.toNat, '.'.toNat, '0'.toNat])
  ∧ asmLine "POW2 -1" = some (.pow2 (-1))
  ∧ asmLine "POW2 2147483648" = none

/-! ### Steps -/

/-- 60 R241, 44 R203, R204: when a request is pending and the engine is free, or a complete glossed command byte waits in the
receiver, the step is exec of the decoded instruction; and an instruction placed by withFetchWord is the one the very next step
runs. The step adds nothing around exec. Where a request or a byte waits, and how one is placed, is the model's choice (log 12, 13,
14). -/
def Obligations.StepRunsDecodedInstruction : Prop :=
  (∀ (s : State) (r : Request), s.chip.nbits < 8 → s.ready → s.req = some r → step s = exec (decodeHreq r) s)
  ∧ (∀ (s : State) (cmd : BusCommand), 8 ≤ s.chip.nbits → s.chip.nbytes = 0 → decodeBus8 s.chip.shift = .ok cmd →
      step s = exec cmd.toInstr s)
  ∧ ∀ (s : State) (nbits w : Nat) (i : Instr), decodeTableWord nbits w = some i →
      step (s.withFetchWord nbits w) = exec i (s.withFetchWord nbits w)

/-- 10 R28, R29, 60 R241, R249, 70 R262: the steps that run no fetched instruction: one event of an operation in progress, unless the
host reads the port; waiting IDLE with the pins held; and the host's write of REQ, which starts the operation where the host acts
while it runs. That these are the steps is the model's choice (log 10, 11, 27, 32). -/
def Obligations.StepsBetweenInstructions : Prop :=
  ∀ s : State, s.chip.nbits < 8 → s.modelFault = none →
    (s.mstep ≠ .idle → (s.host = [] ∨ ∃ r rest, s.host = .request r :: rest ∨ s.host = .start r :: rest) →
      step s = .next (eventStep s))
    ∧ (∀ rest, s.mstep ≠ .idle → s.host = .wait :: rest → step s = .next (eventStep { s with host := rest }))
    ∧ (s.ready → s.req = none → s.host = [] → step s = .next s)
    ∧ (∀ rest, s.ready → s.req = none → s.host = .wait :: rest → step s = .next { s with host := rest })
    ∧ (∀ r rest, s.ready → s.req = none → s.host = .request r :: rest → step s = .next { s with req := some r, host := rest })
    ∧ ∀ r rest, s.ready → s.req = none → s.host = .start r :: rest →
        (isHostOperation (decodeHreq r) = true → step s = .next (accept (decodeHreq r) { s with req := some r, host := rest }))
        ∧ (isHostOperation (decodeHreq r) = false → step s = .next { s with req := some r, host := rest })

/-- 60 R235: after a model fault no step emits an event or moves a pin, BUSY stays 1, ERR stays MODEL_FAULT, the fault stays the same,
and no request is ever accepted: with a request next, or no host action left, the step stops. That the step then faults is the
model's choice (log 18). -/
def Obligations.StoppedEngineStaysStopped : Prop :=
  ∀ (s : State) (f : ModelFault), s.modelFault = some f → s.busy = true → s.err = .modelFault → s.chip.nbits < 8 →
    (∀ t, step s = .next t → t.bus = s.bus ∧ t.stb = s.stb ∧ t.clk = s.clk ∧ t.dioOut = s.dioOut ∧ t.busy = true
      ∧ t.err = .modelFault ∧ t.modelFault = some f ∧ t.req = s.req ∧ t.mstep = s.mstep)
    ∧ (s.host = [] → step s = .fault (.engineStopped f))
    ∧ (∀ r rest, s.host = .request r :: rest ∨ s.host = .start r :: rest → step s = .fault (.engineStopped f))

/-- 20 R63, 60 R241: a host operation's request while BUSY = 1 is not accepted. That nothing changes then is the model's choice
(log 15). -/
def Obligations.RequestWhileBusyNotAccepted : Prop :=
  ∀ (i : Instr) (s : State), isHostOperation i = true → s.busy = true → exec i s = .next s

/-! ### Reset -/

/-- 70 R261 (with 10 R31): what reset leaves, for the values the spec gives. The levels of STB, CLK and DIO_OUT are draws, so the
statement says only that DIO_OUT is some level, DIO_MODE being OUTPUT. -/
def Obligations.ResetValues : Prop :=
  State.reset.dioMode = .output ∧ State.reset.mstep = .idle ∧ State.reset.req = none ∧ State.reset.busy = false
  ∧ State.reset.err = .none ∧ State.reset.enabled = false ∧ State.reset.resultValid = false ∧ State.reset.status = 0
  ∧ State.reset.bus = [] ∧ State.reset.modelFault = none ∧ State.reset.refusalMark = false ∧ step State.reset = .next State.reset

/-! ### STATUS, and the host's reads -/

/-- 10 R31, R32, 60 R231: the fields of STATUS, the ERR codes, and the host's reads of STATUS and ERR_INFO: each gives the register
and changes nothing else, while the engine is IDLE and in the middle of an operation. That a read is a step of its own, which
leaves its value in a field of the state, is the model's choice (log 10, 11). -/
def Obligations.StatusLayout : Prop :=
  (∀ s : State, s.status.getLsbD 0 = s.busy ∧ s.status.extractLsb' 1 3 = s.err.code ∧ s.status.getLsbD 4 = s.enabled
    ∧ s.status.getLsbD 5 = s.dioMode.code ∧ s.status.getLsbD 6 = s.resultValid ∧ s.status.getLsbD 7 = false)
  ∧ ErrCode.none.code = 0 ∧ ErrCode.dotPosition.code = 1 ∧ ErrCode.noGlyph.code = 2 ∧ ErrCode.reservedOp.code = 3
  ∧ ErrCode.domain.code = 4 ∧ ErrCode.modelFault.code = 5
  ∧ (∀ e : ErrCode, e.code ≠ 6 ∧ e.code ≠ 7)
  ∧ ∀ (s : State) (rest : List HostAction), s.hostTurn →
      (s.host = .readStatus :: rest → step s = .next { s with host := rest, hostData := some (.status s.status) })
      ∧ (s.host = .readErrInfo :: rest → step s = .next { s with host := rest, hostData := some (.errInfo s.errInfo) })

/-- 10 R30, 60 R235: the host's read of RESULT gives RESULT while RESULT_VALID = 1, and is the model fault RESULT_READ_INVALID while
RESULT_VALID = 0: BUSY = 1, ERR = MODEL_FAULT, the fault bit set, even while the engine is IDLE, and in the middle of an operation,
which then stops where it is: MSTEP (10 R28), REQ and the pins stay. TB, DM and PACC do not survive a SET_TEXT the fault ends (00 R12,
10 R27); that they are then empty is the model's choice (log 18, 34). -/
def Obligations.ResultRead : Prop :=
  ∀ (s : State) (rest : List HostAction), s.hostTurn → s.host = .readResult :: rest →
    (s.resultValid = true → step s = .next { s with host := rest, hostData := some (.result s.result) })
    ∧ (s.resultValid = false →
        step s = .next { s with
          host := rest, busy := true, err := .modelFault, modelFault := some .resultReadInvalid
          tb := if s.mstep.inSetText then [] else s.tb
          dm := if s.mstep.inSetText then 0 else s.dm
          pacc := if s.mstep.inSetText then 0 else s.pacc })

/-- 44 R211, R215; 60 R236; 70 R263: the display is read through the receiver only after a completed ENABLE and while UNKNOWN = 0;
otherwise the observation is refused. The model's part: that a refused observation ends the run, before an ENABLE too, which 60 R236
does not list, is DEDUCED (log 30); that an observation is a host action whose answer a field of the state keeps, and the value shown
for a byte nothing has written, a free value, are its choices (log 11, 6). -/
def Obligations.DisplayObservation : Prop :=
  ∀ (s : State) (rest : List HostAction), s.hostTurn → s.host = .observeDisplay :: rest →
    (s.enabled = false → step s = .refused .displayBeforeEnable)
    ∧ (s.enabled = true → s.chip.unknown = true → step s = .refused .displayUnknown)
    ∧ (s.enabled = true → s.chip.unknown = false →
        step s = .next { s with
          host := rest
          hostData := some (.display ⟨(List.range 16).map s.chip.ram.shown, s.chip.dispOn, s.chip.bright⟩) })

/-! ### Bus events -/

/-- 40 R100 to R105, R109: what each of the six events does, from any state that meets its precondition: the pin it drives, BUS and
MSTEP, and of the rest only the receiver, which sees the edges of STB and CLK and answers SAMPLE. The write of RX_ACC by what was
sampled falls in the step of the SAMPLE, the model's choice (log 20). -/
def Obligations.EventEffects : Prop :=
  ∀ (s : State) (b : Bool),
    emitStb b s = ({ s with stb := b, chip := chipStb s.stb b s.chip } : State).pushEvents [.stb b]
    ∧ emitClk b s = ({ s with clk := b, chip := chipClk s.clk b s.dioOut s.chip } : State).pushEvents [.clk b]
    ∧ (s.driving → emitDio b s = ({ s with dioOut := some b } : State).pushEvents [.dio b])
    ∧ emitDirIn s = ({ s with dioOut := none } : State).pushEvents [.dirIn]
    ∧ emitDirOut s = ({ s with
        dioOut := some (Config.dioRestoreLevel s.restores), restores := s.restores + 1 } : State).pushEvents [.dirOut]
    ∧ (s.dioMode = .input → emitSample s = ({ s with
        rxAcc := if s.chip.sampleLevel then s.rxAcc ||| 0x80 else s.rxAcc
        chip := s.chip.afterSample } : State).pushEvents [.sample s.chip.sampleLevel])

/-- 40 R102, R105; 60 R235: a write of DIO while it is an input, and a sample while it is an output, are the model faults of their
names: no event is emitted, and the engine stops where it is, with MSTEP, REQ and the pins as they were. TB, DM and PACC do not survive
a SET_TEXT the fault ends (00 R12, 10 R27); that they are then empty is the model's choice (log 18, 34). -/
def Obligations.WrongDirectionFaults : Prop :=
  ∀ (s : State) (b : Bool), s.modelFault = none →
    (s.dioMode = .input →
      emitDio b s = { dropText s with busy := true, err := .modelFault, modelFault := some .dioWriteInInputMode })
    ∧ (s.dioMode = .output →
      emitSample s = { dropText s with busy := true, err := .modelFault, modelFault := some .sampleInOutputMode })
    ∧ dropText s = { s with
        tb := if s.mstep.inSetText then [] else s.tb
        dm := if s.mstep.inSetText then 0 else s.dm
        pacc := if s.mstep.inSetText then 0 else s.pacc }

/-! ### Micro-operations -/

/-- 40 R106, R113; 44 R203: SEND_BYTE inside the sequencer completes: STB is untouched, CLK = 1, DIO_OUT = value[7], the 24 events
of value[7:0]; nothing else of the engine changes. A receiver in an open frame at a byte boundary takes the byte; one with no
frame open, or whose reading has not started, sees nothing. -/
def Obligations.SendByteCompletes : Prop :=
  ∀ (v : I32) (s : State), s.running = true → s.driving →
    ∃ c, exec (.sendByte v) s = .next (s.sent s.stb (v.getLsbD 7) c (byteEvents (v.setWidth 8)))
      ∧ (s.chip.reading = false ∨ s.chip.inFrame = false → c = s.chip)
      ∧ (s.chip.reading = true → s.chip.inFrame = true → s.chip.nbits = 0 →
          c = ({ s.chip with shift := v.setWidth 8 } : Receiver).takeByte (v.setWidth 8))

/-- 40 R107, R113; 44 R202 to R204: SEND_COMMAND inside the sequencer completes: the frame of cmd[7:0], STB = 1, CLK = 1, DIO_OUT =
cmd[7]. From an idle strobe with no frame open the receiver takes the frame of that one byte, and no display byte changes; a receiver
whose reading has not started sees nothing. -/
def Obligations.SendCommandCompletes : Prop :=
  ∀ (cmd : I32) (s : State), s.running = true → s.driving →
    ∃ c, exec (.sendCommand cmd) s = .next (s.sent true (cmd.getLsbD 7) c (frameEvents [cmd.setWidth 8]))
      ∧ (s.chip.reading = false → c = s.chip)
      ∧ (s.stb = true → s.chip.betweenFrames →
          c = s.chip.framed [cmd.setWidth 8] ∧ c.betweenFrames ∧ ∀ x, c.ram.read x = s.chip.ram.read x)

/-- 40 R108, R113: SEND_DATA inside the sequencer completes: the frames `[0x44]` and `[0xC0 | addr[5:0], data[7:0]]`, whatever addr
is; STB = 1, CLK = 1, DIO_OUT = data[7]. From an idle strobe with no frame open (44 R206, R209, R211) the receiver takes those two
frames: WMODE = FIXED, the byte at addr[5:0] is data[7:0] where that is in 0..15, every other byte reads as before, and above 15
every byte reads as before and UNKNOWN = 1. -/
def Obligations.SendDataCompletes : Prop :=
  ∀ (addr data : I32) (s : State), s.running = true → s.driving →
    ∃ c, exec (.sendData addr data) s
        = .next (s.sent true (data.getLsbD 7) c (dataFrames (0xC0 ||| (addr.setWidth 6).setWidth 8) (data.setWidth 8)))
      ∧ (s.chip.reading = false → c = s.chip)
      ∧ (s.stb = true → s.chip.betweenFrames →
          c = (s.chip.framed [0x44]).framed [0xC0 ||| (addr.setWidth 6).setWidth 8, data.setWidth 8]
          ∧ c.betweenFrames ∧ c.wmode = .fixed ∧ c.dispOn = s.chip.dispOn ∧ c.bright = s.chip.bright
          ∧ ((addr.setWidth 6).toNat < 16 →
              c.ram.read (addr.setWidth 6).toNat = some (data.setWidth 8)
              ∧ (∀ x, x ≠ (addr.setWidth 6).toNat → c.ram.read x = s.chip.ram.read x)
              ∧ c.aptr = some ((addr.setWidth 6).setWidth 4) ∧ c.unknown = s.chip.unknown)
          ∧ (16 ≤ (addr.setWidth 6).toNat →
              (∀ x, c.ram.read x = s.chip.ram.read x) ∧ c.aptr = s.chip.aptr ∧ c.unknown = true))

/-- 40 R110, R113; 44 R207: RECEIVE_BYTE inside the sequencer completes, whatever the data pin's direction: the 26 events of the byte
received, which is left in RX_ACC; STB is untouched, CLK = 1, DIO_OUT is a draw. While the chip presents KEYS from the start of
a byte it is KEYS[KI], else the next eight levels of the line (the supply of levels is the model's choice, log 3 and 5). -/
def Obligations.ReceiveByteCompletes : Prop :=
  ∀ s : State, s.running = true →
    ∃ (b : Byte) (c : Receiver),
      exec .receiveByte s
        = .next (({ s with
            rxAcc := b.setWidth 32, clk := true, dioOut := some (Config.dioRestoreLevel s.restores)
            restores := s.restores + 1, chip := c } : State).pushEvents (receiveEvents b))
      ∧ (s.chip.presenting = true → s.chip.kj = 0 →
          b = s.chip.keys.byte s.chip.ki ∧ c = { s.chip with ki := s.chip.ki + 1 })
      ∧ (s.chip.presenting = false → b = s.chip.lineByte 0 ∧ c = s.chip.dropLine 8)

/-- 40 R111 (with R109): the receive bit-order law: RX_CORE's result is the sum of s_j 2^j, the bit sampled first being bit 0. -/
def Obligations.ReceiveBitOrder : Prop :=
  ∀ s : State, s.running = true → s.dioMode = .input →
    ∃ lv : Nat → Bool,
      (run rxCoreScript s).bus = s.bus ++ rxCoreEvents lv
      ∧ (run rxCoreScript s).rxAcc.toNat = ∑ j ∈ Finset.range 8, (if lv j then 2 ^ j else 0)

/-- 40 R112: the event counts of the micro-operations, for all operands: how many events each appends to BUS while the sequencer runs
with the data pin in the direction it needs. -/
def Obligations.EventCounts : Prop :=
  (∀ (v : I32) (s : State), s.running = true → s.driving → (run (sendByteScript v) s).bus.length = s.bus.length + 24)
  ∧ (∀ (cmd : I32) (s : State), s.running = true → s.driving → (run (sendCommandScript cmd) s).bus.length = s.bus.length + 26)
  ∧ (∀ (addr data : I32) (s : State), s.running = true → s.driving →
      (run (sendDataScript addr data) s).bus.length = s.bus.length + 76)
  ∧ (∀ s : State, s.running = true → s.dioMode = .input → (run rxCoreScript s).bus.length = s.bus.length + 24)
  ∧ ∀ s : State, s.running = true → (run receiveByteScript s).bus.length = s.bus.length + 26

/-- 30 R81, R82; 60 R236, R241: a host request with OPSEL 0x8 to 0xF is refused: no event, ERR = RESERVED_OP, RESULT unchanged,
RESULT_VALID and BUSY cleared, the refusal mark set. For RESERVED this is the instruction's own effect. -/
def Obligations.RefusedCodes : Prop :=
  ∀ (i : Instr) (s : State), isRefusedCode i = true → s.ready →
    exec i s = .next { s with err := .reservedOp, resultValid := false, req := none, refusalMark := true }

/-! ### Display operations -/

/-- 41 R131 (with 30 R79): the intensity clamp and the display-control byte, for every int32 intensity. -/
def Obligations.IntensityClamp : Prop :=
  ∀ a : I32,
    ((clampIntensity a).toNat : Int) = min (max a.toInt 0) 7
    ∧ (a.toInt < 0 → displayCtrlByte (clampIntensity a) = 0x88)
    ∧ (0 ≤ a.toInt → a.toInt ≤ 7 → ((displayCtrlByte (clampIntensity a)).toNat : Int) = 0x88 + a.toInt)
    ∧ (7 < a.toInt → displayCtrlByte (clampIntensity a) = 0x8F)

/-- 41 R130, 44 R215: ENABLE completes from every IDLE state whose data pin is an output, whatever the pins' levels: its 464 events,
STB = 1, CLK = 1, DIO_OUT = 0, ENABLED = 1, RESULT_VALID = 0, ERR = NONE; no other register changes. After it the reading is
determined: RAM all 0x00, WMODE = AUTO, APTR = 0, DISP_ON = 1, BRIGHT the clamped intensity, and UNKNOWN = 0 if the reading
started with it. -/
def Obligations.EnableCompletes : Prop :=
  ∀ (a : I32) (s : State), s.ready → s.driving →
    ∃ c : Receiver,
      exec (.enable a) s
        = .next { s with
            stb := true, clk := true, dioOut := some false, enabled := true, resultValid := false, err := .none, req := none
            trace := (enableEvents (clampIntensity a)).reverse ++ s.trace, chip := c }
      ∧ (enableEvents (clampIntensity a)).length = 464
      ∧ c.reading = true ∧ c.inFrame = false ∧ c.wmode = .auto ∧ c.aptr = some 0 ∧ c.dispOn = some true
      ∧ c.bright = some (clampIntensity a) ∧ (∀ x, x < 16 → c.ram.read x = some 0)
      ∧ (s.chip.reading = false → c.unknown = false)
      ∧ (s.busIdle → s.chip.betweenFrames →
          c.unknown = s.chip.unknown ∧ ∀ x, 16 ≤ x → c.ram.read x = s.chip.ram.read x)

/-- 41 R133, R134: SEND_CHAR completes for all int32 operands: the frames `[0x44]` and `[0xC0 | 2 (pos mod 32), data byte]`, the data
byte `data[7:0] | (dot ? 0x80 : 0)`; RESULT_VALID = 0, ERR = NONE; no other register changes. -/
def Obligations.SendCharCompletes : Prop :=
  ∀ (pos data : I32) (dot : Bool) (s : State), s.ready → s.driving →
    ∃ c : Receiver,
      exec (.sendChar pos data dot) s
        = .next { s with
            stb := true, clk := true, dioOut := some ((data.setWidth 8 ||| if dot then (0x80 : Byte) else 0).getLsbD 7)
            resultValid := false, err := .none, req := none, chip := c
            trace := (dataFrames (0xC0 ||| BitVec.ofInt 8 (2 * (pos.toInt % 32)))
              (data.setWidth 8 ||| if dot then 0x80 else 0)).reverse ++ s.trace }
      ∧ (s.chip.reading = false → c = s.chip)

/-- 44 R206, R209, R211; 20 R57: what SEND_CHAR stores, from an idle bus. The address is `trunc_32(pos * 2)[5:0]`, always even. In
0..15 it becomes APTR, the byte is stored there, every other byte reads as before, and UNKNOWN stays; above 15 every byte reads
as before and UNKNOWN = 1. The display control is untouched. -/
def Obligations.SendCharStores : Prop :=
  ∀ (pos data : I32) (dot : Bool) (s t : State), s.ready → s.busIdle → s.chip.betweenFrames →
    exec (.sendChar pos data dot) s = .next t →
    ((charAddress pos).setWidth 6).toNat % 2 = 0
    ∧ t.chip.wmode = .fixed ∧ t.chip.dispOn = s.chip.dispOn ∧ t.chip.bright = s.chip.bright ∧ t.chip.keys = s.chip.keys
    ∧ t.chip.betweenFrames
    ∧ (((charAddress pos).setWidth 6).toNat < 16 →
        t.chip.ram.read ((charAddress pos).setWidth 6).toNat = some (lowByte (charData data dot))
        ∧ (∀ x, x ≠ ((charAddress pos).setWidth 6).toNat → t.chip.ram.read x = s.chip.ram.read x)
        ∧ t.chip.aptr = some (((charAddress pos).setWidth 6).setWidth 4) ∧ t.chip.unknown = s.chip.unknown)
    ∧ (16 ≤ ((charAddress pos).setWidth 6).toNat →
        (∀ x, t.chip.ram.read x = s.chip.ram.read x) ∧ t.chip.aptr = s.chip.aptr ∧ t.chip.unknown = true)

/-- 41 R142: the placement law of `setText`'s buffer: with n the length of T2, TB[(3 - k) mod 8] = T2[k] for each k below n, and every
other position of TB holds a space. -/
def Obligations.PlacementLaw : Prop :=
  ∀ text : List CHAR,
    (textBuffer text).length = 8
    ∧ (∀ (k : Nat) (c : CHAR), ((dropDots text).take 8)[k]? = some c →
        (textBuffer text)[((3 - (k : Int)) % 8).toNat]? = some c)
    ∧ ∀ p, p < 8 → (∀ k, k < ((dropDots text).take 8).length → p ≠ ((3 - (k : Int)) % 8).toNat) →
        (textBuffer text)[p]? = some chSpace

/-- 43 R187: the dot-weight ROM: its table, its two formulas, and that no index outside 0..7 occurs. -/
def Obligations.DotWeights : Prop :=
  (List.range 8).map dotw = [0x08, 0x04, 0x02, 0x01, 0x80, 0x40, 0x20, 0x10]
  ∧ (∀ r, r < 8 → dotw r = if 4 ≤ r then (0x80 : Byte) >>> (r - 4) else (0x08 : Byte) >>> r)
  ∧ (∀ r, r < 8 → dotw r = (1 : Byte) <<< ((3 - (r : Int)) % 8).toNat)
  ∧ ∀ (text : List CHAR) (j : Nat), firstIndex text chDot = some j →
      realPos j text.length < 0 ∨ (0 ≤ realPos j text.length ∧ realPos j text.length ≤ 7)

/-- 41 R136 to R138: the dot mask: 0x00 without a dot; with the first dot at j of a text of length L, realPos = j + 8 - L, an error
when it is negative, else the one bit (3 - realPos) mod 8. The dots after the first change nothing but L. -/
def Obligations.DotMaskLaw : Prop :=
  ∀ text : List CHAR,
    (chDot ∉ text → dotMask text = .ok 0)
    ∧ ∀ (j : Nat), text[j]? = some chDot → (∀ k, k < j → text[k]? ≠ some chDot) →
        ((j : Int) + 8 - text.length < 0 → dotMask text = .error ((j : Int) + 8 - text.length))
        ∧ (0 ≤ (j : Int) + 8 - text.length →
            dotMask text = .ok ((1 : Byte) <<< ((3 - ((j : Int) + 8 - text.length)) % 8).toNat))

/-- 41 R143: bit p of PACC_i is bit i of the mask of the character at position p, 0 at a blank position. -/
def Obligations.PlaneBits : Prop :=
  ∀ (tb : List CHAR) (i p : Nat), p < 8 →
    (bufferAt tb p = chSpace → (planeByte tb i).getLsbD p = false)
    ∧ (bufferAt tb p ≠ chSpace → ∀ m, font (bufferAt tb p) = some m → (planeByte tb i).getLsbD p = m.getLsbD i)

/-- 41 R135, R140, R145: SET_TEXT completes where the dot position is placed and every non-space character of the buffer has a glyph:
the 16 frames, STB = 1, CLK = 1, RESULT_VALID = 0, ERR = NONE; no other register changes. ROTATE is the identity (43 R188). At the end of
the sequence TB, DM and PACC are as its steps leave them. None of the three survives the operation (10 R27): the empty list and the
zeros they then hold are the model's choice (log 34). -/
def Obligations.SetTextCompletes : Prop :=
  ∀ (text : List CHAR) (dm : Byte) (s : State), s.ready → s.driving → dotMask text = .ok dm →
    (∀ p, p < 8 → bufferAt (textBuffer text) p = chSpace ∨ (font (bufferAt (textBuffer text) p)).isSome = true) →
    ∃ c : Receiver,
      exec (.setText text) s
        = .next { s with
            stb := true, clk := true, dioOut := some ((planeByte (textBuffer text) 6).getLsbD 7)
            tb := [], dm := 0, pacc := 0, resultValid := false, err := .none, req := none, chip := c
            trace := (textEvents dm (planeByte (textBuffer text))).reverse ++ s.trace }
      ∧ (run (setTextScript text) (accept (.setText text) s)).tb = textBuffer text
      ∧ (run (setTextScript text) (accept (.setText text) s)).dm = dm
      ∧ (run (setTextScript text) (accept (.setText text) s)).pacc = planeByte (textBuffer text) 6
      ∧ (s.chip.reading = false → c = s.chip)

/-- 41 R149, 44 R209: the display bytes a successful SET_TEXT writes, from an idle bus: byte 14 is DM, byte 2i is PACC_i for i in
0..6; every other byte reads as before; the display control and UNKNOWN stay; WMODE = FIXED and APTR = 12. 44 R213: on the source's
board the digit at position p then shows segment i where the mask of the character there has bit i, no segment at a space, and
its decimal point where DM has bit p; and that is what the board reading gives wherever the display can be read. -/
def Obligations.SetTextDisplay : Prop :=
  ∀ (text : List CHAR) (dm : Byte) (s t : State), s.ready → s.busIdle → s.chip.betweenFrames → dotMask text = .ok dm →
    (∀ p, p < 8 → bufferAt (textBuffer text) p = chSpace ∨ (font (bufferAt (textBuffer text) p)).isSome = true) →
    exec (.setText text) s = .next t →
    t.chip.ram.read 14 = some dm
    ∧ (∀ i, i < 7 → t.chip.ram.read (2 * i) = some (planeByte (textBuffer text) i))
    ∧ (∀ x, (∀ i, i < 8 → x ≠ 2 * i) → t.chip.ram.read x = s.chip.ram.read x)
    ∧ t.chip.wmode = .fixed ∧ t.chip.aptr = some 12 ∧ t.chip.dispOn = s.chip.dispOn ∧ t.chip.bright = s.chip.bright
    ∧ t.chip.unknown = s.chip.unknown ∧ t.chip.keys = s.chip.keys ∧ t.chip.betweenFrames
    ∧ (∀ p, p < 8 →
        (boardDigit t.chip.ram.shown p).point = dm.getLsbD p
        ∧ ∀ i, i < 7 →
          (bufferAt (textBuffer text) p = chSpace → (boardDigit t.chip.ram.shown p).segments.getLsbD i = false)
          ∧ (bufferAt (textBuffer text) p ≠ chSpace → ∀ m, font (bufferAt (textBuffer text) p) = some m →
              (boardDigit t.chip.ram.shown p).segments.getLsbD i = m.getLsbD i))
    ∧ (s.enabled = true → s.chip.unknown = false →
        t.boardReading = .ok ((List.range 8).map (boardDigit t.chip.ram.shown)))

/-- 41 R137; 60 R232, R239, R240: the dot-position error: nothing is emitted and no pin and nothing of the chip changes; ERR =
DOT_POSITION, ERR_INFO = (realPos, none), RESULT_VALID = 0, and the engine is IDLE. TB, DM and PACC do not survive the operation (10
R27): what they then hold is the model's choice (log 34). -/
def Obligations.SetTextDotError : Prop :=
  (∀ (text : List CHAR) (r : Int) (s : State), s.ready → dotMask text = .error r → -2147483648 ≤ r →
    r < 0 ∧ exec (.setText text) s
      = .next { s with
          err := .dotPosition, errInfo := ⟨BitVec.ofInt 32 r, none⟩, resultValid := false, req := none
          tb := [], dm := 0, pacc := 0 })
  ∧ dotMask (List.replicate 15 chDot) = .error (-7)

/-- 41 R144; 60 R232, R239, R240, R243: the missing-glyph error at the least position p whose character is not a space and has no
glyph: exactly the 76 events of the dot frame, ERR = NO_GLYPH, ERR_INFO = (p, TB[p]), RESULT_VALID = 0, the engine IDLE with the
bus idle; and, from an idle bus, display byte 14 is overwritten with DM and no other byte. TB, DM and PACC do not survive the
operation (10 R27): what they then hold is the model's choice (log 34). -/
def Obligations.SetTextNoGlyph : Prop :=
  ∀ (text : List CHAR) (dm : Byte) (p : Nat) (s : State), s.ready → s.driving → dotMask text = .ok dm → p < 8 →
    bufferAt (textBuffer text) p ≠ chSpace → font (bufferAt (textBuffer text) p) = none →
    (∀ q, q < p → bufferAt (textBuffer text) q = chSpace ∨ (font (bufferAt (textBuffer text) q)).isSome = true) →
    ∃ c : Receiver,
      exec (.setText text) s
        = .next { s with
            stb := true, clk := true, dioOut := some (dm.getLsbD 7), tb := [], dm := 0, pacc := 0
            err := .noGlyph, errInfo := ⟨BitVec.ofNat 32 p, some (bufferAt (textBuffer text) p)⟩
            resultValid := false, req := none, chip := c
            trace := (dataFrames 0xCE dm).reverse ++ s.trace }
      ∧ (s.chip.reading = false → c = s.chip)
      ∧ (s.busIdle → s.chip.betweenFrames →
          c.ram.read 14 = some dm ∧ ∀ x, x ≠ 14 → c.ram.read x = s.chip.ram.read x)

/-- 41 R148: SET_TEXT's event and frame counts by outcome, and that these are all the outcomes. A frame is a falling strobe event. -/
def Obligations.SetTextOutcomes : Prop :=
  ∀ (text : List CHAR) (s : State), s.ready → s.driving →
    ∃ (t : State) (es : List BusEvent), exec (.setText text) s = .next t ∧ t.bus = s.bus ++ es
      ∧ ((t.err = .none ∧ es.length = 608 ∧ es.count (.stb false) = 16)
        ∨ (t.err = .dotPosition ∧ es.length = 0 ∧ es.count (.stb false) = 0)
        ∨ (t.err = .noGlyph ∧ es.length = 76 ∧ es.count (.stb false) = 2))

/-! ### Key scans -/

/-- 42 R160, R161: GET_BUTTONS completes: the frame `[0x42, <b0>, <b1>, <b2>, <b3>]`, RESULT = b0 | b1 << 1 | b2 << 2 | b3 << 3,
RESULT_VALID = 1, ERR = NONE, STB = 1, CLK = 1, DIO_OUT a draw; no other register changes. -/
def Obligations.GetButtonsCompletes : Prop :=
  ∀ s : State, s.ready → s.driving →
    ∃ (b0 b1 b2 b3 : Byte) (c : Receiver),
      exec .getButtons s
        = .next { s with
            stb := true, clk := true, dioOut := some (Config.dioRestoreLevel (s.restores + 3)), restores := s.restores + 4
            rxAcc := b3.setWidth 32
            btnAcc := b0.setWidth 64 ||| b1.setWidth 64 <<< 1 ||| b2.setWidth 64 <<< 2 ||| b3.setWidth 64 <<< 3
            result := b0.setWidth 64 ||| b1.setWidth 64 <<< 1 ||| b2.setWidth 64 <<< 2 ||| b3.setWidth 64 <<< 3
            resultValid := true, err := .none, req := none, chip := c
            trace := (scanEvents b0 b1 b2 b3).reverse ++ s.trace }
      ∧ (s.chip.reading = false → c = s.chip.dropLine 32)

/-- 42 R162, R163; 20 R56: GET_BUTTONS64 completes: the same frame, RESULT = b0 | b1 << 8 | b2 << 16 | b3 << 24, exact in 64 bits. -/
def Obligations.GetButtons64Completes : Prop :=
  ∀ s : State, s.ready → s.driving →
    ∃ (b0 b1 b2 b3 : Byte) (c : Receiver),
      exec .getButtons64 s
        = .next { s with
            stb := true, clk := true, dioOut := some (Config.dioRestoreLevel (s.restores + 3)), restores := s.restores + 4
            rxAcc := b3.setWidth 32
            btnAcc := b0.setWidth 64 ||| b1.setWidth 64 <<< 8 ||| b2.setWidth 64 <<< 16 ||| b3.setWidth 64 <<< 24
            result := b0.setWidth 64 ||| b1.setWidth 64 <<< 8 ||| b2.setWidth 64 <<< 16 ||| b3.setWidth 64 <<< 24
            resultValid := true, err := .none, req := none, chip := c
            trace := (scanEvents b0 b1 b2 b3).reverse ++ s.trace }
      ∧ (s.chip.reading = false → c = s.chip.dropLine 32)

/-- 44 R207: from an idle bus with the reading started, both key scans read KEYS: the chip draws four bytes at the 0x42, and byte i of
the frame is KEYS[i]; WMODE = READ; RAM and the display control are untouched, and UNKNOWN stays. That the draw is of the next
levels of the line is the model's choice (log 5). -/
def Obligations.KeyScansReadKeys : Prop :=
  ∀ (i : Instr) (s t : State), i = .getButtons ∨ i = .getButtons64 → s.ready → s.busIdle → s.chip.betweenFrames →
    exec i s = .next t →
    t.bus = s.bus ++ scanEvents (t.chip.keys.byte 0) (t.chip.keys.byte 1) (t.chip.keys.byte 2) (t.chip.keys.byte 3)
    ∧ (∀ k, k < 4 → t.chip.keys.byte k = s.chip.lineByte k)
    ∧ t.chip.wmode = .read ∧ t.chip.ram = s.chip.ram ∧ t.chip.dispOn = s.chip.dispOn ∧ t.chip.bright = s.chip.bright
    ∧ t.chip.unknown = s.chip.unknown ∧ t.chip.betweenFrames

/-- 42 R161, R163: the two packing laws, of the RESULT each key scan leaves and the bytes its frame on BUS shows. GET_BUTTONS's is at
most 0x7FF, its bit k is the OR of b_i[k - i], and different bytes can give the same result. GET_BUTTONS64's is the sum of b_i 256^i,
at most 0xFFFFFFFF, keeps every byte in its own eight bits, and is injective. -/
def Obligations.PackingLaws : Prop :=
  (∀ (s t : State) (b : Nat → Byte), s.ready → s.driving → exec .getButtons s = .next t →
    t.bus = s.bus ++ scanEvents (b 0) (b 1) (b 2) (b 3) →
    t.result.toNat ≤ 0x7FF
    ∧ ∀ k, t.result.getLsbD k = (List.range 4).any (fun i => decide (i ≤ k ∧ k - i ≤ 7) && (b i).getLsbD (k - i)))
  ∧ (∃ (s s' t t' : State) (b b' : Nat → Byte), s.ready ∧ s.driving ∧ s'.ready ∧ s'.driving
    ∧ exec .getButtons s = .next t ∧ exec .getButtons s' = .next t'
    ∧ t.bus = s.bus ++ scanEvents (b 0) (b 1) (b 2) (b 3) ∧ t'.bus = s'.bus ++ scanEvents (b' 0) (b' 1) (b' 2) (b' 3)
    ∧ b 0 ≠ b' 0 ∧ t.result = t'.result)
  ∧ (∀ (s t : State) (b : Nat → Byte), s.ready → s.driving → exec .getButtons64 s = .next t →
    t.bus = s.bus ++ scanEvents (b 0) (b 1) (b 2) (b 3) →
    t.result.toNat = (b 0).toNat + (b 1).toNat * 256 + (b 2).toNat * 256 ^ 2 + (b 3).toNat * 256 ^ 3
    ∧ t.result.toNat ≤ 0xFFFFFFFF
    ∧ ∀ i, i < 4 → t.result.extractLsb' (8 * i) 8 = b i)
  ∧ ∀ (s s' t t' : State) (b b' : Nat → Byte), s.ready → s.driving → s'.ready → s'.driving →
    exec .getButtons64 s = .next t → exec .getButtons64 s' = .next t' →
    t.bus = s.bus ++ scanEvents (b 0) (b 1) (b 2) (b 3) → t'.bus = s'.bus ++ scanEvents (b' 0) (b' 1) (b' 2) (b' 3) →
    t.result = t'.result → ∀ i, i < 4 → b i = b' i

/-- 42 R164: GET_BUTTONS and GET_BUTTONS64 from the same state emit the same events and leave the same state but for BTN_ACC and RESULT;
their results agree exactly when the last three bytes received are 0, and then both are the first byte. -/
def Obligations.KeyScansDistinct : Prop :=
  ∀ s : State, s.ready → s.driving →
    ∃ (t u : State) (b0 b1 b2 b3 : Byte), exec .getButtons s = .next t ∧ exec .getButtons64 s = .next u
      ∧ t.bus = s.bus ++ scanEvents b0 b1 b2 b3
      ∧ u = { t with btnAcc := u.btnAcc, result := u.result }
      ∧ (t.result = u.result ↔ b1 = 0 ∧ b2 = 0 ∧ b3 = 0)
      ∧ (t.result = u.result → t.result = b0.setWidth 64)

/-! ### Lookup units -/

/-- 43 R182, R183: the font entries the source fixes, and the characters that must have a glyph. -/
def Obligations.FontEntries : Prop :=
  font '0'.toNat = some 0b00111111 ∧ font '1'.toNat = some 0b00000110 ∧ font '8'.toNat = some 0b01111111
  ∧ ∀ c ∈ ['0', '1', '2', '3', '4', '7', '8', 'E', 'a', 'b', 'c', 'd', 'e', 'f', 'g', 'h'], font c.toNat ≠ none

/-- 43 R186; 60 R232, R240: FONT_LOOKUP completes with RESULT the mask where the character has an entry, and raises NO_GLYPH with
ERR_INFO = (-1, ch) where it has none; no event, and no other register changes. -/
def Obligations.FontLookupCompletes : Prop :=
  ∀ (ch : CHAR) (s : State), s.ready →
    (∀ m, font ch = some m →
      exec (.fontLookup ch) s = .next { s with result := m.setWidth 64, resultValid := true, err := .none, req := none })
    ∧ (font ch = none →
      exec (.fontLookup ch) s
        = .next { s with err := .noGlyph, errInfo := ⟨-1, some ch⟩, resultValid := false, req := none })

/-- 43 R188, R189: ROTATE is the identity on 8 bits, and ROTATE_BITS completes with RESULT = value[7:0]; no event, and no other
register changes. -/
def Obligations.RotateBitsCompletes : Prop :=
  (∀ v : Byte, rotate v = v)
  ∧ ∀ (v : I32) (s : State), s.ready →
      exec (.rotateBits v) s
        = .next { s with result := (v.setWidth 8).setWidth 64, resultValid := true, err := .none, req := none }

/-- 43 R190: POW2 of n ≥ 0 completes with RESULT 2^n exactly up to n = 30, and the largest int32 from 31 on; no event, and no other
register changes. -/
def Obligations.Pow2Completes : Prop :=
  ∀ (n : I32) (s : State), s.ready → 0 ≤ n.toInt →
    exec (.pow2 n) s
      = .next { s with
          result := if n.toInt ≤ 30 then BitVec.ofNat 64 (2 ^ n.toInt.toNat) else 0x7FFFFFFF
          resultValid := true, err := .none, req := none }

/-- 43 R191, 60 R236: POW2 of n < 0 is refused: no RESULT is written, ERR = DOMAIN, RESULT_VALID and BUSY cleared, the refusal mark
set. -/
def Obligations.Pow2NegativeRefused : Prop :=
  ∀ (n : I32) (s : State), s.ready → n.toInt < 0 →
    exec (.pow2 n) s = .next { s with err := .domain, resultValid := false, req := none, refusalMark := true }

/-! ### The receiver -/

/-- 44 R203 to R209, R211: the five bus commands complete, from every state: the effect of each on the receiver, NBITS cleared and
NBYTES counted; nothing of the engine changes, and no display byte. The field FRAME and the supply of KEYS are the model's choice
(log 5, 26). -/
def Obligations.BusCommandsComplete : Prop :=
  ∀ s : State,
    (exec .cmdDataWriteAuto s = .next { s with
      chip := { s.chip with wmode := .auto, frame := .other, nbits := 0, nbytes := s.chip.nbytes + 1 } })
    ∧ (exec .cmdDataWriteFixed s = .next { s with
      chip := { s.chip with wmode := .fixed, frame := .other, nbits := 0, nbytes := s.chip.nbytes + 1 } })
    ∧ (exec .cmdDataReadKeys s = .next { s with
      chip := { s.chip with
        wmode := .read, frame := .scan, ki := 0, kj := 0
        keys := ⟨s.chip.lineByte 0, s.chip.lineByte 1, s.chip.lineByte 2, s.chip.lineByte 3⟩
        line := s.chip.line.drop 32, draws := s.chip.draws + 32, nbits := 0, nbytes := s.chip.nbytes + 1 } })
    ∧ (∀ i, exec (.cmdDisplayCtrl i) s = .next { s with
      chip := { s.chip with
        dispOn := some true, bright := some i, frame := .other, nbits := 0, nbytes := s.chip.nbytes + 1 } })
    ∧ (∀ a : BitVec 6, a.toNat < 16 → exec (.cmdAddress a) s = .next { s with
      chip := { s.chip with aptr := some (a.setWidth 4), frame := .address, nbits := 0, nbytes := s.chip.nbytes + 1 } })
    ∧ (∀ a : BitVec 6, 16 ≤ a.toNat → exec (.cmdAddress a) s = .next { s with
      chip := { s.chip with unknown := true, frame := .other, nbits := 0, nbytes := s.chip.nbytes + 1 } })

/-- 44 R202, R214: a falling edge of STB starts a frame, a rising edge ends it and makes a partial byte UNKNOWN, and an STB event that
changes no level does nothing. The field FRAME, which a falling edge clears, is the model's own (log 26). -/
def Obligations.FramingEdges : Prop :=
  ∀ c : Receiver, c.reading = true →
    chipStb true false c = { c with inFrame := true, nbits := 0, nbytes := 0, frame := .none }
    ∧ (c.nbits = 0 → chipStb false true c = { c with inFrame := false })
    ∧ (c.nbits ≠ 0 → chipStb false true c = { c with inFrame := false, unknown := true })
    ∧ ∀ b, chipStb b b c = c

/-- 44 R209 to R211: where a data byte goes. In an address frame the first one of a fixed-mode frame goes to APTR, and data byte n of an
auto-mode frame goes to APTR + n while that is at most 15; every other data byte makes the reading UNKNOWN and stores nothing. -/
def Obligations.DataBytePlacement : Prop :=
  ∀ (c : Receiver) (a : BitVec 4) (d : Byte), c.nbytes ≠ 0 →
    (c.frame = .address → c.aptr = some a → c.wmode = .fixed → c.nbytes = 1 → (c.takeByte d).ram = c.ram.write a.toNat d)
    ∧ (c.frame = .address → c.aptr = some a → c.wmode = .fixed → c.nbytes ≠ 1 →
        (c.takeByte d).unknown = true ∧ (c.takeByte d).ram = c.ram)
    ∧ (c.frame = .address → c.aptr = some a → c.wmode = .auto → a.toNat + (c.nbytes - 1) ≤ 15 →
        (c.takeByte d).ram = c.ram.write (a.toNat + (c.nbytes - 1)) d)
    ∧ (c.frame = .address → c.aptr = some a → c.wmode = .auto → 15 < a.toNat + (c.nbytes - 1) →
        (c.takeByte d).unknown = true ∧ (c.takeByte d).ram = c.ram)
    ∧ (c.frame ≠ .address ∨ c.aptr = none ∨ c.wmode = .none ∨ c.wmode = .read →
        (c.takeByte d).unknown = true ∧ (c.takeByte d).ram = c.ram)

/-- 44 R204, R211: a command byte the source does not gloss makes the reading UNKNOWN and stores nothing, as do the address bytes 0xD0
to 0xFF. -/
def Obligations.UnglossedCommandUnknown : Prop :=
  ∀ (c : Receiver) (v : Byte), c.nbytes = 0 →
    ((∀ cmd, decodeBus8 v ≠ .ok cmd) ∨ 0xD0 ≤ v.toNat) →
    (c.takeByte v).unknown = true ∧ (c.takeByte v).ram = c.ram ∧ (c.takeByte v).wmode = c.wmode
      ∧ (c.takeByte v).aptr = c.aptr ∧ (c.takeByte v).dispOn = c.dispOn ∧ (c.takeByte v).bright = c.bright

/-! ### Frames of the instructions -/

/-- What the output-only requests leave unchanged, from every state and in every outcome (10 R25, R26, R30, R32; 60 R240): ENABLE and
SEND_CHAR write none of the working registers, RESULT and ERR_INFO; SET_TEXT writes none of RX_ACC, BTN_ACC and RESULT; no request
touches the host's side. -/
def Obligations.OutputRequestsFrame : Prop :=
  ∀ (i : Instr) (s t : State), exec i s = .next t →
    ((∃ a, i = .enable a) ∨ (∃ pos data dot, i = .sendChar pos data dot) →
      t.rxAcc = s.rxAcc ∧ t.btnAcc = s.btnAcc ∧ t.tb = s.tb ∧ t.dm = s.dm ∧ t.pacc = s.pacc ∧ t.result = s.result
        ∧ t.errInfo = s.errInfo ∧ t.refusalMark = s.refusalMark ∧ t.restores = s.restores)
    ∧ ((∃ text, i = .setText text) →
      t.rxAcc = s.rxAcc ∧ t.btnAcc = s.btnAcc ∧ t.result = s.result ∧ t.enabled = s.enabled
        ∧ t.refusalMark = s.refusalMark ∧ t.restores = s.restores)
    ∧ (i = .getButtons ∨ i = .getButtons64 →
      t.tb = s.tb ∧ t.dm = s.dm ∧ t.pacc = s.pacc ∧ t.errInfo = s.errInfo ∧ t.enabled = s.enabled
        ∧ t.refusalMark = s.refusalMark)
    ∧ t.host = s.host ∧ t.hostData = s.hostData

/-- What the requests that emit no event leave unchanged, from every state and in every outcome (43, 60 R236, R240): FONT_LOOKUP,
ROTATE_BITS, POW2 and the reserved codes change no pin, no working register, nothing of BUS and nothing of the chip, so every
display byte reads as before. -/
def Obligations.SilentRequestsFrame : Prop :=
  ∀ (i : Instr) (s t : State),
    (∃ ch, i = .fontLookup ch) ∨ (∃ v, i = .rotateBits v) ∨ (∃ n, i = .pow2 n) ∨ (∃ o, i = .reserved o) →
    exec i s = .next t →
    t.stb = s.stb ∧ t.clk = s.clk ∧ t.dioOut = s.dioOut ∧ t.rxAcc = s.rxAcc ∧ t.btnAcc = s.btnAcc ∧ t.tb = s.tb
    ∧ t.dm = s.dm ∧ t.pacc = s.pacc ∧ t.enabled = s.enabled ∧ t.bus = s.bus ∧ t.chip = s.chip ∧ t.restores = s.restores
    ∧ t.host = s.host ∧ t.hostData = s.hostData

/-! ### The whole machine -/

/-- 44 R200, 20 R62: the engine does not depend on the reference receiver: from two states that differ only in the chip, an instruction
that samples nothing leaves states that differ only in the chip. -/
def Obligations.EngineIgnoresReceiver : Prop :=
  ∀ (i : Instr) (s : State) (c : Receiver), i.isRequest = true → i ≠ .getButtons → i ≠ .getButtons64 → i ≠ .receiveByte →
    ∃ (t : State) (c' : Receiver), exec i s = .next t ∧ exec i { s with chip := c } = .next { t with chip := c' }

/-- 10 R28, 60 R241, D27: running a host operation one event at a time, from its acceptance, gives what the whole operation gives: MSTEP
counts the events, and 609 steps are enough for every operation and every text. That a step of an operation in progress is one event is
the model's choice (log 10, 20). -/
def Obligations.EventStepsRefineExec : Prop :=
  ∀ (i : Instr) (s : State) (n : Nat), isHostOperation i = true → s.canAccept = true → 609 ≤ n →
    exec i s = .next (eventSteps n (accept i s))

/-- 10 R28: each event of an operation in progress advances MSTEP by exactly one: a step of an operation in progress appends one event
and counts it, or appends none and ends the operation, or appends none where a model fault stops the engine, MSTEP as it was. The grain
of the step is the model's choice (log 10, 20). -/
def Obligations.MstepCountsEvents : Prop :=
  ∀ (s : State) (op : Instr) (k : Nat), s.mstep = .running op k → s.modelFault = none →
    (∃ e, (eventStep s).bus = s.bus ++ [e] ∧ (eventStep s).mstep = .running op (k + 1))
    ∨ ((eventStep s).bus = s.bus ∧ (eventStep s).mstep = .idle)
    ∨ ((eventStep s).bus = s.bus ∧ (eventStep s).mstep = .running op k ∧ (eventStep s).modelFault ≠ none)

/-- The invariant of the machine (10 R21 to R25, R31; 20 R51; 44 R201; 60 R235) holds at reset. -/
def Obligations.InvariantAtReset : Prop := State.reset.Inv

/-- Every step keeps the invariant, from every state that meets it: the display memory canonical, the receiver's counters in range,
RX_ACC a byte, TB, DM and PACC empty outside a `setText` in progress, BUSY = 1 while an operation runs, BUSY = 1 and ERR = MODEL_FAULT
after a fault, and the pins as BUS says they are. That the three are empty then is the model's choice (log 34). -/
def Obligations.InvariantKept : Prop :=
  ∀ s t : State, s.Inv → step s = .next t → t.Inv

/-- 10 R33, R34; 44 R201; 60 R235, R236: what never goes back: BUS only grows, ENABLED, the fault bit and the refusal mark are never
cleared, and the reading never forgets an UNKNOWN. -/
def Obligations.NothingGoesBack : Prop :=
  ∀ s t : State, step s = .next t → StickyOrder s t

/-- 10 R38, 70 R264: the idle bus: from an IDLE state with STB = 1, CLK = 1, the data pin an output and no frame open, every step leads to
such a state again, whatever the step does, or starts an operation with the bus still idle, and that operation, run event by event to
its end, leads to such a state. The grain of the step is the model's choice (log 10). -/
def Obligations.IdleBusKept : Prop :=
  ∀ s t : State, s.mstep = .idle → s.busIdle → (s.chip.reading = true → s.chip.inFrame = false) →
    step s = .next t →
    (t.mstep = .idle ∨ ∃ r, isHostOperation (decodeHreq r) = true ∧ t.mstep = .running (decodeHreq r) 0)
    ∧ t.busIdle ∧ (t.chip.reading = true → t.chip.inFrame = false)
    ∧ ∀ n, 609 ≤ n → (eventSteps n t).mstep = .idle ∧ (eventSteps n t).busIdle
        ∧ ((eventSteps n t).chip.reading = true → (eventSteps n t).chip.inFrame = false)
end

