-- ==== Sys2Proof/Laws/Memory.lean ====
section
/-! SUPPORT. The laws of the display memory: a read after a write, and the canonical form kept by every memory operation. -/

namespace Sys2Proof.Machine

/-- A read of the address just written gives the byte written. -/
theorem Memory.read_write_same (m : Memory) (a : Nat) (v : Byte) : (m.write a v).read a = some v := by
  induction m with
  | nil => simp [Memory.write, Memory.read]
  | cons c rest ih =>
    obtain ⟨b, w⟩ := c
    simp only [Memory.write]
    split
    · simp [Memory.read, List.lookup]
    · split
      · simp [Memory.read, List.lookup]
      · have : (a == b) = false := by simp; omega
        simpa [Memory.read, List.lookup, this] using ih

/-- A read of any other address is as before the write. -/
theorem Memory.read_write_other (m : Memory) {a b : Nat} (v : Byte) (h : b ≠ a) : (m.write a v).read b = m.read b := by
  induction m with
  | nil => simp [Memory.write, Memory.read, List.lookup, beq_eq_false_iff_ne.mpr h]
  | cons c rest ih =>
    obtain ⟨x, w⟩ := c
    simp only [Memory.write]
    split
    · simp [Memory.read, List.lookup, beq_eq_false_iff_ne.mpr h]
    · split
      · subst_vars; simp [Memory.read, List.lookup, beq_eq_false_iff_ne.mpr h]
      · by_cases hx : b = x
        · simp [Memory.read, List.lookup, hx]
        · simpa [Memory.read, List.lookup, beq_eq_false_iff_ne.mpr hx] using ih

theorem Memory.mem_write {m : Memory} {a : Nat} {v : Byte} {c : Host.Cell} (h : c ∈ m.write a v) :
    c = (a, v) ∨ c ∈ m := by
  induction m with
  | nil => simpa [Memory.write] using h
  | cons d rest ih =>
    obtain ⟨b, w⟩ := d
    simp only [Memory.write] at h
    split at h
    · simpa using h
    · split at h
      · simp only [List.mem_cons] at h ⊢; tauto
      · simp only [List.mem_cons] at h ⊢
        rcases h with h | h
        · exact .inr (.inl h)
        · rcases ih h with h | h
          · exact .inl h
          · exact .inr (.inr h)

/-- A write within the 16 display bytes keeps the canonical form. -/
theorem Memory.wf_write {m : Memory} {a : Nat} {v : Byte} (hm : m.wf) (ha : a < Config.ramBytes) : (m.write a v).wf := by
  refine ⟨?_, fun c hc => ?_⟩
  · have h := hm.1
    clear hm
    induction m with
    | nil => simp [Memory.write]
    | cons d rest ih =>
      obtain ⟨b, w⟩ := d
      obtain ⟨hb, hr⟩ := List.pairwise_cons.mp h
      simp only [Memory.write]
      split
      · refine List.pairwise_cons.mpr ⟨fun c hc => ?_, h⟩
        rcases List.mem_cons.mp hc with rfl | hc
        · assumption
        · have := hb c hc; simp only at this ⊢; omega
      · split
        · subst_vars; exact List.pairwise_cons.mpr ⟨hb, hr⟩
        · refine List.pairwise_cons.mpr ⟨fun c hc => ?_, ih hr⟩
          rcases Memory.mem_write hc with rfl | hc
          · simp only; omega
          · exact hb c hc
  · rcases Memory.mem_write hc with rfl | hc
    · exact ha
    · exact hm.2 c hc

theorem Memory.wf_nil : Memory.wf [] := ⟨.nil, by simp⟩

end Sys2Proof.Machine
end

