-- ==== Sys2Proof/Laws/Receiver.lean ====
section
/-! SUPPORT. The laws of the reference receiver: what a byte clocked into an open frame does, what frames do, what the chip
answers, and what the board shows. -/

namespace Sys2Proof.Machine

/-! ### Bits of a byte -/

/-- Bit n of the byte after `SHIFT[n] <- b` is b, every other bit is as before. -/
theorem getLsbD_setBit (v : Byte) (n i : Nat) (b : Bool) (hn : n < 8) (hi : i < 8) :
    (setBit v n b).getLsbD i = if i = n then b else v.getLsbD i := by
  unfold setBit
  rcases Nat.lt_trichotomy i n with h | h | h
  · simp [hi, h, Nat.ne_of_lt h]
  · subst h; cases b <;> simp [hi]
  · have h1 : ¬ i < n := by omega
    have h2 : i ≠ n := by omega
    have h3 : i - n ≠ 0 := by omega
    cases b <;> simp [hi, h1, h2, h3]

/-- Eight captures fill SHIFT with the byte sent, whatever it held (20 R54, 44 R203). -/
theorem setBit_all (v : Byte) (x : Byte) :
    setBit (setBit (setBit (setBit (setBit (setBit (setBit (setBit x 0 (v.getLsbD 0)) 1 (v.getLsbD 1)) 2 (v.getLsbD 2))
      3 (v.getLsbD 3)) 4 (v.getLsbD 4)) 5 (v.getLsbD 5)) 6 (v.getLsbD 6)) 7 (v.getLsbD 7) = v := by
  apply BitVec.eq_of_getLsbD_eq
  intro i hi
  rw [getLsbD_setBit _ 7 _ _ (by decide) hi, getLsbD_setBit _ 6 _ _ (by decide) hi, getLsbD_setBit _ 5 _ _ (by decide) hi,
    getLsbD_setBit _ 4 _ _ (by decide) hi, getLsbD_setBit _ 3 _ _ (by decide) hi, getLsbD_setBit _ 2 _ _ (by decide) hi,
    getLsbD_setBit _ 1 _ _ (by decide) hi, getLsbD_setBit _ 0 _ _ (by decide) hi]
  rcases i with _ | _ | _ | _ | _ | _ | _ | _ | i <;> first | rfl | omega

/-- Bit i of the byte with bits `f` is `f i`. -/
theorem getLsbD_byteOfBits (f : Nat → Bool) {i : Nat} (hi : i < 8) : (byteOfBits f).getLsbD i = f i := by
  have hr : List.range 8 = [0, 1, 2, 3, 4, 5, 6, 7] := by decide
  unfold byteOfBits
  rw [hr]
  rcases i with _ | _ | _ | _ | _ | _ | _ | _ | i <;>
    first
    | omega
    | (simp only [List.foldl_cons, List.foldl_nil, BitVec.getLsbD_or]
       cases f 0 <;> cases f 1 <;> cases f 2 <;> cases f 3 <;> cases f 4 <;> cases f 5 <;> cases f 6 <;> cases f 7 <;> decide)

/-! ### The board (44 R213) -/

/-- Segment i of the digit at position p is bit p of RAM[2i]. -/
@[simp] theorem boardDigit_segments (ram : Nat → Byte) (p : Nat) {i : Nat} (hi : i < 7) :
    (boardDigit ram p).segments.getLsbD i = (ram (2 * i)).getLsbD p := by
  simp [boardDigit, hi, getLsbD_byteOfBits _ (Nat.lt_succ_of_lt hi), boardSegment]

/-- The decimal point of position p is bit p of RAM[14]. -/
@[simp] theorem boardDigit_point (ram : Nat → Byte) (p : Nat) : (boardDigit ram p).point = (ram 14).getLsbD p := rfl

/-- Where the display can be read, the board shows the display bytes the chip holds. -/
theorem boardReading_eq {s : State} (he : s.enabled = true) (hu : s.chip.unknown = false) :
    s.boardReading = .ok ((List.range 8).map (boardDigit s.chip.ram.shown)) := by
  simp only [State.boardReading, State.displayReading, he, hu]
  rfl

/-! ### A byte clocked in -/

/-- What the receiver does for one bit sent: the rising edge of `CLK(0) DIO(b) CLK(1)`. -/
def Receiver.seeBit (c : Receiver) (b : Bool) : Receiver := chipClk false true (some b) c

/-- What the receiver does for the eight bits of a byte sent. -/
def Receiver.seeByte (c : Receiver) (v : I32) : Receiver :=
  (List.range 8).foldl (fun c i => c.seeBit (v.getLsbD i)) c

@[simp] theorem chipClk_low (old : Bool) (d : Option Bool) (c : Receiver) : chipClk old false d c = c := by
  simp [chipClk]

@[simp] theorem chipClk_input (old new : Bool) (c : Receiver) : chipClk old new none c = c := by
  simp [chipClk]

@[simp] theorem chipStb_same (b : Bool) (c : Receiver) : chipStb b b c = c := by
  unfold chipStb; split <;> cases b <;> simp

theorem seeBit_closed {c : Receiver} (h : c.reading = false ∨ c.inFrame = false) (b : Bool) : c.seeBit b = c := by
  rcases h with h | h <;> simp [Receiver.seeBit, chipClk, h]

/-- Outside a frame, or before the reading starts, a byte sent changes nothing in the receiver (44 R203). -/
theorem seeByte_closed {c : Receiver} (h : c.reading = false ∨ c.inFrame = false) (v : I32) : c.seeByte v = c := by
  unfold Receiver.seeByte
  induction List.range 8 with
  | nil => rfl
  | cons i is ih => simp only [List.foldl_cons, seeBit_closed h, ih]

/-- A bit inside an open frame that does not complete a byte. -/
theorem seeBit_mid {c : Receiver} (hr : c.reading = true) (hf : c.inFrame = true) (x : Byte) (b : Bool) {k : Nat} (hk : k < 7) :
    ({ c with shift := x, nbits := k } : Receiver).seeBit b = { c with shift := setBit x k b, nbits := k + 1 } := by
  have : ¬ 7 ≤ k := by omega
  simp [Receiver.seeBit, chipClk, hr, hf, Receiver.captureBit, this]

/-- The bit that completes a byte. -/
theorem seeBit_last {c : Receiver} (hr : c.reading = true) (hf : c.inFrame = true) (x : Byte) (b : Bool) :
    ({ c with shift := x, nbits := 7 } : Receiver).seeBit b
      = ({ c with shift := setBit x 7 b, nbits := 8 } : Receiver).takeByte (setBit x 7 b) := by
  simp [Receiver.seeBit, chipClk, hr, hf, Receiver.captureBit, Receiver.dispatchByte]

/-- The dispatch of a byte does not depend on NBITS, which it clears (44 R203). -/
theorem takeByte_nbits (c : Receiver) (x v : Byte) (n : Nat) :
    ({ c with shift := x, nbits := n } : Receiver).takeByte v = ({ c with shift := x } : Receiver).takeByte v := by
  unfold Receiver.takeByte
  by_cases h : c.nbytes = 0
  · simp only [h, if_true]
    unfold Receiver.commandByte
    cases hd : decodeBus8 v with
    | error e => rfl
    | ok cmd =>
      cases cmd with
      | address a => simp only [Receiver.busCommand, Receiver.address]; split <;> rfl
      | dataWriteAuto => rfl
      | dataReadKeys => rfl
      | dataWriteFixed => rfl
      | displayCtrl i => rfl
  · simp only [h, if_false]
    unfold Receiver.dataByte
    rw [show ({ c with shift := x, nbits := n } : Receiver).dataAddress = ({ c with shift := x } : Receiver).dataAddress from rfl]
    cases ({ c with shift := x } : Receiver).dataAddress <;> rfl

/-- A byte clocked into an open frame from a byte boundary is dispatched (44 R203, R204): eight bits fill SHIFT, least
significant first, and the complete byte is taken. -/
theorem seeByte_open {c : Receiver} (hr : c.reading = true) (hf : c.inFrame = true) (hn : c.nbits = 0) (v : I32) :
    c.seeByte v = ({ c with shift := lowByte v } : Receiver).takeByte (lowByte v) := by
  have hb : ∀ i, i < 8 → v.getLsbD i = (lowByte v).getLsbD i := by
    intro i hi; simp [lowByte, hi]
  have hlist : List.range 8 = [0, 1, 2, 3, 4, 5, 6, 7] := by decide
  unfold Receiver.seeByte
  rw [hlist]
  simp only [List.foldl_cons, List.foldl_nil]
  rw [hb 0 (by decide), hb 1 (by decide), hb 2 (by decide), hb 3 (by decide), hb 4 (by decide), hb 5 (by decide),
    hb 6 (by decide), hb 7 (by decide)]
  rw [show c = ({ c with shift := c.shift, nbits := 0 } : Receiver) by rw [← hn]]
  rw [seeBit_mid hr hf _ _ (by decide), seeBit_mid hr hf _ _ (by decide), seeBit_mid hr hf _ _ (by decide),
    seeBit_mid hr hf _ _ (by decide), seeBit_mid hr hf _ _ (by decide), seeBit_mid hr hf _ _ (by decide),
    seeBit_mid hr hf _ _ (by decide), seeBit_last hr hf]
  simp only [Nat.zero_add, Nat.reduceAdd, setBit_all]
  rw [takeByte_nbits, ← takeByte_nbits c _ _ 0]

/-! ### What a byte leaves alone -/

/-- The dispatch of a byte leaves the framing as it is: the frame stays open, NBITS is 0, NBYTES counts it, and the reading and
an UNKNOWN stay. -/
theorem takeByte_frame (c : Receiver) (v : Byte) :
    (c.takeByte v).reading = c.reading ∧ (c.takeByte v).inFrame = c.inFrame ∧ (c.takeByte v).nbits = 0
      ∧ (c.takeByte v).nbytes = c.nbytes + 1 ∧ (c.takeByte v).shift = c.shift
      ∧ (c.unknown = true → (c.takeByte v).unknown = true) := by
  unfold Receiver.takeByte
  by_cases h : c.nbytes = 0
  · simp only [h, if_true]
    unfold Receiver.commandByte
    cases hd : decodeBus8 v with
    | error e => simp [Receiver.byteDone, h]
    | ok cmd =>
      cases cmd <;> simp [Receiver.busCommand, Receiver.writeAuto, Receiver.writeFixed, Receiver.readKeys,
        Receiver.displayCtrl, Receiver.byteDone, h]
      unfold Receiver.address
      split <;> simp [h]
  · simp only [h, if_false]
    unfold Receiver.dataByte
    cases hd : c.dataAddress <;> simp [Receiver.byteDone, Receiver.setUnknown, Receiver.store]

end Sys2Proof.Machine
end

