-- ==== Sys2Proof/Laws/State.lean ====
section
/-! SUPPORT. The small laws of the state's views and of its named updates, so that no later proof unfolds a record update. -/

namespace Sys2Proof.Machine

/-! ### Views -/

@[simp] theorem dioMode_output {s : State} : s.dioMode = .output ↔ s.dioOut.isSome = true := by
  unfold State.dioMode; cases s.dioOut <;> simp

@[simp] theorem dioMode_input {s : State} : s.dioMode = .input ↔ s.dioOut = none := by
  unfold State.dioMode; cases s.dioOut <;> simp

theorem canAccept_iff {s : State} : s.canAccept = true ↔ s.busy = false ∧ s.modelFault = none := by
  simp [State.canAccept]

theorem running_iff {s : State} : s.running = true ↔ s.mstep ≠ .idle ∧ s.modelFault = none := by
  unfold State.running; cases s.mstep <;> cases s.modelFault <;> simp

theorem not_running_iff {s : State} : s.running = false ↔ s.mstep = .idle ∨ s.modelFault ≠ none := by
  unfold State.running; cases s.mstep <;> cases s.modelFault <;> simp

/-! ### `record`: BUS grows by the event, MSTEP advances, nothing else changes -/

@[simp] theorem bus_record (e : BusEvent) (s : State) : (record e s).bus = s.bus ++ [e] := by
  simp [State.bus, record]

@[simp] theorem record_frame (e : BusEvent) (s : State) :
    (record e s).trace = e :: s.trace ∧ (record e s).mstep = s.mstep.advance
      ∧ (record e s).stb = s.stb ∧ (record e s).clk = s.clk ∧ (record e s).dioOut = s.dioOut
      ∧ (record e s).rxAcc = s.rxAcc ∧ (record e s).btnAcc = s.btnAcc ∧ (record e s).tb = s.tb ∧ (record e s).dm = s.dm
      ∧ (record e s).pacc = s.pacc ∧ (record e s).req = s.req ∧ (record e s).result = s.result
      ∧ (record e s).busy = s.busy ∧ (record e s).err = s.err ∧ (record e s).resultValid = s.resultValid
      ∧ (record e s).enabled = s.enabled ∧ (record e s).errInfo = s.errInfo
      ∧ (record e s).modelFault = s.modelFault ∧ (record e s).refusalMark = s.refusalMark
      ∧ (record e s).chip = s.chip ∧ (record e s).restores = s.restores ∧ (record e s).host = s.host
      ∧ (record e s).hostData = s.hostData := by
  simp [record]

@[simp] theorem advance_idle : MStep.idle.advance = .idle := rfl
@[simp] theorem advance_running (op : Instr) (k : Nat) : (MStep.running op k).advance = .running op (k + 1) := rfl

/-! ### Acceptance and the ways a request ends -/

@[simp] theorem accept_fields (op : Instr) (s : State) :
    (accept op s).busy = true ∧ (accept op s).err = .none ∧ (accept op s).mstep = .running op 0
      ∧ (accept op s).trace = s.trace ∧ (accept op s).stb = s.stb ∧ (accept op s).clk = s.clk
      ∧ (accept op s).dioOut = s.dioOut ∧ (accept op s).chip = s.chip ∧ (accept op s).modelFault = s.modelFault
      ∧ (accept op s).refusalMark = s.refusalMark ∧ (accept op s).enabled = s.enabled
      ∧ (accept op s).result = s.result ∧ (accept op s).resultValid = s.resultValid
      ∧ (accept op s).errInfo = s.errInfo ∧ (accept op s).rxAcc = s.rxAcc ∧ (accept op s).btnAcc = s.btnAcc := by
  simp [accept]

theorem accept_running {op : Instr} {s : State} (h : s.modelFault = none) : (accept op s).running = true := by
  simp [running_iff, h]

/-- What becomes of SET_TEXT's registers is all that `dropText` changes (10 R27). -/
@[simp] theorem dropText_fields (s : State) :
    (dropText s).mstep = s.mstep ∧ (dropText s).busy = s.busy ∧ (dropText s).req = s.req
      ∧ (dropText s).trace = s.trace ∧ (dropText s).stb = s.stb ∧ (dropText s).clk = s.clk
      ∧ (dropText s).dioOut = s.dioOut ∧ (dropText s).chip = s.chip ∧ (dropText s).rxAcc = s.rxAcc
      ∧ (dropText s).btnAcc = s.btnAcc ∧ (dropText s).result = s.result ∧ (dropText s).err = s.err
      ∧ (dropText s).resultValid = s.resultValid ∧ (dropText s).enabled = s.enabled ∧ (dropText s).errInfo = s.errInfo
      ∧ (dropText s).modelFault = s.modelFault ∧ (dropText s).refusalMark = s.refusalMark
      ∧ (dropText s).restores = s.restores ∧ (dropText s).host = s.host ∧ (dropText s).hostData = s.hostData := by
  simp [dropText]

/-- In an operation that is not SET_TEXT, and between operations, TB, DM and PACC are left alone. -/
theorem dropText_other {s : State} (h : s.mstep.inSetText = false) : dropText s = s := by
  simp [dropText, h]

/-- In SET_TEXT nothing is left of TB, DM and PACC. -/
theorem dropText_setText {s : State} (h : s.mstep.inSetText = true) :
    dropText s = { s with tb := [], dm := 0, pacc := 0 } := by
  simp [dropText, h]

/-- Empty text registers stay empty. -/
theorem dropText_empty {s : State} (h : s.tb = [] ∧ s.dm = 0 ∧ s.pacc = 0) :
    (dropText s).tb = [] ∧ (dropText s).dm = 0 ∧ (dropText s).pacc = 0 := by
  simp [dropText, h]

/-- The end of a request: IDLE, not busy, nothing pending, and nothing left in SET_TEXT's registers if it was one (10 R27). -/
@[simp] theorem endOperation_fields (s : State) :
    (endOperation s).mstep = .idle ∧ (endOperation s).busy = false ∧ (endOperation s).req = none
      ∧ (endOperation s).tb = (dropText s).tb ∧ (endOperation s).dm = (dropText s).dm
      ∧ (endOperation s).pacc = (dropText s).pacc
      ∧ (endOperation s).trace = s.trace ∧ (endOperation s).stb = s.stb ∧ (endOperation s).clk = s.clk
      ∧ (endOperation s).dioOut = s.dioOut ∧ (endOperation s).chip = s.chip ∧ (endOperation s).rxAcc = s.rxAcc
      ∧ (endOperation s).btnAcc = s.btnAcc ∧ (endOperation s).result = s.result ∧ (endOperation s).err = s.err
      ∧ (endOperation s).resultValid = s.resultValid ∧ (endOperation s).enabled = s.enabled
      ∧ (endOperation s).errInfo = s.errInfo ∧ (endOperation s).modelFault = s.modelFault
      ∧ (endOperation s).refusalMark = s.refusalMark ∧ (endOperation s).restores = s.restores
      ∧ (endOperation s).host = s.host ∧ (endOperation s).hostData = s.hostData := by
  simp [endOperation]

/-- The end of an operation that is not SET_TEXT leaves TB, DM and PACC alone. -/
theorem endOperation_other {s : State} (h : s.mstep.inSetText = false) :
    endOperation s = { s with mstep := .idle, busy := false, req := none } := by
  simp [endOperation, dropText_other h]

/-- The end of SET_TEXT leaves nothing in TB, DM and PACC (10 R27). -/
theorem endOperation_setText {s : State} (h : s.mstep.inSetText = true) :
    endOperation s = { s with tb := [], dm := 0, pacc := 0, mstep := .idle, busy := false, req := none } := by
  simp [endOperation, dropText_setText h]

@[simp] theorem inSetText_advance (m : MStep) : m.advance.inSetText = m.inSetText := by cases m <;> rfl
@[simp] theorem inSetText_running (op : Instr) (k : Nat) : (MStep.running op k).inSetText = isSetText op := rfl

/-- A request that ran to its end completes: its operation ends, with ERR = NONE (60 R241). -/
theorem complete_of_running {s : State} (h : s.running = true) : complete s = { endOperation s with err := .none } := by
  simp [complete, h]

/-- A request that an error, a refusal or a fault ended does not complete. -/
theorem complete_of_not_running {s : State} (h : s.running = false) : complete s = s := by
  simp [complete, h]

theorem raise_not_running (code : ErrCode) (info : ErrInfo) (s : State) :
    (raiseInvalidArgument code info s).running = false := by
  simp [not_running_iff, raiseInvalidArgument]

theorem refuse_not_running (code : ErrCode) (s : State) : (refuseRequest code s).running = false := by
  simp [not_running_iff, refuseRequest]

theorem fault_not_running (f : ModelFault) (s : State) : (enterFault f s).running = false := by
  simp [not_running_iff, enterFault]

/-- A model fault stops the engine where it is (60 R235); nothing is left in SET_TEXT's registers if it ended one (00 R12, 10 R27), and
no event, no pin, no result, nothing of the chip or of the host changes. -/
@[simp] theorem enterFault_fields (f : ModelFault) (s : State) :
    (enterFault f s).mstep = s.mstep ∧ (enterFault f s).req = s.req ∧ (enterFault f s).busy = true
      ∧ (enterFault f s).err = .modelFault ∧ (enterFault f s).modelFault = some (s.modelFault.getD f)
      ∧ (enterFault f s).tb = (dropText s).tb ∧ (enterFault f s).dm = (dropText s).dm ∧ (enterFault f s).pacc = (dropText s).pacc
      ∧ (enterFault f s).trace = s.trace ∧ (enterFault f s).stb = s.stb ∧ (enterFault f s).clk = s.clk
      ∧ (enterFault f s).dioOut = s.dioOut ∧ (enterFault f s).chip = s.chip ∧ (enterFault f s).rxAcc = s.rxAcc
      ∧ (enterFault f s).btnAcc = s.btnAcc ∧ (enterFault f s).result = s.result
      ∧ (enterFault f s).resultValid = s.resultValid ∧ (enterFault f s).enabled = s.enabled
      ∧ (enterFault f s).errInfo = s.errInfo ∧ (enterFault f s).refusalMark = s.refusalMark
      ∧ (enterFault f s).restores = s.restores ∧ (enterFault f s).host = s.host
      ∧ (enterFault f s).hostData = s.hostData := by
  simp [enterFault]

end Sys2Proof.Machine
end

