-- ==== Sys2Proof/Laws/Sequencer.lean ====
section
/-! SUPPORT. What the sequencer's shared operations do, said once: a sequence of actions, and each micro-operation as one closed
form (40 R106 to R110, R113). -/

namespace Sys2Proof.Machine

/-! ### Sequences -/

@[simp] theorem run_nil (s : State) : run [] s = s := rfl
theorem run_cons (a : Action) (as : List Action) (s : State) : run (a :: as) s = run as (runAction s a) := rfl
theorem run_append (as bs : List Action) (s : State) : run (as ++ bs) s = run bs (run as s) := by
  simp [run]

theorem runAction_of_running {s : State} (h : s.running = true) (a : Action) : runAction s a = act a s := by
  simp [runAction, h]

/-- Nothing of a sequence happens once the sequencer has stopped running (60 R239, R236, R235). -/
theorem run_of_not_running {s : State} (h : s.running = false) (as : List Action) : run as s = s := by
  induction as with
  | nil => rfl
  | cons a as ih => simp [run_cons, runAction, h, ih]

theorem run_cons_running {s : State} (h : s.running = true) (a : Action) (as : List Action) :
    run (a :: as) s = run as (act a s) := by
  rw [run_cons, runAction_of_running h]

/-! ### MSTEP counts events -/

@[simp] theorem MStep.add_zero (m : MStep) : m.add 0 = m := by cases m <;> rfl
@[simp] theorem MStep.add_idle (n : Nat) : MStep.idle.add n = .idle := rfl
@[simp] theorem MStep.add_running (op : Instr) (k n : Nat) : (MStep.running op k).add n = .running op (k + n) := rfl
theorem MStep.advance_add (m : MStep) (n : Nat) : (m.add n).advance = m.add (n + 1) := by cases m <;> rfl
theorem MStep.add_add (m : MStep) (a b : Nat) : (m.add a).add b = m.add (a + b) := by
  cases m <;> simp [Nat.add_assoc]

/-- What is needed of a state for the sequencer to go on sending: it is running, and the data pin is an output. -/
abbrev State.sending (s : State) : Prop := s.running = true ∧ s.dioOut.isSome = true

@[simp] theorem bus_pushEvents (s : State) (es : List BusEvent) : (s.pushEvents es).bus = s.bus ++ es := by
  simp [State.bus, State.pushEvents]

@[simp] theorem pushEvents_running (s : State) (es : List BusEvent) : (s.pushEvents es).running = s.running := by
  unfold State.running State.pushEvents; cases h : s.mstep <;> cases s.modelFault <;> simp

theorem record_eq_pushEvents (e : BusEvent) (s : State) : record e s = s.pushEvents [e] := by
  simp only [record, State.pushEvents, List.reverse_singleton, List.singleton_append, List.length_singleton]
  cases s.mstep <;> rfl

theorem pushEvents_pushEvents (s : State) (es fs : List BusEvent) : (s.pushEvents es).pushEvents fs = s.pushEvents (es ++ fs) := by
  simp [State.pushEvents, MStep.add_add]

/-! ### Micro-operations in closed form -/

@[simp] theorem bus_sent (s : State) (b d : Bool) (c : Receiver) (es : List BusEvent) : (s.sent b d c es).bus = s.bus ++ es := by
  simp [State.bus, State.sent]

@[simp] theorem sent_running (s : State) (b d : Bool) (c : Receiver) (es : List BusEvent) :
    (s.sent b d c es).running = s.running := by
  unfold State.running State.sent; cases h : s.mstep <;> cases s.modelFault <;> simp

theorem sent_sending {s : State} (h : s.sending) (b d : Bool) (c : Receiver) (es : List BusEvent) :
    (s.sent b d c es).sending := ⟨(sent_running ..).trans h.1, rfl⟩

@[simp] theorem sent_fields (s : State) (b d : Bool) (c : Receiver) (es : List BusEvent) :
    (s.sent b d c es).stb = b ∧ (s.sent b d c es).clk = true ∧ (s.sent b d c es).dioOut = some d
      ∧ (s.sent b d c es).chip = c := ⟨rfl, rfl, rfl, rfl⟩

theorem sent_sent (s : State) (b d b' d' : Bool) (c c' : Receiver) (es es' : List BusEvent) :
    (s.sent b d c es).sent b' d' c' es' = s.sent b' d' c' (es ++ es') := by
  simp [State.sent, MStep.add_add]

/-- One bit sent (40 R106). -/
theorem run_sendBit {s : State} (h : s.sending) (b : Bool) :
    run (sendBitScript b) s = s.sent s.stb b (s.chip.seeBit b) [.clk false, .dio b, .clk true] := by
  obtain ⟨hr, ho⟩ := h
  obtain ⟨d, hd⟩ := Option.isSome_iff_exists.mp ho
  obtain ⟨hm, hf⟩ := running_iff.mp hr
  cases hms : s.mstep with
  | idle => exact absurd hms hm
  | running op k =>
    simp [sendBitScript, run_cons, runAction, act, emitClk, emitDio, State.running, State.dioMode, hms, hf, hd, record,
      State.sent, Receiver.seeBit]

/-- The events of some bits sent. -/
def bitEvents (v : I32) (is : List Nat) : List BusEvent :=
  is.flatMap (fun i => [.clk false, .dio (v.getLsbD i), .clk true])

/-- SEND_BYTE in closed form (40 R106, R113): STB is untouched, CLK = 1, DIO_OUT = value[7], the 24 events of the low byte, and
what the receiver makes of them. -/
theorem run_sendByte {s : State} (h : s.sending) (v : I32) :
    run (sendByteScript v) s = s.sent s.stb (v.getLsbD 7) (s.chip.seeByte v) (byteEvents (lowByte v)) := by
  have key : ∀ is : List Nat, ∀ t : State, t.sending →
      run ((is ++ [7]).flatMap (fun i => sendBitScript (v.getLsbD i))) t
        = t.sent t.stb (v.getLsbD 7) ((is ++ [7]).foldl (fun c i => c.seeBit (v.getLsbD i)) t.chip) (bitEvents v (is ++ [7])) := by
    intro is
    induction is with
    | nil => intro t ht; simpa [bitEvents] using run_sendBit ht (v.getLsbD 7)
    | cons i is ih =>
      intro t ht
      rw [List.cons_append, List.flatMap_cons, run_append, run_sendBit ht, ih _ (sent_sending ht ..), sent_sent]
      rfl
  have h7 : List.range 8 = [0, 1, 2, 3, 4, 5, 6] ++ [7] := by decide
  have hev : bitEvents v (List.range 8) = byteEvents (lowByte v) := by
    unfold bitEvents byteEvents
    apply List.flatMap_congr
    intro i hi
    have := List.mem_range.mp hi
    simp [lowByte, this]
  have := key [0, 1, 2, 3, 4, 5, 6] s h
  rw [← h7] at this
  rw [← hev]
  exact this

/-- Some bytes sent one after the other, the last of them b. -/
theorem run_sendBytes (bs : List I32) (b : I32) {s : State} (h : s.sending) :
    run ((bs ++ [b]).flatMap sendByteScript) s
      = s.sent s.stb (b.getLsbD 7) ((bs ++ [b]).foldl Receiver.seeByte s.chip) (((bs ++ [b]).map lowByte).flatMap byteEvents) := by
  induction bs generalizing s with
  | nil => simpa using run_sendByte h b
  | cons x bs ih =>
    rw [List.cons_append, List.flatMap_cons, run_append, run_sendByte h, ih (sent_sending h ..), sent_sent]
    rfl

/-- What the receiver makes of a frame of bytes sent while STB was at level `old` (44 R202, R203). -/
def Receiver.seeFrame (c : Receiver) (old : Bool) (bs : List I32) : Receiver :=
  chipStb false true (bs.foldl Receiver.seeByte (chipStb old false c))

theorem run_stb {s : State} (h : s.running = true) (b : Bool) :
    run [.stb b] s = ({ s with stb := b, chip := chipStb s.stb b s.chip } : State).pushEvents [.stb b] := by
  rw [run_cons_running h, run_nil, ← record_eq_pushEvents]
  rfl

/-- A frame sent, in closed form (30 R71, 40 R113): STB = 1, CLK = 1, DIO_OUT = bit 7 of the last byte. -/
theorem run_frame (bs : List I32) (b : I32) {s : State} (h : s.sending) :
    run ([.stb false] ++ (bs ++ [b]).flatMap sendByteScript ++ [.stb true]) s
      = s.sent true (b.getLsbD 7) (s.chip.seeFrame s.stb (bs ++ [b])) (frameEvents ((bs ++ [b]).map lowByte)) := by
  have h1 : (({ s with stb := false, chip := chipStb s.stb false s.chip } : State).pushEvents [.stb false]).sending :=
    ⟨(pushEvents_running _ _).trans h.1, h.2⟩
  rw [run_append, run_append, run_stb h.1, run_sendBytes bs b h1, run_stb ((sent_running ..).trans h1.1)]
  simp only [State.sent, State.pushEvents, frameEvents, Receiver.seeFrame, MStep.add_add]
  simp [Nat.add_comm]
  congr 1
  omega

/-- SEND_COMMAND in closed form (40 R107, R113). -/
theorem run_sendCommand {s : State} (h : s.sending) (cmd : I32) :
    run (sendCommandScript cmd) s = s.sent true (cmd.getLsbD 7) (s.chip.seeFrame s.stb [cmd]) (frameEvents [lowByte cmd]) := by
  simpa [sendCommandScript] using run_frame [] cmd h

/-- What the receiver makes of SEND_DATA's two frames (40 R108). -/
def Receiver.seeData (c : Receiver) (old : Bool) (addr data : I32) : Receiver :=
  (c.seeFrame old [busDataWriteFixed.setWidth 32]).seeFrame true [addressWord addr, data]

/-- SEND_DATA in closed form (40 R108, R113). -/
theorem run_sendData {s : State} (h : s.sending) (addr data : I32) :
    run (sendDataScript addr data) s
      = s.sent true (data.getLsbD 7) (s.chip.seeData s.stb addr data)
          (dataFrames (lowByte (addressWord addr)) (lowByte data)) := by
  have hs : sendDataScript addr data = sendCommandScript (busDataWriteFixed.setWidth 32)
      ++ ([.stb false] ++ ([addressWord addr] ++ [data]).flatMap sendByteScript ++ [.stb true]) := by
    simp [sendDataScript]
  rw [hs, run_append, run_sendCommand h, run_frame [addressWord addr] data (sent_sending h ..), sent_sent]
  rfl

/-! ### The byte receiver -/

/-- The receiver after n SAMPLEs. -/
def Receiver.afterSamples (c : Receiver) : Nat → Receiver
  | 0 => c
  | n + 1 => (c.afterSamples n).afterSample

/-- The level the j-th SAMPLE from now returns (40 R105, 44 R207). -/
def Receiver.answer (c : Receiver) (j : Nat) : Bool := (c.afterSamples j).sampleLevel

theorem afterSamples_succ (c : Receiver) (n : Nat) : c.afterSamples (n + 1) = c.afterSample.afterSamples n := by
  induction n with
  | zero => rfl
  | succ n ih => rw [Receiver.afterSamples, ih]; rfl

/-- One bit received: RX_ACC is shifted and takes the level in bit 7 (40 R109). -/
def rxTake (acc : I32) (b : Bool) : I32 := if b then acc >>> 1 ||| 0x80 else acc >>> 1

/-- The state after bits have been received: RX_ACC, CLK = 1, the receiver, and the events. -/
def State.received (s : State) (acc : I32) (c : Receiver) (es : List BusEvent) : State :=
  { s with rxAcc := acc, clk := true, chip := c, trace := es.reverse ++ s.trace, mstep := s.mstep.add es.length }

@[simp] theorem received_running (s : State) (acc : I32) (c : Receiver) (es : List BusEvent) :
    (s.received acc c es).running = s.running := by
  unfold State.running State.received; cases h : s.mstep <;> cases s.modelFault <;> simp

theorem received_received (s : State) (a a' : I32) (c c' : Receiver) (es es' : List BusEvent) :
    (s.received a c es).received a' c' es' = s.received a' c' (es ++ es') := by
  simp [State.received, MStep.add_add]

theorem run_receiveBit {s : State} (hr : s.running = true) (hd : s.dioOut = none) :
    run receiveBitScript s
      = s.received (rxTake s.rxAcc s.chip.sampleLevel) s.chip.afterSample
          [.clk false, .sample s.chip.sampleLevel, .clk true] := by
  obtain ⟨hm, hf⟩ := running_iff.mp hr
  cases hms : s.mstep with
  | idle => exact absurd hms hm
  | running op k =>
    simp [receiveBitScript, run_cons, runAction, act, emitClk, emitSample, State.running, State.dioMode, hms, hf, hd, record,
      State.received, rxTake]

/-- RX_ACC after n bits received from RX_ACC = acc. -/
def rxFold (lv : Nat → Bool) (acc : I32) (n : Nat) : I32 := (List.range n).foldl (fun a j => rxTake a (lv j)) acc

/-- Receive bit-order law (40 R111): the bit sampled j-th ends at bit j of RX_ACC. -/
theorem rxFold_eight (lv : Nat → Bool) : rxFold lv 0 8 = (byteOfBits lv).setWidth 32 := by
  have hr : List.range 8 = [0, 1, 2, 3, 4, 5, 6, 7] := by decide
  unfold rxFold byteOfBits
  rw [hr]
  simp only [List.foldl_cons, List.foldl_nil]
  generalize lv 0 = a; generalize lv 1 = b; generalize lv 2 = c; generalize lv 3 = d
  generalize lv 4 = e; generalize lv 5 = f; generalize lv 6 = g; generalize lv 7 = h
  revert a b c d e f g h
  decide

theorem run_receiveBits (n : Nat) {s : State} (hr : s.running = true) (hd : s.dioOut = none) :
    run ((List.range n).flatMap (fun _ => receiveBitScript)) s
      = s.received (rxFold s.chip.answer s.rxAcc n) (s.chip.afterSamples n)
          ((List.range n).flatMap (fun j => [.clk false, .sample (s.chip.answer j), .clk true]))
      ∨ n = 0 := by
  induction n with
  | zero => exact .inr rfl
  | succ n ih =>
    left
    rw [List.range_succ, List.flatMap_append, run_append]
    have hone : ([n].flatMap (fun _ => receiveBitScript)) = receiveBitScript := by simp
    rw [hone]
    rcases ih with ih | rfl
    · rw [ih, run_receiveBit ((received_running ..).trans hr) hd, received_received]
      unfold rxFold
      rw [List.range_succ, List.foldl_append, List.flatMap_append]
      simp only [List.foldl_cons, List.foldl_nil, List.flatMap_cons, List.flatMap_nil, List.append_nil]
      rfl
    · simp only [List.range_zero, List.flatMap_nil, run_nil, List.nil_append]
      rw [run_receiveBit hr hd]
      rfl

/-- RX_CORE in closed form (40 R109, R111): the eight levels sampled are the bits of RX_ACC, least significant first. -/
theorem run_rxCore {s : State} (hr : s.running = true) (hd : s.dioOut = none) :
    run rxCoreScript s
      = s.received ((byteOfBits s.chip.answer).setWidth 32) (s.chip.afterSamples 8) (rxCoreEvents s.chip.answer) := by
  unfold rxCoreScript
  have h0 : run [Action.rxClear] s = { s with rxAcc := 0 } := by rw [run_cons_running hr]; rfl
  rw [run_append, h0]
  rcases run_receiveBits 8 (s := { s with rxAcc := 0 }) hr hd with h | h
  · rw [h, rxFold_eight]; rfl
  · exact absurd h (by decide)

/-- RECEIVE_BYTE in closed form (40 R110, R113): STB is untouched, CLK = 1, DIO_OUT is drawn, RX_ACC is the byte. -/
theorem run_receiveByte {s : State} (hr : s.running = true) :
    run receiveByteScript s
      = ({ s with
          dioOut := some (Config.dioRestoreLevel s.restores), restores := s.restores + 1 } : State).received
          ((byteOfBits s.chip.answer).setWidth 32) (s.chip.afterSamples 8) (receiveEvents (byteOfBits s.chip.answer)) := by
  have hin : run [Action.dirIn] s = ({ s with dioOut := none } : State).pushEvents [.dirIn] := by
    rw [run_cons_running hr, run_nil, ← record_eq_pushEvents]; rfl
  have hout : ∀ t : State, t.running = true → run [Action.dirOut] t
      = ({ t with dioOut := some (Config.dioRestoreLevel t.restores), restores := t.restores + 1 } : State).pushEvents [.dirOut] := by
    intro t ht; rw [run_cons_running ht, run_nil, ← record_eq_pushEvents]; rfl
  have hr1 : (({ s with dioOut := none } : State).pushEvents [.dirIn]).running = true := (pushEvents_running _ _).trans hr
  have hev : rxCoreEvents (byteOfBits s.chip.answer).getLsbD = rxCoreEvents s.chip.answer := by
    unfold rxCoreEvents
    apply List.flatMap_congr
    intro j hj
    rw [getLsbD_byteOfBits _ (List.mem_range.mp hj)]
  unfold receiveByteScript receiveEvents
  rw [run_append, run_append, hin, run_rxCore hr1 rfl, hout _ ((received_running ..).trans hr1), hev]
  simp only [State.received, State.pushEvents, MStep.add_add]
  simp [Nat.add_comm]

/-- While the chip presents KEYS from the start of a byte, RECEIVE_BYTE returns KEYS[KI] (44 R207). -/
theorem answer_presenting {c : Receiver} (hp : c.presenting = true) (hj : c.kj = 0) :
    byteOfBits c.answer = c.keys.byte c.ki ∧ c.afterSamples 8 = { c with ki := c.ki + 1 } := by
  have hcond : c.reading = true ∧ c.inFrame = true ∧ c.frame = .scan ∧ c.ki < Config.nKeyBytes := by
    simpa [Receiver.presenting] using hp
  have hs : ∀ n, n ≤ 7 → c.afterSamples n = { c with kj := n } := by
    intro n
    induction n with
    | zero => intro _; simp [Receiver.afterSamples, ← hj]
    | succ n ih =>
      intro hn
      rw [Receiver.afterSamples, ih (by omega)]
      have h7 : n ≠ 7 := by omega
      simp [Receiver.afterSample, Receiver.presenting, hcond, Receiver.advanceKey, h7]
  constructor
  · apply BitVec.eq_of_getLsbD_eq
    intro i hi
    rw [getLsbD_byteOfBits _ hi, Receiver.answer, hs i (by omega)]
    simp [Receiver.sampleLevel, Receiver.presenting, hcond]
  · rw [Receiver.afterSamples, hs 7 (by omega)]
    simp [Receiver.afterSample, Receiver.presenting, hcond, Receiver.advanceKey, ← hj]

/-- While the chip presents nothing, RECEIVE_BYTE returns the next eight levels of the line (40 R105). -/
theorem answer_line {c : Receiver} (hp : c.presenting = false) :
    byteOfBits c.answer = c.lineByte 0 ∧ c.afterSamples 8 = c.dropLine 8 := by
  have hs : ∀ n, c.afterSamples n = c.dropLine n := by
    intro n
    induction n with
    | zero => simp [Receiver.afterSamples, Receiver.dropLine]
    | succ n ih =>
      rw [Receiver.afterSamples, ih]
      have : (c.dropLine n).presenting = false := hp
      simp only [Receiver.afterSample, this]
      simp [Receiver.dropLine, Nat.add_assoc]
  refine ⟨?_, hs 8⟩
  unfold Receiver.lineByte
  congr 1
  funext j
  have : (c.dropLine j).presenting = false := hp
  rw [Receiver.answer, hs j]
  simp only [Receiver.sampleLevel, this]
  simp [Receiver.lineAt, Receiver.dropLine, List.getElem?_drop]

end Sys2Proof.Machine
end

