-- ==== Sys2Proof/Laws/Frames.lean ====
section
/-! SUPPORT. What the receiver makes of whole frames sent from an idle bus (44 R202 to R210): one closed form per frame shape of 30
R71. -/

namespace Sys2Proof.Machine

/-- The receiver at the start of a frame (44 R202). -/
def Receiver.opened (c : Receiver) : Receiver := { c with inFrame := true, nbits := 0, nbytes := 0, frame := .none }

/-- The receiver at the end of a frame at a byte boundary (44 R202). -/
def Receiver.closed (c : Receiver) : Receiver := { c with inFrame := false }

/-- The receiver after a byte of an open frame. -/
def Receiver.taken (c : Receiver) (v : Byte) : Receiver := ({ c with shift := v } : Receiver).takeByte v

theorem chipStb_fall {c : Receiver} (hr : c.reading = true) : chipStb true false c = c.opened := by
  simp [chipStb, hr, Receiver.opened]

theorem chipStb_rise {c : Receiver} (hr : c.reading = true) (hn : c.nbits = 0) : chipStb false true c = c.closed := by
  simp [chipStb, hr, hn, Receiver.closed]

theorem chipStb_unread {c : Receiver} (hr : c.reading = false) (a b : Bool) : chipStb a b c = c := by
  simp [chipStb, hr]

theorem taken_frame (c : Receiver) (v : Byte) :
    (c.taken v).reading = c.reading ∧ (c.taken v).inFrame = c.inFrame ∧ (c.taken v).nbits = 0
      ∧ (c.taken v).nbytes = c.nbytes + 1 := by
  obtain ⟨h1, h2, h3, h4, -⟩ := takeByte_frame { c with shift := v } v
  exact ⟨h1, h2, h3, h4⟩

/-- Bytes sent into an open frame from a byte boundary are taken one after the other. -/
theorem foldl_seeByte_open (vs : List I32) {c : Receiver} (hr : c.reading = true) (hf : c.inFrame = true) (hn : c.nbits = 0) :
    vs.foldl Receiver.seeByte c = (vs.map lowByte).foldl Receiver.taken c := by
  induction vs generalizing c with
  | nil => rfl
  | cons v vs ih =>
    have h := taken_frame c (lowByte v)
    rw [List.foldl_cons, List.map_cons, List.foldl_cons, seeByte_open hr hf hn]
    exact ih (h.1.trans hr) (h.2.1.trans hf) h.2.2.1

theorem foldl_taken_frame (vs : List Byte) {c : Receiver} (hn : c.nbits = 0) :
    (vs.foldl Receiver.taken c).reading = c.reading ∧ (vs.foldl Receiver.taken c).inFrame = c.inFrame
      ∧ (vs.foldl Receiver.taken c).nbits = 0 := by
  induction vs generalizing c with
  | nil => exact ⟨rfl, rfl, hn⟩
  | cons v vs ih =>
    obtain ⟨h1, h2, h3, -⟩ := taken_frame c v
    obtain ⟨g1, g2, g3⟩ := ih h3
    exact ⟨g1.trans h1, g2.trans h2, g3⟩

/-- A frame sent from an idle strobe, once the reading has started: it is opened, its bytes are taken, it is closed (44 R202,
R203). -/
theorem seeFrame_read {c : Receiver} (hr : c.reading = true) (vs : List I32) :
    c.seeFrame true vs = ((vs.map lowByte).foldl Receiver.taken c.opened).closed := by
  unfold Receiver.seeFrame
  rw [chipStb_fall hr, foldl_seeByte_open vs (c := c.opened) hr rfl rfl]
  obtain ⟨h1, -, h3⟩ := foldl_taken_frame (vs.map lowByte) (c := c.opened) rfl
  exact chipStb_rise (h1.trans hr) h3

/-- From an idle strobe, what the receiver makes of the bits of a frame is what it makes of the frame's bytes. -/
theorem seeFrame_framed {c : Receiver} (hr : c.reading = true) (vs : List I32) :
    c.seeFrame true vs = c.framed (vs.map lowByte) := by
  obtain ⟨h1, -, h3⟩ := foldl_taken_frame (vs.map lowByte) (c := c.opened) rfl
  rw [seeFrame_read hr, Receiver.framed, chipStb_fall hr]
  exact (chipStb_rise (h1.trans hr) h3).symm

/-- Before the reading starts the receiver sees nothing (44 R215). -/
theorem seeFrame_unread {c : Receiver} (hr : c.reading = false) (old : Bool) (vs : List I32) : c.seeFrame old vs = c := by
  have h : ∀ vs : List I32, vs.foldl Receiver.seeByte c = c := by
    intro vs
    induction vs with
    | nil => rfl
    | cons v vs ih => rw [List.foldl_cons, seeByte_closed (.inl hr), ih]
  rw [Receiver.seeFrame, chipStb_unread hr, h, chipStb_unread hr]

theorem seeFrame_reading {c : Receiver} (vs : List I32) : (c.seeFrame true vs).reading = c.reading := by
  cases hr : c.reading with
  | false => rw [seeFrame_unread hr]; exact hr
  | true =>
    rw [seeFrame_read hr]
    exact (foldl_taken_frame (vs.map lowByte) (c := c.opened) rfl).1.trans hr

theorem seeData_unread {c : Receiver} (hr : c.reading = false) (old : Bool) (a d : I32) : c.seeData old a d = c := by
  rw [Receiver.seeData, seeFrame_unread hr, seeFrame_unread hr]

/-! ### The command bytes the engine sends (30 R76) -/

theorem decode_address (a : BitVec 6) : decodeBus8 (busAddress ||| a.setWidth 8) = .ok (.address a) := by
  revert a; decide

theorem decode_displayCtrl (i : BitVec 3) : decodeBus8 (displayCtrlByte i) = .ok (.displayCtrl i) := by
  revert i; decide

/-- The address byte of SEND_DATA: bits 7:6 are 1 whatever the address is, bits 5:0 are `addr[5:0]` (30 R75, 40 R108). -/
theorem lowByte_addressWord (addr : I32) : lowByte (addressWord addr) = busAddress ||| (addr.setWidth 6).setWidth 8 := by
  apply BitVec.eq_of_getLsbD_eq
  intro i hi
  have hc : ∀ j, j < 8 → (BitVec.setWidth 32 busAddress).getLsbD j = busAddress.getLsbD j := by
    intro j hj; simp [show j < 32 by omega]
  simp only [lowByte, addressWord, BitVec.getLsbD_setWidth, BitVec.getLsbD_or, hi, show i < 32 by omega, decide_true,
    Bool.true_and]
  by_cases h : i < 6
  · simp [h]
  · have : i = 6 ∨ i = 7 := by omega
    rcases this with rfl | rfl <;> simp [busAddress]

/-! ### One byte of a frame -/

/-- The command byte of a frame, one the source glosses (44 R204). -/
theorem taken_command {c : Receiver} {v : Byte} {cmd : BusCommand} (hn : c.nbytes = 0) (hd : decodeBus8 v = .ok cmd) :
    c.taken v = (({ c with shift := v } : Receiver).busCommand cmd).byteDone := by
  simp [Receiver.taken, Receiver.takeByte, Receiver.commandByte, hn, hd]

/-- A data byte the rules place (44 R209, R210). -/
theorem taken_data {c : Receiver} {v : Byte} {a : Nat} (hn : c.nbytes ≠ 0) (ha : c.dataAddress = some a) :
    c.taken v = { c with shift := v, nbits := 0, nbytes := c.nbytes + 1, ram := c.ram.write a v } := by
  have : ({ c with shift := v } : Receiver).dataAddress = some a := ha
  simp [Receiver.taken, Receiver.takeByte, Receiver.dataByte, hn, this, Receiver.store, Receiver.byteDone]

/-- A data byte the rules place nowhere (44 R211). -/
theorem taken_unplaced {c : Receiver} {v : Byte} (hn : c.nbytes ≠ 0) (ha : c.dataAddress = none) :
    c.taken v = { c with shift := v, nbits := 0, nbytes := c.nbytes + 1, unknown := true } := by
  have : ({ c with shift := v } : Receiver).dataAddress = none := ha
  simp [Receiver.taken, Receiver.takeByte, Receiver.dataByte, hn, this, Receiver.setUnknown, Receiver.byteDone]

/-- A display address command in an open frame (44 R209). -/
theorem taken_address {c : Receiver} {a : BitVec 6} (hn : c.nbytes = 0) (ha : a.toNat < Config.ramBytes) :
    c.taken (busAddress ||| a.setWidth 8)
      = { c with
          shift := busAddress ||| a.setWidth 8, nbits := 0, nbytes := 1, aptr := some (a.setWidth 4), frame := .address } := by
  rw [taken_command hn (decode_address a)]
  simp only [Receiver.busCommand, Receiver.address, if_pos ha, Receiver.byteDone, hn, Nat.zero_add]

/-- An address command outside the display RAM (44 R211). -/
theorem taken_outside {c : Receiver} {a : BitVec 6} (hn : c.nbytes = 0) (ha : Config.ramBytes ≤ a.toNat) :
    c.taken (busAddress ||| a.setWidth 8)
      = { c with
          shift := busAddress ||| a.setWidth 8, nbits := 0, nbytes := 1, unknown := true, frame := .other } := by
  rw [taken_command hn (decode_address a)]
  simp only [Receiver.busCommand, Receiver.address, if_neg (Nat.not_lt.mpr ha), Receiver.byteDone, hn, Nat.zero_add]

/-! ### SEND_DATA from an idle strobe (44 R206, R209, R211) -/

/-- The first frame: WMODE <- FIXED. -/
theorem seeFrame_fixed {c : Receiver} (hr : c.reading = true) :
    c.seeFrame true [busDataWriteFixed.setWidth 32]
      = { c with inFrame := false, shift := busDataWriteFixed, nbits := 0, nbytes := 1, wmode := .fixed, frame := .other } := by
  rw [seeFrame_read hr]
  have hl : lowByte (busDataWriteFixed.setWidth 32) = busDataWriteFixed := by decide
  have hd : decodeBus8 busDataWriteFixed = .ok .dataWriteFixed := by decide
  simp only [List.map_cons, List.map_nil, List.foldl_cons, List.foldl_nil, hl]
  rw [taken_command rfl hd]
  rfl

/-- A display address keeps its value in APTR's four bits. -/
theorem toNat_aptr {a : BitVec 6} (ha : a.toNat < Config.ramBytes) : (a.setWidth 4).toNat = a.toNat := by
  rw [BitVec.toNat_setWidth]; exact Nat.mod_eq_of_lt ha

/-- The receiver after SEND_DATA to a display address (a in 0..15): WMODE = FIXED, APTR = a, RAM[a] = d (44 R206, R209). -/
theorem seeData_display {c : Receiver} (hr : c.reading = true) (addr data : I32) {a : BitVec 6} (hx : addr.setWidth 6 = a)
    (ha : a.toNat < Config.ramBytes) :
    c.seeData true addr data
      = { c with
          inFrame := false, shift := lowByte data, nbits := 0, nbytes := 2, wmode := .fixed, frame := .address
          aptr := some (a.setWidth 4), ram := c.ram.write a.toNat (lowByte data) } := by
  rw [Receiver.seeData, seeFrame_fixed hr, seeFrame_read (by exact hr)]
  simp only [List.map_cons, List.map_nil, List.foldl_cons, List.foldl_nil, lowByte_addressWord, hx]
  rw [taken_address rfl ha]
  rw [taken_data (a := a.toNat) (by simp) (by simp only [Receiver.opened, Receiver.dataAddress, if_pos, toNat_aptr ha])]
  rfl

/-- The receiver after SEND_DATA to an address outside the display RAM: the reading is UNKNOWN, and RAM is as before (44
R211). -/
theorem seeData_outside {c : Receiver} (hr : c.reading = true) (addr data : I32) {a : BitVec 6} (hx : addr.setWidth 6 = a)
    (ha : Config.ramBytes ≤ a.toNat) :
    c.seeData true addr data
      = { c with
          inFrame := false, shift := lowByte data, nbits := 0, nbytes := 2, wmode := .fixed, frame := .other, unknown := true } := by
  rw [Receiver.seeData, seeFrame_fixed hr, seeFrame_read (by exact hr)]
  simp only [List.map_cons, List.map_nil, List.foldl_cons, List.foldl_nil, lowByte_addressWord, hx]
  rw [taken_outside rfl ha, taken_unplaced (by simp) rfl]
  rfl

/-! ### ENABLE's clearing frame (44 R210) -/

/-- Zeros taken in an auto-increment frame are written to ascending addresses. -/
theorem taken_zeros (n : Nat) {c : Receiver} {a : BitVec 4} (hw : c.wmode = .auto) (hp : c.aptr = some a) (hf : c.frame = .address)
    (hb : c.nbytes ≠ 0) (hlt : a.toNat + (c.nbytes - 1) + n ≤ Config.ramBytes) :
    ((List.replicate n (0 : Byte)).foldl Receiver.taken c).ram
        = (List.range n).foldl (fun m k => m.write (a.toNat + (c.nbytes - 1) + k) 0) c.ram
      ∧ ((List.replicate n (0 : Byte)).foldl Receiver.taken c).wmode = .auto
      ∧ ((List.replicate n (0 : Byte)).foldl Receiver.taken c).aptr = some a
      ∧ ((List.replicate n (0 : Byte)).foldl Receiver.taken c).dispOn = c.dispOn
      ∧ ((List.replicate n (0 : Byte)).foldl Receiver.taken c).bright = c.bright
      ∧ ((List.replicate n (0 : Byte)).foldl Receiver.taken c).unknown = c.unknown := by
  induction n generalizing c with
  | zero => exact ⟨rfl, hw, hp, rfl, rfl, rfl⟩
  | succ n ih =>
    have hd : c.dataAddress = some (a.toNat + (c.nbytes - 1)) := by
      simp only [Receiver.dataAddress, hf, hp, hw]
      rw [if_pos (by omega)]
    rw [List.replicate_succ, List.foldl_cons, taken_data hb hd]
    obtain ⟨h1, h2, h3, h4, h5, h6⟩ := ih (c := { c with
      shift := 0, nbits := 0, nbytes := c.nbytes + 1, ram := c.ram.write (a.toNat + (c.nbytes - 1)) 0 })
      hw hp hf (by simp) (by simp only; omega)
    refine ⟨?_, h2, h3, h4, h5, h6⟩
    rw [h1, List.range_succ_eq_map, List.foldl_cons, List.foldl_map]
    simp only [Nat.add_zero]
    congr 1
    funext m k
    congr 1
    omega

/-- The 16 display bytes after ENABLE's clearing: every one is written as 0. -/
theorem read_cleared (m : Memory) (n a : Nat) (h : a < n) :
    ((List.range n).foldl (fun m k => m.write k 0) m).read a = some 0 := by
  induction n with
  | zero => omega
  | succ n ih =>
    rw [List.range_succ, List.foldl_append, List.foldl_cons, List.foldl_nil]
    by_cases ha : a = n
    · subst ha; exact Memory.read_write_same ..
    · rw [Memory.read_write_other _ _ ha]; exact ih (by omega)

end Sys2Proof.Machine
end

