-- ==== Sys2Proof/Laws/Step.lean ====
section
/-! SUPPORT. Said once: what `exec` is for each kind of instruction, what a sequence, a request and a step can do, and the
induction principles that follow. -/

namespace Sys2Proof.Machine

/-! ### Sequences -/

/-- What every action keeps while the sequencer runs, a sequence keeps. -/
theorem run_keeps {P : State → Prop} (as : List Action)
    (h : ∀ a ∈ as, ∀ s : State, s.running = true → P s → P (act a s)) {s : State} (hs : P s) : P (run as s) := by
  induction as generalizing s with
  | nil => exact hs
  | cons a as ih =>
    rw [run_cons]
    refine ih (fun b hb => h b (List.mem_cons_of_mem a hb)) ?_
    unfold runAction
    split
    · exact h a List.mem_cons_self s ‹_› hs
    · exact hs

theorem firstEvent_subset (as : List Action) : ∀ a ∈ firstEvent as, a ∈ as := by
  induction as with
  | nil => simp [firstEvent]
  | cons b as ih =>
    intro a ha
    unfold firstEvent at ha
    split at ha
    · simp_all
    · rcases List.mem_cons.mp ha with h | h
      · exact h ▸ List.mem_cons_self
      · exact List.mem_cons_of_mem b (ih a h)

theorem dropEvents_subset (k : Nat) (as : List Action) : ∀ a ∈ dropEvents k as, a ∈ as := by
  induction as generalizing k with
  | nil => cases k <;> simp [dropEvents]
  | cons b as ih =>
    cases k with
    | zero => simp [dropEvents]
    | succ k =>
      intro a ha
      unfold dropEvents at ha
      split at ha <;> exact List.mem_cons_of_mem b (ih _ a ha)

/-- What every action of the operation in progress keeps, and its completion, one step of the operation keeps. -/
theorem eventStep_keeps {P : State → Prop} {s : State}
    (h : ∀ op k, s.mstep = .running op k → ∀ a ∈ scriptOf op, ∀ u : State, u.running = true → P u → P (act a u))
    (hc : ∀ u : State, u.running = true → P u → P (complete u)) (hs : P s) : P (eventStep s) := by
  unfold eventStep
  split
  · rename_i op k hm
    split
    · unfold stepScript
      have hrun : ∀ as : List Action, (∀ a ∈ as, a ∈ scriptOf op) → P (run as s) :=
        fun as has => run_keeps as (fun a ha u hr hu => h op k hm a (has a ha) u hr hu) hs
      dsimp only
      split
      · exact hrun _ (fun a ha => dropEvents_subset _ _ a (firstEvent_subset _ a ha))
      · have hr := hrun (dropEvents k (scriptOf op)) (fun a ha => dropEvents_subset _ _ a ha)
        by_cases hq : (run (dropEvents k (scriptOf op)) s).running = true
        · exact hc _ hq hr
        · rw [complete, if_neg hq]; exact hr
    · exact hs
  · exact hs

/-! ### TB, DM and PACC belong to SET_TEXT (10 R27) -/

/-- The action writes TB, DM or PACC. -/
def Action.onText : Action → Bool
  | .setTb _ | .setDm _ | .paccClear | .paccOr _ => true
  | .stb _ | .clk _ | .dio _ | .dirIn | .dirOut | .sample | .rxClear | .rxShift | .btnClear | .btnOr _ | .btnAdd _ | .resultOfBtn32
  | .resultOfBtn64 | .setResult _ | .clearValid | .setEnabled | .startReading | .raise _ _ | .refuse _ => false

/-- Only SET_TEXT's sequence writes TB, DM and PACC. -/
theorem scriptOf_onText {op : Instr} (h : isSetText op = false) : ∀ a ∈ scriptOf op, a.onText = false := by
  have key : (scriptOf op).all (fun a => !a.onText) = true := by
    cases op with
    | setText _ => cases h
    | fontLookup ch => simp only [scriptOf, fontLookupScript]; split <;> rfl
    | pow2 n => simp only [scriptOf, pow2Script]; split <;> rfl
    | getButtons | getButtons64 => decide
    | enable _ =>
      have hb : ∀ v, (sendByteScript v).all (fun a => !a.onText) = true := fun _ => rfl
      simp only [scriptOf, enableScript, sendCommandScript, List.all_append, List.all_flatMap, hb]
      rfl
    | sendChar _ _ _ | rotateBits _ | sendByte _ | sendCommand _ | sendData _ _ | receiveByte | reserved _
    | cmdDataWriteAuto | cmdDataReadKeys | cmdDataWriteFixed | cmdDisplayCtrl _ | cmdAddress _ => rfl
  intro a ha
  simpa using List.all_eq_true.mp key a ha

/-- An action that writes none of the three leaves them alone, or, where it ends the request, empties them. -/
theorem act_text {a : Action} (h : a.onText = false) {s : State} (hs : s.tb = [] ∧ s.dm = 0 ∧ s.pacc = 0) :
    (act a s).tb = [] ∧ (act a s).dm = 0 ∧ (act a s).pacc = 0 := by
  cases a <;> first | (cases h; done) | exact hs | skip
  · simp only [act, emitDio]; split
    · exact hs
    · exact dropText_empty hs
  · simp only [act, emitSample]; split
    · exact hs
    · exact dropText_empty hs
  · exact dropText_empty hs
  · exact dropText_empty hs

/-! ### What `exec` is -/

/-- A host operation (60 R241). -/
theorem exec_hostOperation {i : Instr} (h : isHostOperation i = true) (s : State) :
    exec i s = .next (runRequest i (scriptOf i) s) := by
  cases i <;> first | rfl | cases h

/-- A host operation the engine accepts: its sequence from MSTEP = (op, 0), and the completion (60 R241). -/
theorem exec_accepted {i : Instr} (h : isHostOperation i = true) {s : State} (hr : s.ready) :
    exec i s = .next (complete (run (scriptOf i) (accept i s))) := by
  rw [exec_hostOperation h, runRequest, if_pos (canAccept_iff.mpr hr.2)]

/-- An accepted operation can send: it is running, and the data pin is an output. -/
theorem accept_sending {op : Instr} {s : State} (hr : s.ready) (hd : s.driving) : (accept op s).sending :=
  ⟨accept_running hr.2.2, dioMode_output.mp hd⟩

/-- Events sent, and registers written, leave the sequencer running. -/
theorem running_after {s t : State} (h : s.running = true) (n : Nat) (hm : t.mstep = s.mstep.add n)
    (hf : t.modelFault = s.modelFault) : t.running = true := by
  obtain ⟨h1, h2⟩ := running_iff.mp h
  refine running_iff.mpr ⟨?_, hf.trans h2⟩
  rw [hm]
  cases hms : s.mstep with
  | idle => exact absurd hms h1
  | running op k => simp

/-- A code a host may not issue, from the host's port (30 R81, R82). -/
theorem exec_refusedCode {i : Instr} (h : isRefusedCode i = true) {s : State} (hm : s.mstep = .idle) :
    exec i s = .next (refuseOpsel i s) := by
  have hk : ∀ op script, microOperation op script s = refuseOpsel op s := by
    intro op script; simp only [microOperation, hm]
  cases i with
  | sendByte _ | sendCommand _ | sendData _ _ | receiveByte => exact congrArg Host.Outcome.next (hk _ _)
  | reserved _ => rfl
  | enable _ | sendChar _ _ _ | setText _ | getButtons | getButtons64 | fontLookup _ | rotateBits _ | pow2 _ | cmdDataWriteAuto
  | cmdDataReadKeys | cmdDataWriteFixed | cmdDisplayCtrl _ | cmdAddress _ => cases h

/-- A bus command (44 R203, R204). -/
theorem exec_busCommand (cmd : BusCommand) (s : State) :
    exec cmd.toInstr s = .next { s with chip := (s.chip.busCommand cmd).byteDone } := by
  cases cmd <;> rfl

/-- What the decoded request is, and does, when the engine is free: a host operation run to its end, or a refusal. -/
theorem exec_request (r : Request) {s : State} (hr : s.ready) :
    exec (decodeHreq r) s = .next (complete (run (scriptOf (decodeHreq r)) (accept (decodeHreq r) s)))
      ∨ exec (decodeHreq r) s = .next (refuseRequest .reservedOp (accept (decodeHreq r) s)) := by
  have ha : s.canAccept = true := canAccept_iff.mpr hr.2
  have hk : isHostOperation (decodeHreq r) = true ∨ isRefusedCode (decodeHreq r) = true := by
    unfold decodeHreq
    split <;> simp [isHostOperation, isRefusedCode]
  rcases hk with h | h
  · left; rw [exec_hostOperation h, runRequest, if_pos ha]
  · right; rw [exec_refusedCode h hr.1, refuseOpsel, if_pos ha]

/-! ### What a step is -/

/-- A move of the host: nothing, or letting time pass; writing REQ, and with it, in an operation taken event by event, its
acceptance; the read of RESULT; another read. -/
def HostMove (s t : State) : Prop :=
  (∃ rest, t = { s with host := rest })
  ∨ (∃ r rest, s.ready ∧ (t = { s with host := rest, req := some r }
      ∨ isHostOperation (decodeHreq r) = true ∧ t = accept (decodeHreq r) { s with host := rest, req := some r }))
  ∨ (∃ rest, t = readResult { s with host := rest })
  ∨ ∃ rest d, t = { s with host := rest, hostData := some d }

/-- A step that answers a next state is one of: the receiver dispatching a byte; one event of an operation; the pending request; or
a move of the host. -/
theorem step_cases {s t : State} (h : step s = .next t) :
    (8 ≤ s.chip.nbits ∧ t = { s with chip := s.chip.dispatchByte })
    ∨ (s.chip.nbits < 8 ∧ s.modelFault = none ∧ s.mstep ≠ .idle ∧ ∃ rest, t = eventStep { s with host := rest })
    ∨ (s.chip.nbits < 8 ∧ s.ready ∧ ∃ r, s.req = some r ∧ exec (decodeHreq r) s = .next t)
    ∨ (s.chip.nbits < 8 ∧ HostMove s t) := by
  have hhost : ∀ (hr : (∃ r rest, s.host = .request r :: rest ∨ s.host = .start r :: rest) → s.ready), hostStep s = .next t →
      HostMove s t := by
    intro hr hq
    unfold hostStep at hq
    split at hq
    · cases hq; exact .inl ⟨s.host, rfl⟩
    · rename_i r rest hh; cases hq; exact .inr (.inl ⟨r, rest, hr ⟨r, rest, .inl hh⟩, .inl rfl⟩)
    · rename_i r rest hh
      cases hq
      refine .inr (.inl ⟨r, rest, hr ⟨r, rest, .inr hh⟩, ?_⟩)
      unfold startRequest
      split
      · exact .inr ⟨‹_›, rfl⟩
      · exact .inl rfl
    · cases hq; exact .inl ⟨_, rfl⟩
    · cases hq; exact .inr (.inr (.inl ⟨_, rfl⟩))
    · cases hq; exact .inr (.inr (.inr ⟨_, _, rfl⟩))
    · cases hq; exact .inr (.inr (.inr ⟨_, _, rfl⟩))
    · simp only [observeDisplay] at hq
      split at hq
      · cases hq; exact .inr (.inr (.inr ⟨_, _, rfl⟩))
      · cases hq
  have hread : ∀ why, stoppedStep why s = .next t → HostMove s t := by
    intro why hq
    unfold stoppedStep at hq
    split at hq
    · cases hq
    · cases hq
    · cases hq
    all_goals
      rename_i hh
      exact hhost (by rintro ⟨r, rest, h | h⟩ <;> simp [hh] at h) hq
  have hrun : runningStep s = .next t → (∃ rest, t = eventStep { s with host := rest }) ∨ HostMove s t := by
    intro hq
    unfold runningStep at hq
    split at hq
    · cases hq; exact .inl ⟨s.host, rfl⟩
    · cases hq; exact .inl ⟨s.host, rfl⟩
    · cases hq; exact .inl ⟨s.host, rfl⟩
    · cases hq; exact .inl ⟨_, rfl⟩
    all_goals
      rename_i hh
      exact .inr (hhost (by rintro ⟨r, rest, h | h⟩ <;> simp [hh] at h) hq)
  unfold step fetch at h
  split at h
  · rename_i i hi
    split at hi
    · unfold fetchByte at hi
      split at hi
      · rename_i hb hn
        split at hi
        · rename_i c hc
          cases hi
          rw [exec_busCommand] at h
          cases h
          left
          refine ⟨hb, ?_⟩
          simp [Receiver.dispatchByte, Receiver.takeByte, hn, Receiver.commandByte, hc]
        · cases hi
      · cases hi
    · rename_i hb
      split at hi
      all_goals first | (cases hi; done) | skip
      rename_i hf hm hbusy hreq
      cases hi
      exact .inr (.inr (.inl ⟨by omega, ⟨hm, hbusy, hf⟩, _, hreq, h⟩))
  · rename_i o ho
    split at ho
    · rename_i hb
      unfold fetchByte at ho
      split at ho
      · split at ho
        · cases ho
        · cases ho; cases h; exact .inl ⟨hb, rfl⟩
      · cases ho; cases h; exact .inl ⟨hb, rfl⟩
    · rename_i hb
      have hlt : s.chip.nbits < 8 := by omega
      split at ho
      · cases ho; exact .inr (.inr (.inr ⟨hlt, hread _ h⟩))
      · rename_i hf hm
        cases ho
        rcases hrun h with hq | hq
        · exact .inr (.inl ⟨hlt, hf, by simp [hm], hq⟩)
        · exact .inr (.inr (.inr ⟨hlt, hq⟩))
      · cases ho; exact .inr (.inr (.inr ⟨hlt, hread _ h⟩))
      · cases ho
      · rename_i hf hm hbusy hreq
        cases ho
        exact .inr (.inr (.inr ⟨hlt, hhost (fun _ => ⟨hm, hbusy, hf⟩) h⟩))

end Sys2Proof.Machine
end

