-- ==== Sys2Proof/Laws/Display.lean ====
section
/-! SUPPORT. The display operations and the key scans as closed forms: what their sequences do to a running sequencer whose data
pin is an output (41, 42). -/

namespace Sys2Proof.Machine

/-- ROTATE's table is the identity (43 R188). -/
theorem rotate_eq (v : Byte) : rotate v = v := by
  have h : v.toNat < 256 := v.isLt
  simp [rotate, rotateTable, h]

/-- A register action before more of a sequence. -/
theorem run_register {s t : State} (hr : s.running = true) {a : Action} (ha : act a s = t) : run [a] s = t := by
  rw [run_cons_running hr, run_nil, ha]

/-- The address byte SEND_CHAR sends for plane or byte pair i (41 R133, R140). -/
theorem addressByte_plane {i : Nat} (hi : i < 8) :
    lowByte (addressWord (charAddress (BitVec.ofNat 32 i))) = 0xC0 ||| BitVec.ofNat 8 (2 * i) := by
  have : ∀ i < 8, lowByte (addressWord (charAddress (BitVec.ofNat 32 i))) = 0xC0 ||| BitVec.ofNat 8 (2 * i) := by decide
  exact this i hi

/-- SEND_CHAR of a byte without its dot sends that byte (41 R133). -/
theorem lowByte_charData (v : Byte) : lowByte (charData (v.setWidth 32) false) = v := by
  simp [lowByte, charData]

/-- SEND_CHAR(i, v, 0) for i in 0..7, as `setText` uses it (41 R140, R145). -/
theorem run_charByte {s : State} (h : s.sending) {i : Nat} (hi : i < 8) (v : Byte) :
    run (charScript (BitVec.ofNat 32 i) (v.setWidth 32) false) s
      = s.sent true (v.getLsbD 7)
          (s.chip.seeData s.stb (charAddress (BitVec.ofNat 32 i)) (charData (v.setWidth 32) false))
          (dataFrames (0xC0 ||| BitVec.ofNat 8 (2 * i)) v) := by
  rw [charScript, run_sendData h, addressByte_plane hi, lowByte_charData]
  congr 1
  simp [charData]

/-- SEND_CHAR(7, v, 0), the dot frame (41 R140). -/
theorem run_dotFrame {s : State} (h : s.sending) (v : Byte) :
    run (charScript 7 (v.setWidth 32) false) s
      = s.sent true (v.getLsbD 7) (s.chip.seeData s.stb (charAddress 7) (charData (v.setWidth 32) false)) (dataFrames 0xCE v) :=
  run_charByte h (i := 7) (by decide) v

/-- Every position of the list is blank or has a glyph. -/
def glyphsAt (tb : List CHAR) (ps : List Nat) : Prop :=
  ∀ p ∈ ps, bufferAt tb p = chSpace ∨ (font (bufferAt tb p)).isSome = true

/-- The positions of a bit-plane, where every one is blank or has a glyph: PACC takes their bits (41 R143). -/
theorem run_positions (tb : List CHAR) (i : Nat) (ps : List Nat) (hg : glyphsAt tb ps) {s : State} (hr : s.running = true) :
    run (ps.flatMap (positionScript tb i)) s
      = { s with pacc := ps.foldl (fun acc p => acc ||| planeBit i p (bufferAt tb p)) s.pacc } := by
  induction ps generalizing s with
  | nil => rfl
  | cons p ps ih =>
    have h1 : run (positionScript tb i p) s = { s with pacc := s.pacc ||| planeBit i p (bufferAt tb p) } := by
      unfold positionScript
      dsimp only
      split
      · rename_i hb
        simp [planeBit, hb]
      · rename_i hb
        rcases hg p List.mem_cons_self with h | h
        · exact absurd h hb
        · obtain ⟨m, hm⟩ := Option.isSome_iff_exists.mp h
          rw [hm]
          exact run_register hr rfl
    rw [List.flatMap_cons, run_append, h1, ih (fun q hq => hg q (List.mem_cons_of_mem p hq)) (by exact hr), List.foldl_cons]

/-- One bit-plane of SET_TEXT (41 R135 step 8, R145). -/
theorem run_plane (tb : List CHAR) {i : Nat} (hi : i < 8) (hg : glyphsAt tb (List.range 8)) {s : State} (h : s.sending) :
    run (planeScript tb i) s
      = ({ s with pacc := planeByte tb i } : State).sent true ((planeByte tb i).getLsbD 7)
          (s.chip.seeData s.stb (charAddress (BitVec.ofNat 32 i)) (charData ((planeByte tb i).setWidth 32) false))
          (dataFrames (0xC0 ||| BitVec.ofNat 8 (2 * i)) (planeByte tb i)) := by
  rw [planeScript, run_append, run_append, run_register h.1 rfl, rotate_eq]
  simp only [act]
  rw [run_positions tb i _ hg (by exact h.1)]
  exact run_charByte (s := { s with pacc := planeByte tb i }) h hi _

/-- What the receiver makes of the frames of planes 0 to n - 1. -/
def Receiver.seePlanes (tb : List CHAR) (n : Nat) (c : Receiver) : Receiver :=
  (List.range n).foldl
    (fun c i => c.seeData true (charAddress (BitVec.ofNat 32 i)) (charData ((planeByte tb i).setWidth 32) false)) c

/-- The first n + 1 bit-planes, STB being 1 (41 R145). -/
theorem run_planes (tb : List CHAR) (hg : glyphsAt tb (List.range 8)) (n : Nat) (hn : n < 8) {s : State} (h : s.sending)
    (hs : s.stb = true) :
    run ((List.range (n + 1)).flatMap (planeScript tb)) s
      = ({ s with pacc := planeByte tb n } : State).sent true ((planeByte tb n).getLsbD 7) (s.chip.seePlanes tb (n + 1))
          ((List.range (n + 1)).flatMap (fun i => dataFrames (0xC0 ||| BitVec.ofNat 8 (2 * i)) (planeByte tb i))) := by
  induction n with
  | zero =>
    simp only [Nat.zero_add, List.range_one, List.flatMap_cons, List.flatMap_nil, List.append_nil]
    rw [run_plane tb (by decide) hg h, hs]
    rfl
  | succ n ih =>
    rw [List.range_succ, List.flatMap_append, run_append, ih (by omega)]
    simp only [List.flatMap_cons, List.flatMap_nil, List.append_nil, List.flatMap_append]
    rw [run_plane tb hn hg (sent_sending (s := { s with pacc := planeByte tb n }) h ..)]
    simp only [State.sent, Receiver.seePlanes, List.range_succ, List.foldl_append, List.foldl_cons, List.foldl_nil, MStep.add_add,
      List.reverse_append, List.append_assoc, List.length_append]

/-! ### The sequences of the host operations -/

/-- SET_TEXT's sequence up to its bit-planes: DM, the dot frame, TB (41 R135 steps 1 to 7). -/
theorem run_dotStage {s : State} (h : s.sending) (dm : Byte) (tb : List CHAR) :
    run ([.setDm dm] ++ charScript 7 (dm.setWidth 32) false ++ [.setTb tb]) s
      = { s.sent true (dm.getLsbD 7) (s.chip.seeData s.stb (charAddress 7) (charData (dm.setWidth 32) false))
            (dataFrames 0xCE dm) with dm := dm, tb := tb } := by
  obtain ⟨s1, h1⟩ : ∃ s1 : State, s1 = { s with dm := dm } := ⟨_, rfl⟩
  have hs1 : s1.sending := by rw [h1]; exact h
  rw [run_append, run_append, run_register (a := .setDm dm) h.1 h1.symm, run_dotFrame hs1, run_register ((sent_running ..).trans hs1.1) rfl, h1]
  rfl

/-- SET_TEXT's sequence where every character has a glyph (41 R135). -/
theorem run_setText {text : List CHAR} {dm : Byte} (hd : dotMask text = .ok dm) (hg : glyphsAt (textBuffer text) (List.range 8))
    {s : State} (h : s.sending) :
    run (setTextScript text) s
      = { ({ s with tb := textBuffer text, dm := dm, pacc := planeByte (textBuffer text) 6 } : State).sent true
            ((planeByte (textBuffer text) 6).getLsbD 7)
            ((s.chip.seeData s.stb (charAddress 7) (charData (dm.setWidth 32) false)).seePlanes (textBuffer text) 7)
            (textEvents dm (planeByte (textBuffer text))) with resultValid := false } := by
  obtain ⟨u, hu⟩ : ∃ u : State, u = s.sent true (dm.getLsbD 7)
      (s.chip.seeData s.stb (charAddress 7) (charData (dm.setWidth 32) false)) (dataFrames 0xCE dm) := ⟨_, rfl⟩
  have hus : u.sending := by rw [hu]; exact sent_sending h ..
  obtain ⟨s1, h1⟩ : ∃ s1 : State, s1 = { u with dm := dm, tb := textBuffer text } := ⟨_, rfl⟩
  have hs1 : s1.sending := by rw [h1]; exact hus
  have hstb : s1.stb = true := by rw [h1, hu]; rfl
  have hscript : setTextScript text = ([.setDm dm] ++ charScript 7 (dm.setWidth 32) false ++ [.setTb (textBuffer text)])
      ++ (List.range (6 + 1)).flatMap (planeScript (textBuffer text)) ++ [.clearValid] := by
    simp only [setTextScript, hd, rotate_eq]
  have hs2 : ({ s1 with pacc := planeByte (textBuffer text) 6 } : State).sending := hs1
  rw [hscript, run_append, run_append, run_dotStage h, ← hu, ← h1, run_planes (textBuffer text) hg 6 (by decide) hs1 hstb,
    run_register ((sent_running ..).trans hs2.1) rfl, h1, hu]
  simp only [act, State.sent, textEvents, MStep.add_add, List.reverse_append, List.append_assoc, List.length_append]

/-- SET_TEXT's sequence where position p is the first one without a glyph (41 R144). -/
theorem run_setText_noGlyph {text : List CHAR} {dm : Byte} {p : Nat} (hd : dotMask text = .ok dm) (hp : p < 8)
    (hc : bufferAt (textBuffer text) p ≠ chSpace) (hf : font (bufferAt (textBuffer text) p) = none)
    (hg : glyphsAt (textBuffer text) (List.range p)) {s : State} (h : s.sending) :
    run (setTextScript text) s
      = raiseInvalidArgument .noGlyph ⟨posOfInt p, some (bufferAt (textBuffer text) p)⟩
          (({ s with
              tb := textBuffer text, dm := dm
              pacc := (List.range p).foldl (fun acc q => acc ||| planeBit 0 q (bufferAt (textBuffer text) q)) 0 } : State).sent
            true (dm.getLsbD 7) (s.chip.seeData s.stb (charAddress 7) (charData (dm.setWidth 32) false)) (dataFrames 0xCE dm)) := by
  obtain ⟨u, hu⟩ : ∃ u : State, u = s.sent true (dm.getLsbD 7)
      (s.chip.seeData s.stb (charAddress 7) (charData (dm.setWidth 32) false)) (dataFrames 0xCE dm) := ⟨_, rfl⟩
  have hus : u.sending := by rw [hu]; exact sent_sending h ..
  obtain ⟨s1, h1⟩ : ∃ s1 : State, s1 = { u with dm := dm, tb := textBuffer text } := ⟨_, rfl⟩
  have hs1 : s1.sending := by rw [h1]; exact hus
  have hsplit : List.range Config.nPos = List.range p ++ p :: (List.range (7 - p)).map (fun k => p + 1 + k) := by
    have : ∀ p < 8, List.range Config.nPos = List.range p ++ p :: (List.range (7 - p)).map (fun k => p + 1 + k) := by decide
    exact this p hp
  have hplanes : List.range Config.nPlanes = 0 :: [1, 2, 3, 4, 5, 6] := by decide
  have hpos : positionScript (textBuffer text) 0 p = [.raise .noGlyph ⟨posOfInt p, some (bufferAt (textBuffer text) p)⟩] := by
    simp [positionScript, hc, hf]
  obtain ⟨tail, hscript⟩ : ∃ tail, setTextScript text
      = ([.setDm dm] ++ charScript 7 (dm.setWidth 32) false ++ [.setTb (textBuffer text)]) ++ ([.paccClear]
        ++ ((List.range p).flatMap (positionScript (textBuffer text) 0)
          ++ ([.raise .noGlyph ⟨posOfInt p, some (bufferAt (textBuffer text) p)⟩] ++ tail))) := by
    simp only [setTextScript, hd, rotate_eq, hplanes, List.flatMap_cons, planeScript, hsplit, List.flatMap_append, hpos,
      List.append_assoc]
    exact ⟨_, rfl⟩
  obtain ⟨s2, h2⟩ : ∃ s2 : State, s2 = { s1 with pacc := 0 } := ⟨_, rfl⟩
  have hs2 : s2.sending := by rw [h2]; exact hs1
  obtain ⟨s3, h3⟩ : ∃ s3 : State, s3 = { s2 with
      pacc := (List.range p).foldl (fun acc q => acc ||| planeBit 0 q (bufferAt (textBuffer text) q)) s2.pacc } := ⟨_, rfl⟩
  have hs3 : s3.sending := by rw [h3]; exact hs2
  rw [hscript, run_append, run_dotStage h, ← hu, ← h1, run_append, run_register (a := .paccClear) hs1.1 h2.symm, run_append,
    run_positions (textBuffer text) 0 _ hg hs2.1, ← h3, run_append, run_register hs3.1 rfl, act,
    run_of_not_running (raise_not_running ..), h3, h2, h1, hu]
  rfl

/-- The reading started, if it had not, and the idle-bus events of ENABLE (41 R130 step 1). -/
def Receiver.woken (c : Receiver) (stb clk : Bool) (d : Option Bool) : Receiver :=
  chipClk clk true d (chipStb stb true c.startReading)

/-- ENABLE's idle-bus events, with the start of the reading (41 R130 step 1, 44 R215). -/
theorem run_wake {s : State} (h : s.sending) :
    run [.startReading, .stb true, .clk true] s
      = ({ s with stb := true, clk := true, chip := s.chip.woken s.stb s.clk s.dioOut } : State).pushEvents
          [.stb true, .clk true] := by
  obtain ⟨s1, h1⟩ : ∃ s1 : State, s1 = { s with chip := s.chip.startReading } := ⟨_, rfl⟩
  have hs1 : s1.sending := by rw [h1]; exact h
  obtain ⟨s2, h2⟩ : ∃ s2 : State, s2 = ({ s1 with stb := true, chip := chipStb s1.stb true s1.chip } : State).pushEvents [.stb true] :=
    ⟨_, rfl⟩
  have hs2 : s2.sending := by rw [h2]; exact ⟨(pushEvents_running ..).trans hs1.1, hs1.2⟩
  have e1 : act .startReading s = s1 := h1.symm
  have e2 : act (.stb true) s1 = s2 := by rw [h2, ← record_eq_pushEvents]; rfl
  have e3 : act (.clk true) s2
      = ({ s2 with clk := true, chip := chipClk s2.clk true s2.dioOut s2.chip } : State).pushEvents [.clk true] := by
    rw [← record_eq_pushEvents]; rfl
  rw [run_cons_running h.1, e1, run_cons_running hs1.1, e2, run_cons_running hs2.1, e3, run_nil, h2, h1]
  simp only [State.pushEvents, MStep.add_add, Receiver.woken]
  rfl

/-- What the receiver makes of ENABLE's three frames (41 R130). -/
def Receiver.seeEnable (c : Receiver) (i : BitVec 3) : Receiver :=
  ((c.seeFrame true [busDataWriteAuto.setWidth 32]).seeFrame true [(displayCtrlByte i).setWidth 32]).seeFrame true
    (busAddress.setWidth 32 :: List.replicate 16 0)

/-- ENABLE's three frames, STB being 1 (41 R130). -/
theorem run_enableFrames (i : BitVec 3) {s : State} (h : s.sending) (hs : s.stb = true) :
    run (sendCommandScript (busDataWriteAuto.setWidth 32) ++ sendCommandScript ((displayCtrlByte i).setWidth 32)
        ++ ([.stb false] ++ ((busAddress.setWidth 32 :: List.replicate 15 0) ++ [(0 : I32)]).flatMap sendByteScript ++ [.stb true])) s
      = s.sent true false (s.chip.seeEnable i)
          (frameEvents [0x40] ++ frameEvents [0x88 ||| i.setWidth 8] ++ frameEvents (0xC0 :: List.replicate 16 0)) := by
  have hlow : ∀ v : Byte, lowByte (v.setWidth 32) = v := by intro v; simp [lowByte]
  have hz : ((busAddress.setWidth 32 :: List.replicate 15 0 ++ [(0 : I32)]).map lowByte) = 0xC0 :: List.replicate 16 0 := by decide
  rw [run_append (sendCommandScript (busDataWriteAuto.setWidth 32) ++ sendCommandScript ((displayCtrlByte i).setWidth 32)),
    run_append (sendCommandScript (busDataWriteAuto.setWidth 32)), run_sendCommand h, run_sendCommand (sent_sending h ..), sent_sent,
    run_frame _ _ (sent_sending h ..),
    sent_sent, hlow, hlow, hz, hs]
  rfl

/-- ENABLE's sequence (41 R130). -/
theorem run_enable (a : I32) {s : State} (h : s.sending) :
    run (enableScript a) s
      = { s.sent true false ((s.chip.woken s.stb s.clk s.dioOut).seeEnable (clampIntensity a))
            (enableEvents (clampIntensity a)) with enabled := true, resultValid := false } := by
  have hscript : enableScript a = [.startReading, .stb true, .clk true]
      ++ ((sendCommandScript (busDataWriteAuto.setWidth 32) ++ sendCommandScript ((displayCtrlByte (clampIntensity a)).setWidth 32)
        ++ ([.stb false] ++ ((busAddress.setWidth 32 :: List.replicate 15 0) ++ [(0 : I32)]).flatMap sendByteScript ++ [.stb true]))
      ++ ([.setEnabled] ++ [.clearValid])) := by
    have hz : ∀ f : I32 → List Action, f (busAddress.setWidth 32) ++ (List.range Config.ramBytes).flatMap (fun _ => f 0)
        = ((busAddress.setWidth 32 :: List.replicate 15 0) ++ [(0 : I32)]).flatMap f := fun _ => rfl
    rw [← hz]
    simp only [enableScript, List.append_assoc, List.cons_append, List.nil_append]
  obtain ⟨s1, h1⟩ : ∃ s1 : State, s1 = ({ s with
      stb := true, clk := true, chip := s.chip.woken s.stb s.clk s.dioOut } : State).pushEvents [.stb true, .clk true] := ⟨_, rfl⟩
  have hs1 : s1.sending := by rw [h1]; exact ⟨(pushEvents_running ..).trans h.1, h.2⟩
  obtain ⟨s2, h2⟩ : ∃ s2 : State, s2 = s1.sent true false (s1.chip.seeEnable (clampIntensity a))
      (frameEvents [0x40] ++ frameEvents [0x88 ||| (clampIntensity a).setWidth 8] ++ frameEvents (0xC0 :: List.replicate 16 0)) :=
    ⟨_, rfl⟩
  have hs2 : s2.sending := by rw [h2]; exact sent_sending hs1 ..
  rw [hscript, run_append, run_wake h, ← h1, run_append, run_enableFrames _ hs1 (by rw [h1]; rfl), ← h2, run_append,
    run_register hs2.1 (t := { s2 with enabled := true }) rfl, run_register (by exact hs2.1) rfl, act, h2, h1]
  simp only [State.sent, State.pushEvents, MStep.add_add, enableEvents, List.reverse_append, List.append_assoc, List.length_append]

/-- The key scans' sequence: the command, then four bytes received (42 R160, R162). -/
theorem run_keyScan_command {s : State} (h : s.sending) :
    run ([.stb false] ++ sendByteScript (busDataReadKeys.setWidth 32) ++ [.btnClear]) s
      = { s.sent false false ((chipStb s.stb false s.chip).seeByte (busDataReadKeys.setWidth 32)) ([.stb false] ++ byteEvents 0x42) with
          btnAcc := 0 } := by
  have h1 : (({ s with stb := false, chip := chipStb s.stb false s.chip } : State).pushEvents [.stb false]).sending :=
    ⟨(pushEvents_running _ _).trans h.1, h.2⟩
  rw [run_append, run_append, run_stb h.1, run_sendByte h1, run_register ((sent_running ..).trans h1.1) rfl]
  rw [show lowByte (busDataReadKeys.setWidth 32) = 0x42 from by decide, show (busDataReadKeys.setWidth 32).getLsbD 7 = false from by decide]
  simp only [act, State.sent, State.pushEvents, MStep.add_add, List.reverse_append, List.append_assoc, List.length_append]

/-- The byte the receive bit loop gets from the chip and the line, and what it leaves of them (40 R109, R111). -/
def Receiver.byteNow (c : Receiver) : Byte := byteOfBits c.answer

/-- A byte received and taken into BTN_ACC (42 R160, R162). -/
def State.scanned (f : I32 → I64 → I64) (s : State) : State :=
  { s with
    clk := true, dioOut := some (Config.dioRestoreLevel s.restores), restores := s.restores + 1
    rxAcc := s.chip.byteNow.setWidth 32, btnAcc := f (s.chip.byteNow.setWidth 32) s.btnAcc, chip := s.chip.afterSamples 8
    trace := (receiveEvents s.chip.byteNow).reverse ++ s.trace, mstep := s.mstep.add (receiveEvents s.chip.byteNow).length }

theorem scanned_running (f : I32 → I64 → I64) {s : State} (h : s.running = true) : (s.scanned f).running = true :=
  running_after h _ rfl rfl

/-- One byte of a key scan, taken up by `take` (42 R160, R162). -/
theorem run_scanByte {take : Action} {f : I32 → I64 → I64} (ht : ∀ u, act take u = { u with btnAcc := f u.rxAcc u.btnAcc })
    {s : State} (h : s.running = true) : run (receiveByteScript ++ [take]) s = s.scanned f := by
  obtain ⟨u, hu⟩ : ∃ u : State, u = ({ s with
      dioOut := some (Config.dioRestoreLevel s.restores), restores := s.restores + 1 } : State).received
      ((byteOfBits s.chip.answer).setWidth 32) (s.chip.afterSamples 8) (receiveEvents (byteOfBits s.chip.answer)) := ⟨_, rfl⟩
  have hur : u.running = true := by rw [hu]; exact (received_running ..).trans h
  rw [run_append, run_receiveByte h, ← hu, run_register hur (ht u), hu]
  rfl

/-- The four bytes of a key scan (42 R160, R162). -/
theorem run_scanBytes {take : Nat → Action} {f : Nat → I32 → I64 → I64}
    (ht : ∀ i u, act (take i) u = { u with btnAcc := f i u.rxAcc u.btnAcc }) {s : State} (h : s.running = true) :
    run ((List.range Config.nKeyBytes).flatMap (fun i => receiveByteScript ++ [take i])) s
      = (((s.scanned (f 0)).scanned (f 1)).scanned (f 2)).scanned (f 3) := by
  have h1 := scanned_running (f 0) h
  have h2 := scanned_running (f 1) h1
  have h3 := scanned_running (f 2) h2
  rw [show List.range Config.nKeyBytes = [0, 1, 2, 3] from by decide]
  simp only [List.flatMap_cons, List.flatMap_nil, List.append_nil]
  rw [run_append, run_scanByte (ht 0) h, run_append, run_scanByte (ht 1) h1, run_append, run_scanByte (ht 2) h2, run_scanByte (ht 3) h3]

end Sys2Proof.Machine
end

