-- ==== Sys2Proof/Laws/KeyScan.lean ====
section
/-! SUPPORT. What the receiver makes of ENABLE, and the key scans as closed forms: the four bytes received, their packing, and the
state they leave (41 R130; 42 R160 to R164). -/

namespace Sys2Proof.Machine

/-! ### ENABLE, seen by the receiver -/

theorem captureBit_reading (c : Receiver) (b : Bool) : (c.captureBit b).reading = c.reading := by
  unfold Receiver.captureBit
  dsimp only
  split
  · exact (takeByte_frame { c with shift := setBit c.shift c.nbits b, nbits := c.nbits + 1 } (setBit c.shift c.nbits b)).1
  · rfl

/-- From ENABLE's first event on the reading is under way (44 R215). -/
theorem woken_reading (c : Receiver) (a b : Bool) (d : Option Bool) : (c.woken a b d).reading = true := by
  have h0 : c.startReading.reading = true := by unfold Receiver.startReading; split <;> simp_all
  have h1 : ∀ x y, (chipStb x y c.startReading).reading = true := by intro x y; unfold chipStb; split <;> exact h0
  unfold Receiver.woken chipClk
  split
  · split
    · rw [captureBit_reading]; exact h1 ..
    · exact h1 ..
  · exact h1 ..

/-- What ENABLE's frames leave of a receiver whose reading is under way (44 R205, R208, R210). -/
theorem seeEnable_spec (i : BitVec 3) {c : Receiver} (hr : c.reading = true) :
    (c.seeEnable i).reading = true ∧ (c.seeEnable i).inFrame = false ∧ (c.seeEnable i).wmode = .auto
      ∧ (c.seeEnable i).aptr = some 0 ∧ (c.seeEnable i).dispOn = some true ∧ (c.seeEnable i).bright = some i
      ∧ (c.seeEnable i).unknown = c.unknown
      ∧ (c.seeEnable i).ram = (List.range 16).foldl (fun m k => m.write k 0) c.ram := by
  have hlow : ∀ v : Byte, lowByte (v.setWidth 32) = v := by intro v; simp [lowByte]
  unfold Receiver.seeEnable
  have e1 : c.seeFrame true [busDataWriteAuto.setWidth 32]
      = { c with inFrame := false, shift := busDataWriteAuto, nbits := 0, nbytes := 1, wmode := .auto, frame := .other } := by
    rw [seeFrame_read hr]
    simp only [List.map_cons, List.map_nil, List.foldl_cons, List.foldl_nil, hlow]
    rw [taken_command (cmd := .dataWriteAuto) rfl (by decide)]
    rfl
  have e2 : ∀ d : Receiver, d.reading = true → d.seeFrame true [(displayCtrlByte i).setWidth 32]
      = { d with
          inFrame := false, shift := displayCtrlByte i, nbits := 0, nbytes := 1, dispOn := some true, bright := some i
          frame := .other } := by
    intro d hd
    rw [seeFrame_read hd]
    simp only [List.map_cons, List.map_nil, List.foldl_cons, List.foldl_nil, hlow]
    rw [taken_command (cmd := .displayCtrl i) rfl (decode_displayCtrl i)]
    rfl
  rw [e1, e2 _ (by exact hr)]
  obtain ⟨d, hd⟩ : ∃ d : Receiver, d = { c with
      inFrame := false, shift := displayCtrlByte i, nbits := 0, nbytes := 1, wmode := .auto, dispOn := some true
      bright := some i, frame := .other } := ⟨_, rfl⟩
  have hdr : d.reading = true := by rw [hd]; exact hr
  obtain ⟨o, ho⟩ : ∃ o : Receiver, o = { d.opened with
      shift := busAddress ||| (0#6).setWidth 8, nbits := 0, nbytes := 1, aptr := some ((0#6).setWidth 4), frame := .address } :=
    ⟨_, rfl⟩
  have hz : ((busAddress.setWidth 32 :: List.replicate 16 (0 : I32)).map lowByte)
      = (busAddress ||| (0#6).setWidth 8) :: List.replicate 16 0 := by decide
  rw [← hd, seeFrame_read hdr, hz, List.foldl_cons, taken_address rfl (by decide), ← ho]
  obtain ⟨h1, h2, h3, h4, h5, h6⟩ := taken_zeros 16 (c := o) (a := 0) (by rw [ho, hd]; rfl) (by rw [ho]; rfl) (by rw [ho])
    (by rw [ho]; simp) (by rw [ho]; show 0 + (1 - 1) + 16 ≤ 16; decide)
  have g1 := (foldl_taken_frame (List.replicate 16 (0 : Byte)) (c := o) (by rw [ho])).1
  refine ⟨g1.trans (by rw [ho]; exact hdr), rfl, h2, h3, ?_, ?_, ?_, ?_⟩
  · exact h4.trans (by rw [ho, hd]; rfl)
  · exact h5.trans (by rw [ho, hd]; rfl)
  · exact h6.trans (by rw [ho, hd]; rfl)
  · refine h1.trans ?_
    rw [ho, hd]
    show List.foldl (fun m k => m.write (0 + (1 - 1) + k) 0) c.ram (List.range 16) = _
    congr 1
    funext m k
    congr 1
    omega

/-- Clearing the first n bytes leaves every address from n on as it was. -/
theorem read_beyond (m : Memory) (n x : Nat) (h : n ≤ x) : ((List.range n).foldl (fun m k => m.write k 0) m).read x = m.read x := by
  induction n with
  | zero => rfl
  | succ n ih =>
    rw [List.range_succ, List.foldl_append, List.foldl_cons, List.foldl_nil, Memory.read_write_other _ _ (by omega)]
    exact ih (by omega)

/-! ### Packing (42 R161, R163) -/

/-- GET_BUTTONS's accumulation of byte i: `BTN_ACC | (b_i << i)` in int32. -/
def orTake (i : Nat) (r : I32) (b : I64) : I64 := (b.setWidth 32 ||| (r <<< i)).setWidth 64

/-- GET_BUTTONS64's accumulation of byte i: `BTN_ACC + b_i * 256^i` in 64 bits. -/
def addTake (i : Nat) (r : I32) (b : I64) : I64 := b + r.setWidth 64 * BitVec.ofNat 64 (256 ^ i)

/-- The four accumulations, from BTN_ACC = 0. -/
def takeAll (f : Nat → I32 → I64 → I64) (b0 b1 b2 b3 : Byte) : I64 :=
  f 3 (b3.setWidth 32) (f 2 (b2.setWidth 32) (f 1 (b1.setWidth 32) (f 0 (b0.setWidth 32) 0)))

theorem takeAll_or (b0 b1 b2 b3 : Byte) :
    takeAll orTake b0 b1 b2 b3 = b0.setWidth 64 ||| b1.setWidth 64 <<< 1 ||| b2.setWidth 64 <<< 2 ||| b3.setWidth 64 <<< 3 := by
  apply BitVec.eq_of_getLsbD_eq
  intro i hi
  simp only [takeAll, orTake, BitVec.getLsbD_setWidth, BitVec.getLsbD_or, BitVec.getLsbD_shiftLeft]
  by_cases h : i < 32
  · have h1 : ∀ k, i - k < 32 := by intro k; omega
    have h2 : ∀ k, i - k < 64 := by intro k; omega
    simp [h, hi, h1, h2]
  · have h1 : ∀ b : Byte, ∀ k, k ≤ 3 → b.getLsbD (i - k) = false := by intro b k hk; apply BitVec.getLsbD_of_ge; omega
    have h0 : ∀ b : Byte, b.getLsbD i = false := by intro b; apply BitVec.getLsbD_of_ge; omega
    simp [h, h1, h0]

theorem or_bytes (a b c d : Nat) (ha : a < 256) (hb : b < 256) (hc : c < 256) :
    a ||| b <<< 8 ||| c <<< 16 ||| d <<< 24 = a + b * 256 + c * 65536 + d * 16777216 := by
  rw [Nat.or_comm a, ← Nat.shiftLeft_add_eq_or_of_lt (show a < 2 ^ 8 from ha), Nat.or_comm _ (c <<< 16),
    ← Nat.shiftLeft_add_eq_or_of_lt (show b <<< 8 + a < 2 ^ 16 by rw [Nat.shiftLeft_eq]; omega), Nat.or_comm _ (d <<< 24),
    ← Nat.shiftLeft_add_eq_or_of_lt (show c <<< 16 + (b <<< 8 + a) < 2 ^ 24 by rw [Nat.shiftLeft_eq, Nat.shiftLeft_eq]; omega)]
  simp only [Nat.shiftLeft_eq]
  omega

/-- Little-endian packing by OR is the sum of the bytes at their weights (42 R163). -/
theorem toNat_packed (b0 b1 b2 b3 : Byte) :
    (b0.setWidth 64 ||| b1.setWidth 64 <<< 8 ||| b2.setWidth 64 <<< 16 ||| b3.setWidth 64 <<< 24 : I64).toNat
      = b0.toNat + b1.toNat * 256 + b2.toNat * 65536 + b3.toNat * 16777216 := by
  rw [← or_bytes _ _ _ _ b0.isLt b1.isLt b2.isLt]
  have hs : ∀ (b : Byte) (k : Nat), k ≤ 24 → (b.setWidth 64 <<< k : I64).toNat = b.toNat <<< k := by
    intro b k hk
    rw [BitVec.toNat_shiftLeft, BitVec.toNat_setWidth_of_le (by decide)]
    apply Nat.mod_eq_of_lt
    rw [Nat.shiftLeft_eq]
    calc b.toNat * 2 ^ k < 2 ^ 8 * 2 ^ k := Nat.mul_lt_mul_of_pos_right b.isLt (Nat.two_pow_pos k)
      _ = 2 ^ (8 + k) := (Nat.pow_add ..).symm
      _ ≤ 2 ^ 64 := Nat.pow_le_pow_right (by decide) (by omega)
  rw [BitVec.toNat_or, BitVec.toNat_or, BitVec.toNat_or, hs _ 8 (by decide), hs _ 16 (by decide), hs _ 24 (by decide),
    BitVec.toNat_setWidth_of_le (by decide)]

theorem toNat_addTake (i c : Nat) (r : Byte) (b : I64) (hc : 256 ^ i = c) (h1 : c < 2 ^ 25) (h2 : b.toNat < 2 ^ 33) :
    (addTake i (r.setWidth 32) b).toNat = b.toNat + r.toNat * c := by
  subst hc
  have hr := r.isLt
  have hm : r.toNat * 256 ^ i < 2 ^ 33 := by
    calc r.toNat * 256 ^ i ≤ 2 ^ 8 * 256 ^ i := Nat.mul_le_mul_right _ (by omega)
      _ < 2 ^ 8 * 2 ^ 25 := Nat.mul_lt_mul_of_pos_left h1 (by decide)
      _ = 2 ^ 33 := by decide
  have h33 : (2 : Nat) ^ 33 ≤ 2 ^ 64 := Nat.pow_le_pow_right (by decide) (by decide)
  have h34 : (2 : Nat) ^ 34 ≤ 2 ^ 64 := Nat.pow_le_pow_right (by decide) (by decide)
  have h25 : (2 : Nat) ^ 25 ≤ 2 ^ 64 := Nat.pow_le_pow_right (by decide) (by decide)
  unfold addTake
  rw [BitVec.toNat_add, BitVec.toNat_mul, BitVec.toNat_setWidth_of_le (by decide), BitVec.toNat_setWidth_of_le (by decide),
    BitVec.toNat_ofNat, Nat.mod_eq_of_lt (by omega : 256 ^ i < 2 ^ 64), Nat.mod_eq_of_lt (lt_of_lt_of_le hm h33),
    Nat.mod_eq_of_lt (by omega)]

theorem takeAll_add (b0 b1 b2 b3 : Byte) :
    takeAll addTake b0 b1 b2 b3 = b0.setWidth 64 ||| b1.setWidth 64 <<< 8 ||| b2.setWidth 64 <<< 16 ||| b3.setWidth 64 <<< 24 := by
  apply BitVec.eq_of_toNat_eq
  have h0 := b0.isLt
  have h1 := b1.isLt
  have h2 := b2.isLt
  have h3 := b3.isLt
  have hz : (0 : I64).toNat = 0 := rfl
  have e0 := toNat_addTake 0 1 b0 0 (by decide) (by decide) (by rw [hz]; decide)
  have e1 := toNat_addTake 1 256 b1 _ (by decide) (by decide) (by rw [e0, hz]; omega)
  have e2 := toNat_addTake 2 65536 b2 _ (by decide) (by decide) (by rw [e1, e0, hz]; omega)
  have e3 := toNat_addTake 3 16777216 b3 _ (by decide) (by decide) (by rw [e2, e1, e0, hz]; omega)
  rw [toNat_packed, takeAll, e3, e2, e1, e0, hz]
  omega

/-! ### The scan -/

/-- The state after the command byte of a key scan: the frame is open, BTN_ACC is 0. -/
def State.commanded (s : State) : State :=
  { s.sent false false ((chipStb s.stb false s.chip).seeByte (busDataReadKeys.setWidth 32)) ([.stb false] ++ byteEvents 0x42) with
    btnAcc := 0 }

/-- The receiver after n bytes of a key scan. -/
def Receiver.afterBytes (c : Receiver) : Nat → Receiver
  | 0 => c
  | n + 1 => (c.afterBytes n).afterSamples 8

/-- Byte n of a key scan. -/
def Receiver.scanByte (c : Receiver) (n : Nat) : Byte := (c.afterBytes n).byteNow

/-- A key scan's sequence, in closed form (42 R160, R162): the four bytes are what the chip answers after the command. -/
theorem run_keyScan {take : Nat → Action} {f : Nat → I32 → I64 → I64} {res : Action} {g : I64 → I64}
    (ht : ∀ i u, act (take i) u = { u with btnAcc := f i u.rxAcc u.btnAcc })
    (hres : ∀ u, act res u = { u with result := g u.btnAcc, resultValid := true })
    {s : State} (h : s.sending) {c : Receiver} (hc : c = s.commanded.chip) {b0 b1 b2 b3 : Byte} (h0 : b0 = c.scanByte 0)
    (h1 : b1 = c.scanByte 1) (h2 : b2 = c.scanByte 2) (h3 : b3 = c.scanByte 3) :
    run (keyScanScript take res) s
      = { s with
          stb := true, clk := true, dioOut := some (Config.dioRestoreLevel (s.restores + 3)), restores := s.restores + 4
          rxAcc := b3.setWidth 32, btnAcc := takeAll f b0 b1 b2 b3, result := g (takeAll f b0 b1 b2 b3), resultValid := true
          chip := chipStb false true (c.afterBytes 4), trace := (scanEvents b0 b1 b2 b3).reverse ++ s.trace
          mstep := s.mstep.add (scanEvents b0 b1 b2 b3).length } := by
  have hr : s.commanded.running = true := running_after h.1 _ rfl rfl
  obtain ⟨u, hu⟩ : ∃ u, u = (((s.commanded.scanned (f 0)).scanned (f 1)).scanned (f 2)).scanned (f 3) := ⟨_, rfl⟩
  have hur : u.running = true := by
    rw [hu]; exact scanned_running (f 3) (scanned_running (f 2) (scanned_running (f 1) (scanned_running (f 0) hr)))
  have hsc : keyScanScript take res = ([.stb false] ++ sendByteScript (busDataReadKeys.setWidth 32) ++ [.btnClear])
      ++ ((List.range Config.nKeyBytes).flatMap (fun i => receiveByteScript ++ [take i]) ++ ([.stb true] ++ [res])) := by
    simp [keyScanScript]
  have hcmd : run ([.stb false] ++ sendByteScript (busDataReadKeys.setWidth 32) ++ [.btnClear]) s = s.commanded :=
    run_keyScan_command h
  obtain ⟨v, hv⟩ : ∃ v, v = ({ u with stb := true, chip := chipStb u.stb true u.chip } : State).pushEvents [.stb true] := ⟨_, rfl⟩
  have hvr : v.running = true := by rw [hv]; exact running_after hur 1 rfl rfl
  rw [hsc, run_append, hcmd, run_append, run_scanBytes ht hr, ← hu, run_append, run_stb hur, ← hv, run_register hvr (hres v), hv, hu,
    h0, h1, h2, h3, hc]
  simp only [State.scanned, State.commanded, State.sent, State.pushEvents, MStep.add_add, scanEvents, Receiver.scanByte,
    Receiver.afterBytes, takeAll, List.reverse_append, List.append_assoc, List.length_append]
  rfl

end Sys2Proof.Machine
end

