-- ==== Sys2Proof/Laws/PerInstr.lean ====
section
/-! SUPPORT. Per-instruction laws of the encoding. The family EncodeKind: a host request's code is a control
word with its two ports, a bus command's code is one byte (30 R70, R77). -/

namespace Sys2Proof.Laws.EncodeKind

/-- The code of an instruction is of its kind. -/
def Statement (i : Instr) : Prop :=
  (i.isRequest = true → ∃ r, encode i = .hreq r) ∧ (i.isRequest = false → ∃ v, encode i = .bus8 v)

theorem enable (a : I32) : Statement (.enable a) := ⟨fun _ => ⟨_, rfl⟩, fun h => (nomatch h)⟩
theorem sendChar (p d : I32) (f : Bool) : Statement (.sendChar p d f) := ⟨fun _ => ⟨_, rfl⟩, fun h => (nomatch h)⟩
theorem setText (t : List CHAR) : Statement (.setText t) := ⟨fun _ => ⟨_, rfl⟩, fun h => (nomatch h)⟩
theorem getButtons : Statement .getButtons := ⟨fun _ => ⟨_, rfl⟩, fun h => (nomatch h)⟩
theorem getButtons64 : Statement .getButtons64 := ⟨fun _ => ⟨_, rfl⟩, fun h => (nomatch h)⟩
theorem fontLookup (c : CHAR) : Statement (.fontLookup c) := ⟨fun _ => ⟨_, rfl⟩, fun h => (nomatch h)⟩
theorem rotateBits (v : I32) : Statement (.rotateBits v) := ⟨fun _ => ⟨_, rfl⟩, fun h => (nomatch h)⟩
theorem pow2 (n : I32) : Statement (.pow2 n) := ⟨fun _ => ⟨_, rfl⟩, fun h => (nomatch h)⟩
theorem sendByte (v : I32) : Statement (.sendByte v) := ⟨fun _ => ⟨_, rfl⟩, fun h => (nomatch h)⟩
theorem sendCommand (v : I32) : Statement (.sendCommand v) := ⟨fun _ => ⟨_, rfl⟩, fun h => (nomatch h)⟩
theorem sendData (a d : I32) : Statement (.sendData a d) := ⟨fun _ => ⟨_, rfl⟩, fun h => (nomatch h)⟩
theorem receiveByte : Statement .receiveByte := ⟨fun _ => ⟨_, rfl⟩, fun h => (nomatch h)⟩
theorem reserved (o : BitVec 4) : Statement (.reserved o) := ⟨fun _ => ⟨_, rfl⟩, fun h => (nomatch h)⟩
theorem cmdDataWriteAuto : Statement .cmdDataWriteAuto := ⟨fun h => (nomatch h), fun _ => ⟨_, rfl⟩⟩
theorem cmdDataReadKeys : Statement .cmdDataReadKeys := ⟨fun h => (nomatch h), fun _ => ⟨_, rfl⟩⟩
theorem cmdDataWriteFixed : Statement .cmdDataWriteFixed := ⟨fun h => (nomatch h), fun _ => ⟨_, rfl⟩⟩
theorem cmdDisplayCtrl (b : BitVec 3) : Statement (.cmdDisplayCtrl b) := ⟨fun h => (nomatch h), fun _ => ⟨_, rfl⟩⟩
theorem cmdAddress (a : BitVec 6) : Statement (.cmdAddress a) := ⟨fun h => (nomatch h), fun _ => ⟨_, rfl⟩⟩

end Sys2Proof.Laws.EncodeKind
end

