-- ==== Sys2Proof/Tests/Slice0.lean ====
section
/-! SUPPORT. The model's own tests. Expected values are the spec's: 95_test_vectors.md (V..), the encoding tables of 30_encoding.md, and
44_tm1638_bus_commands.md. Then, for every obligation that has hypotheses, a witness: a concrete state and operands that meet
them. -/

open Sys2Proof Sys2Proof.Machine

namespace Sys2Proof.Tests

/-! ### Small states -/

/-- An idle bus after the reading has started: STB = 1, CLK = 1, the data pin an output. -/
def idleState : State :=
  { State.reset with stb := true, clk := true, dioOut := some true, chip := { Receiver.start with reading := true } }

/-- The sequencer inside a host operation, a frame open. -/
def runningState : State :=
  { idleState with
    stb := false, busy := true, mstep := .running .getButtons 0
    chip := { Receiver.start with reading := true, inFrame := true } }

/-- The engine stopped by a host's read of RESULT while RESULT_VALID = 0. -/
def stoppedState : State :=
  { idleState with busy := true, err := .modelFault, modelFault := some .resultReadInvalid }

/-- The levels of some bytes on the data line, least significant bit first. -/
def levels (bs : List Byte) : List Bool := bs.flatMap (fun b => (List.range 8).map b.getLsbD)

/-- A check of the next state, false where the outcome is no next state. -/
def after (o : Host.Outcome State Fault Refusal) (p : State → Bool) : Bool :=
  match o with
  | .next s => p s
  | .fault _ => false
  | .refused _ => false

/-- The outcome is a next state. -/
def completes (o : Host.Outcome State Fault Refusal) : Bool := after o (fun _ => true)

/-- A character without a glyph: beyond every character the font table names (95 `c⊥`). -/
def noGlyphChar : Nat := 1 + (Config.fontTable.map Prod.fst).foldl Nat.max 200

theorem le_foldl_max (l : List Nat) (a : Nat) : a ≤ l.foldl Nat.max a ∧ ∀ x ∈ l, x ≤ l.foldl Nat.max a := by
  induction l generalizing a with
  | nil => simp
  | cons y l ih =>
    obtain ⟨h1, h2⟩ := ih (Nat.max a y)
    rw [List.foldl_cons]
    refine ⟨Nat.le_trans (Nat.le_max_left a y) h1, ?_⟩
    intro x hx
    rcases List.mem_cons.mp hx with h | h
    · rw [h]; exact Nat.le_trans (Nat.le_max_right a y) h1
    · exact h2 x h

theorem noGlyphChar_large : 200 < noGlyphChar :=
  Nat.lt_of_le_of_lt (le_foldl_max (Config.fontTable.map Prod.fst) 200).1 (Nat.lt_add_of_pos_left Nat.one_pos)

theorem noGlyphChar_ne {k : Nat} (hk : k ≤ 200) : noGlyphChar ≠ k :=
  Nat.ne_of_gt (Nat.lt_of_le_of_lt hk noGlyphChar_large)

/-- 43 R180: FONT is a finite table, so some character has no entry. -/
theorem test_font_noGlyph : font noGlyphChar = none := by
  have hreq : ∀ c ∈ requiredGlyphs, c ≤ 200 := by decide
  have hlook : Config.fontTable.lookup noGlyphChar = none := by
    rw [List.lookup_eq_none_iff]
    intro p hp
    have hle := (le_foldl_max (Config.fontTable.map Prod.fst) 200).2 p.1 (List.mem_map_of_mem hp)
    have hne : noGlyphChar ≠ p.1 := Nat.ne_of_gt (Nat.lt_of_le_of_lt hle (Nat.lt_add_of_pos_left Nat.one_pos))
    simpa using hne
  unfold font
  rw [if_neg (noGlyphChar_ne (by decide)), if_neg (noGlyphChar_ne (by decide)), if_neg (noGlyphChar_ne (by decide)),
    if_neg (fun hm => noGlyphChar_ne (hreq _ hm) rfl), hlook]

/-! ### WellFormed: the one check, and what it refuses -/

theorem test_wf_reserved : Instr.wf (.reserved 0xC) = true := by decide
theorem test_wf_refuses_opsel : Instr.wf (.reserved 0xB) = false := by decide

/-! ### Decoding: one word written out from 30 R77, R78 (95 V30-1) or 44 R204 for each constructor -/

theorem test_decode_enable : decodeHreq ⟨0xFFFFFFFF0, 0, []⟩ = .enable (-1) := by decide
theorem test_decode_sendChar : decodeHreq ⟨0x10000003F000000001, 0, []⟩ = .sendChar 0 0x3F true := by decide
theorem test_decode_setText : decodeHreq ⟨0x2, 0, [56]⟩ = .setText [56] := by decide
theorem test_decode_getButtons : decodeHreq ⟨0x3, 0, []⟩ = .getButtons := by decide
theorem test_decode_getButtons64 : decodeHreq ⟨0x4, 0, []⟩ = .getButtons64 := by decide
theorem test_decode_fontLookup : decodeHreq ⟨0x5, 99, []⟩ = .fontLookup 99 := by decide
theorem test_decode_rotateBits : decodeHreq ⟨0xA56, 0, []⟩ = .rotateBits 0xA5 := by decide
theorem test_decode_pow2 : decodeHreq ⟨0xFFFFFFFF7, 0, []⟩ = .pow2 (-1) := by decide
theorem test_decode_sendByte : decodeHreq ⟨0x428, 0, []⟩ = .sendByte 0x42 := by decide
theorem test_decode_sendCommand : decodeHreq ⟨0x409, 0, []⟩ = .sendCommand 0x40 := by decide
theorem test_decode_sendData : decodeHreq ⟨0x80000000EA, 0, []⟩ = .sendData 14 8 := by decide
theorem test_decode_receiveByte : decodeHreq ⟨0xB, 0, []⟩ = .receiveByte := by decide
theorem test_decode_reserved : decodeHreq ⟨0xC, 0, []⟩ = .reserved 0xC := by decide
theorem test_decode_writeAuto : decode (.bus8 0b01000000) = .ok .cmdDataWriteAuto := by decide
theorem test_decode_readKeys : decode (.bus8 0b01000010) = .ok .cmdDataReadKeys := by decide
theorem test_decode_writeFixed : decode (.bus8 0b01000100) = .ok .cmdDataWriteFixed := by decide
theorem test_decode_displayCtrl : decode (.bus8 0b10001101) = .ok (.cmdDisplayCtrl 5) := by decide
theorem test_decode_address : decode (.bus8 0b11001110) = .ok (.cmdAddress 14) := by decide
theorem test_decode_unglossed : decode (.bus8 0x80) = .error (.unglossedByte 0x80) := by decide
theorem test_tableWord_request : decodeTableWord 8 0x3 = some .getButtons := by decide
theorem test_tableWord_byte : decodeTableWord 8 0xC5 = some (.cmdAddress 5) := by decide

/-! ### One step of each instruction -/

/-- V41-1, P1: ENABLE from reset, whatever the pins' draws. -/
theorem test_enable :
    after (exec (.enable 8) State.reset) (fun s => s.bus.length == 464 && s.status == 0x10 && s.dioOut == some false
      && s.chip.bright == some 7 && !s.chip.unknown && s.chip.ram == (List.range 16).map (fun a => (a, 0))) = true := by
  decide +kernel

/-- V41-2: SEND_CHAR 0, 0x3F, 1. -/
theorem test_sendChar :
    after (exec (.sendChar 0 0x3F true) idleState) (fun s => s.bus == dataFrames 0xC0 0xBF && s.chip.ram == [(0, 0xBF)]) = true := by
  decide +kernel

/-- V41-2: SEND_CHAR -1 sends 0xFE and makes the reading UNKNOWN. -/
theorem test_sendChar_outside :
    after (exec (.sendChar (-1) 0x3F false) idleState)
      (fun s => s.bus == dataFrames 0xFE 0x3F && s.chip.unknown && s.chip.ram.isEmpty) = true := by decide +kernel

/-- V41-8: SET_TEXT "8.0". -/
theorem test_setText :
    after (exec (.setText [56, 46, 48]) idleState) (fun s => s.bus.length == 608 && s.err == .none && s.chip.ram
      == [(0, 0x0C), (2, 0x0C), (4, 0x0C), (6, 0x0C), (8, 0x0C), (10, 0x0C), (12, 0x08), (14, 0x20)]) = true := by decide +kernel

/-- 95 P3: on the board "8.0" lights '8' at position 3 and '0' at position 2, with the dot at position 5. -/
theorem test_setText_board :
    after (exec (.setText [56, 46, 48]) { idleState with enabled := true }) (fun s =>
      match s.boardReading with
      | .ok b => b == [⟨0, false⟩, ⟨0, false⟩, ⟨0x3F, false⟩, ⟨0x7F, false⟩, ⟨0, false⟩, ⟨0, true⟩, ⟨0, false⟩, ⟨0, false⟩]
      | .error _ => false) = true := by decide +kernel

/-- V41-15: `.12345678`. -/
theorem test_setText_dot :
    after (exec (.setText [46, 49, 50, 51, 52, 53, 54, 55, 56]) idleState)
      (fun s => s.bus.isEmpty && s.err == .dotPosition && s.errInfo == ⟨-1, none⟩) = true := by decide +kernel

/-- V42-1: the third row, through GET_BUTTONS. -/
theorem test_getButtons :
    after (exec .getButtons { idleState with chip := { idleState.chip with line := levels [0x10, 0x00, 0x01, 0x80] } })
      (fun s => s.bus == scanEvents 0x10 0x00 0x01 0x80 && s.result == 0x414 && s.status == 0x40) = true := by decide +kernel

/-- V42-1: the third row, through GET_BUTTONS64. -/
theorem test_getButtons64 :
    after (exec .getButtons64 { idleState with chip := { idleState.chip with line := levels [0x10, 0x00, 0x01, 0x80] } })
      (fun s => s.bus.length == 130 && s.result == 0x80010010) = true := by decide +kernel

/-- V43-1: '8'. -/
theorem test_fontLookup :
    after (exec (.fontLookup 56) idleState) (fun s => s.result == 0x7F && s.bus.isEmpty && s.status == 0x40) = true := by decide

/-- V43-2: 0x1FF. -/
theorem test_rotateBits : after (exec (.rotateBits 0x1FF) idleState) (fun s => s.result == 0xFF) = true := by decide +kernel

/-- V43-3: 30 and 31. -/
theorem test_pow2 :
    (after (exec (.pow2 30) idleState) (fun s => s.result == 0x40000000)
      && after (exec (.pow2 31) idleState) (fun s => s.result == 0x7FFFFFFF)) = true := by decide

/-- V43-3: -1. -/
theorem test_pow2_negative :
    after (exec (.pow2 (-1)) idleState) (fun s => s.status == 0x08 && s.refusalMark && !s.busy) = true := by decide

/-- V40-1: the DIO bits of 0x42. -/
theorem test_sendByte :
    after (exec (.sendByte 0x142) runningState) (fun s => s.bus == [.clk false, .dio false, .clk true, .clk false, .dio true, .clk true,
      .clk false, .dio false, .clk true, .clk false, .dio false, .clk true, .clk false, .dio false, .clk true,
      .clk false, .dio false, .clk true, .clk false, .dio true, .clk true, .clk false, .dio false, .clk true]) = true := by
  decide +kernel

/-- V60-1: SEND_BYTE from the host. -/
theorem test_sendByte_host :
    after (exec (.sendByte 0x42) idleState) (fun s => s.bus.isEmpty && s.status == 0x06 && s.refusalMark) = true := by decide

/-- V40-3: STB(0), the bits of 0x40, STB(1). -/
theorem test_sendCommand :
    after (exec (.sendCommand 0x40) runningState) (fun s => s.bus.length == 26 && s.bus.head? == some (.stb false)
      && s.bus.filterMap (fun e => match e with | .dio b => some b | _ => none)
        == [false, false, false, false, false, false, true, false]) = true := by decide +kernel

/-- V40-4: SEND_DATA(-2, 8) has the address byte 0xFE. -/
theorem test_sendData :
    after (exec (.sendData (-2) 8) runningState) (fun s => s.bus == frameEvents [0x44] ++ frameEvents [0xFE, 0x08]) = true := by
  decide +kernel

/-- V40-5: the samples 1,0,1,0,0,1,0,1. -/
theorem test_receiveByte :
    after (exec .receiveByte { runningState with
        chip := { runningState.chip with line := [true, false, true, false, false, true, false, true] } })
      (fun s => s.rxAcc == 0xA5 && s.bus.length == 26 && s.dioMode == .output) = true := by decide +kernel

/-- V60-1: the word 0xC. -/
theorem test_reserved :
    after (exec (.reserved 0xC) idleState) (fun s => s.bus.isEmpty && s.status == 0x06 && s.refusalMark) = true := by decide

/-- 44 R205. -/
theorem test_writeAuto : after (exec .cmdDataWriteAuto idleState) (fun s => s.chip.wmode == .auto) = true := by decide

/-- 44 R206. -/
theorem test_writeFixed : after (exec .cmdDataWriteFixed idleState) (fun s => s.chip.wmode == .fixed) = true := by decide

/-- 44 R207: KEYS are the 32 levels to come. -/
theorem test_readKeys :
    after (exec .cmdDataReadKeys { idleState with chip := { idleState.chip with line := levels [1, 2, 3, 0x84] } })
      (fun s => s.chip.wmode == .read && s.chip.keys == ⟨1, 2, 3, 0x84⟩ && s.chip.line.isEmpty) = true := by decide +kernel

/-- 44 R208. -/
theorem test_displayCtrl :
    after (exec (.cmdDisplayCtrl 5) idleState) (fun s => s.chip.dispOn == some true && s.chip.bright == some 5) = true := by decide

/-- 44 R209, R211: addresses 15 and 16. -/
theorem test_address :
    (after (exec (.cmdAddress 15) idleState) (fun s => s.chip.aptr == some 15 && !s.chip.unknown)
      && after (exec (.cmdAddress 16) idleState) (fun s => s.chip.aptr == none && s.chip.unknown)) = true := by decide

/-- 60 R235: RESULT read in the middle of an operation while RESULT_VALID = 0, and the operation's next move after it. -/
theorem test_readResult_running :
    after (step { runningState with host := [.readResult] })
      (fun s => s.modelFault == some .resultReadInvalid && s.busy && s.err == .modelFault && s.bus.isEmpty
        && !completes (step s)) = true := by decide

/-- 10 R28, R38; 60 R235: a model fault after ENABLE's third event leaves MSTEP there, not IDLE, so R38 says nothing of STB = 0. -/
theorem test_readResult_frame :
    after (step { idleState with
        stb := false, busy := true, req := some ⟨0x70, 0, []⟩, mstep := .running (.enable 7) 3, host := [.readResult] })
      (fun s => s.mstep == .running (.enable 7) 3 && !s.stb && s.busy && s.req == some ⟨0x70, 0, []⟩) = true := by decide

/-- 00 R12, 10 R27: a model fault in the middle of SET_TEXT ends it, and nothing of its registers survives. -/
theorem test_readResult_setText :
    after (step { runningState with
        mstep := .running (.setText [56]) 3, host := [.readResult], tb := [56], dm := 1, pacc := 1 })
      (fun s => s.mstep == .running (.setText [56]) 3 && s.busy && s.tb.isEmpty && s.dm == 0 && s.pacc == 0) = true := by decide

/-- 10 R28, R31: a host that starts an operation reads BUSY = 1 before its second event. -/
theorem test_start :
    after (step { idleState with host := [.start ⟨0x3, 0, []⟩, .wait, .readStatus] }) (fun s =>
      after (step s) (fun s => after (step s) (fun s => s.bus == [.stb false] && s.hostData == some (.status 0x01)))) = true := by
  decide

/-- 10 R27: nothing of SET_TEXT's registers survives it, and they hold its values until it completes. -/
theorem test_setText_registers :
    after (exec (.setText [56]) { idleState with tb := [1], dm := 1, pacc := 1 })
      (fun s => s.tb.isEmpty && s.dm == 0 && s.pacc == 0) = true
    ∧ (run (setTextScript [56]) (accept (.setText [56]) idleState)).tb = [32, 32, 32, 56, 32, 32, 32, 32] := by
  refine ⟨?_, ?_⟩ <;> decide +kernel

/-! ### Witnesses: the hypotheses of each obligation are met -/

theorem idle_ready : idleState.ready ∧ idleState.busIdle ∧ idleState.chip.betweenFrames := by decide
theorem reset_ready : State.reset.ready ∧ State.reset.driving ∧ State.reset.chip.reading = false := ⟨by decide, rfl, rfl⟩

theorem witness_DecodeEncodeRoundTrip : Instr.wf (.sendChar (-1) 0x3F true) = true ∧ Instr.wf (.reserved 0xF) = true := by decide
theorem witness_DecodedInstructionsWellFormed :
    decode (.hreq ⟨0xC, 0, []⟩) = .ok (.reserved 0xC) ∧ decode (.bus8 0xFF) = .ok (.cmdAddress 63) := by decide
theorem witness_BusByteDecodingExact :
    decodeBus8 0x8F = .ok (.displayCtrl 7) ∧ decodeBus8 0x90 = .error (.unglossedByte 0x90)
      ∧ decodeBus8 0xBF = .error (.unglossedByte 0xBF) ∧ decodeBus8 0xC0 = .ok (.address 0) := by decide

/-- One pair of requests per clause, equal in OPSEL and what the clause asks, different in the rest. -/
theorem witness_ControlWordFields :
    (Request.mk 0x3 0 []).opsel = (Request.mk 0x13 7 [8]).opsel ∧ (Request.mk 0x3 0 []).opsel.toNat = 3
      ∧ (Request.mk 0xF 0 []).opsel = (Request.mk 0x1F 7 [8]).opsel ∧ 12 ≤ (Request.mk 0xF 0 []).opsel.toNat
      ∧ (Request.mk 0x80000000071 0 []).opsel = (Request.mk 0x80000000071 7 [8]).opsel
      ∧ (Request.mk 0x80000000071 0 []).opsel.toNat = 1 ∧ (Request.mk 0x80000000071 0 []).a = (Request.mk 0x80000000071 7 [8]).a
      ∧ (Request.mk 0x80000000071 0 []).b = (Request.mk 0x80000000071 7 [8]).b
      ∧ (Request.mk 0x80000000071 0 []).f = (Request.mk 0x80000000071 7 [8]).f
      ∧ (Request.mk 0x2 0 [8]).opsel = (Request.mk 0x12 7 [8]).opsel ∧ (Request.mk 0x2 0 [8]).txt = (Request.mk 0x12 7 [8]).txt
      ∧ (Request.mk 0x5 7 []).opsel = (Request.mk 0x15 7 [8]).opsel ∧ (Request.mk 0x5 7 []).c = (Request.mk 0x15 7 [8]).c
      ∧ (Request.mk 0x10 0 []).opsel = (Request.mk 0x1000000010 7 []).opsel
      ∧ (Request.mk 0x10 0 []).a = (Request.mk 0x1000000010 7 []).a ∧ (Request.mk 0x10 0 []).opsel.toNat ∈ [0, 6, 7, 8, 9]
      ∧ (Request.mk 0x100000001A 0 []).opsel = (Request.mk 0x10000000100000001A 7 []).opsel
      ∧ (Request.mk 0x100000001A 0 []).a = (Request.mk 0x10000000100000001A 7 []).a
      ∧ (Request.mk 0x100000001A 0 []).b = (Request.mk 0x10000000100000001A 7 []).b := by decide

theorem witness_StepRunsDecodedInstruction :
    (let s : State := { idleState with req := some ⟨0x70, 0, []⟩ }; s.chip.nbits < 8 ∧ s.ready ∧ s.req = some ⟨0x70, 0, []⟩)
    ∧ (let s : State := { idleState with chip := { idleState.chip with shift := 0x40, nbits := 8 } }
       8 ≤ s.chip.nbits ∧ s.chip.nbytes = 0 ∧ decodeBus8 s.chip.shift = .ok .dataWriteAuto)
    ∧ decodeTableWord 8 0x0 = some (.enable 0) ∧ decodeTableWord 8 0xFF = some (.cmdAddress 63) := by decide

theorem witness_StepsBetweenInstructions :
    (runningState.chip.nbits < 8 ∧ runningState.modelFault = none ∧ runningState.mstep ≠ .idle ∧ runningState.host = [])
    ∧ (let s : State := { runningState with host := [.wait] }
       s.chip.nbits < 8 ∧ s.modelFault = none ∧ s.mstep ≠ .idle ∧ s.host = .wait :: [])
    ∧ (let s : State := { idleState with host := [.wait] }
       s.chip.nbits < 8 ∧ s.modelFault = none ∧ s.ready ∧ s.req = none ∧ s.host = .wait :: [])
    ∧ (let s : State := { idleState with host := [.start ⟨0x3, 0, []⟩] }
       s.chip.nbits < 8 ∧ s.modelFault = none ∧ s.ready ∧ s.req = none ∧ s.host = .start ⟨0x3, 0, []⟩ :: []
         ∧ isHostOperation (decodeHreq ⟨0x3, 0, []⟩) = true ∧ isHostOperation (decodeHreq ⟨0x8, 0, []⟩) = false)
    ∧ (idleState.chip.nbits < 8 ∧ idleState.modelFault = none ∧ idleState.ready ∧ idleState.req = none ∧ idleState.host = [])
    ∧ (let s : State := { idleState with host := [.request ⟨0x3, 0, []⟩] }
       s.chip.nbits < 8 ∧ s.modelFault = none ∧ s.ready ∧ s.req = none ∧ s.host = .request ⟨0x3, 0, []⟩ :: []) := by decide

theorem witness_StoppedEngineStaysStopped :
    (stoppedState.modelFault = some .resultReadInvalid ∧ stoppedState.busy = true ∧ stoppedState.err = .modelFault
      ∧ stoppedState.chip.nbits < 8 ∧ stoppedState.host = [])
    ∧ ({ stoppedState with host := [.request ⟨0x3, 0, []⟩] } : State).host = .request ⟨0x3, 0, []⟩ :: []
    ∧ ({ stoppedState with host := [.start ⟨0x3, 0, []⟩] } : State).host = .start ⟨0x3, 0, []⟩ :: []
    ∧ completes (step { stoppedState with host := [.readStatus] }) = true := by decide

theorem witness_RequestWhileBusyNotAccepted : isHostOperation (.enable 7) = true ∧ runningState.busy = true := by decide

theorem witness_StatusLayout :
    (let s : State := { idleState with host := [.readStatus] }; s.hostTurn ∧ s.host = .readStatus :: [])
    ∧ (let s : State := { runningState with host := [.readErrInfo] }; s.hostTurn ∧ s.host = .readErrInfo :: []) := by decide

theorem witness_ResultRead :
    (let s : State := { idleState with host := [.readResult] }
     s.hostTurn ∧ s.host = .readResult :: [] ∧ s.resultValid = false)
    ∧ (let s : State := { idleState with host := [.readResult], resultValid := true }
       s.hostTurn ∧ s.host = .readResult :: [] ∧ s.resultValid = true)
    ∧ (let s : State := { runningState with host := [.readResult] }
       s.hostTurn ∧ s.mstep ≠ .idle ∧ s.host = .readResult :: [] ∧ s.resultValid = false) := by decide

theorem witness_DisplayObservation :
    (let s : State := { idleState with host := [.observeDisplay] }
     s.hostTurn ∧ s.host = .observeDisplay :: [] ∧ s.enabled = false)
    ∧ (let s : State := { idleState with host := [.observeDisplay], enabled := true }
       s.hostTurn ∧ s.host = .observeDisplay :: [] ∧ s.enabled = true ∧ s.chip.unknown = false)
    ∧ (let s : State := { idleState with host := [.observeDisplay], enabled := true, chip := { idleState.chip with unknown := true } }
       s.hostTurn ∧ s.host = .observeDisplay :: [] ∧ s.enabled = true ∧ s.chip.unknown = true) := by
  decide

theorem witness_EventEffects :
    idleState.driving ∧ (let s : State := { runningState with dioOut := none }; s.dioMode = .input) := by decide

theorem witness_WrongDirectionFaults :
    (let s : State := { runningState with dioOut := none }; s.modelFault = none ∧ s.dioMode = .input)
    ∧ runningState.modelFault = none ∧ runningState.dioMode = .output := by decide

theorem witness_SendByteCompletes :
    (runningState.running = true ∧ runningState.driving ∧ runningState.chip.reading = true ∧ runningState.chip.inFrame = true
      ∧ runningState.chip.nbits = 0)
    ∧ (let s : State := { runningState with chip := Receiver.start }; s.running = true ∧ s.driving ∧ s.chip.reading = false)
    ∧ (let s : State := { runningState with chip := idleState.chip }; s.running = true ∧ s.driving ∧ s.chip.inFrame = false) := by
  decide

theorem witness_SendCommandCompletes :
    (let s : State := { runningState with chip := Receiver.start }
     s.running = true ∧ s.driving ∧ s.chip.reading = false)
    ∧ (let s : State := { runningState with stb := true, chip := idleState.chip }
       s.running = true ∧ s.driving ∧ s.stb = true ∧ s.chip.betweenFrames) := by decide

/-- The two clauses on the address at 15 and 16. -/
theorem witness_SendDataCompletes :
    (let s : State := { runningState with chip := Receiver.start }
     s.running = true ∧ s.driving ∧ s.chip.reading = false)
    ∧ (let s : State := { runningState with stb := true, chip := idleState.chip }
       s.running = true ∧ s.driving ∧ s.stb = true ∧ s.chip.betweenFrames)
    ∧ ((15 : I32).setWidth 6).toNat = 15 ∧ ((16 : I32).setWidth 6).toNat = 16 := by decide

theorem witness_ReceiveByteCompletes :
    (runningState.running = true ∧ runningState.chip.presenting = false)
    ∧ (let s : State := { runningState with chip := { runningState.chip with frame := .scan, ki := 3 } }
       s.running = true ∧ s.chip.presenting = true ∧ s.chip.kj = 0)
    ∧ (let s : State := { runningState with chip := { runningState.chip with frame := .scan, ki := 4 } }
       s.running = true ∧ s.chip.presenting = false) := by decide

theorem witness_ReceiveBitOrder :
    let s : State := { runningState with dioOut := none }; s.running = true ∧ s.dioMode = .input := by decide

theorem witness_EventCounts :
    (runningState.running = true ∧ runningState.driving)
    ∧ (let s : State := { runningState with dioOut := none }; s.running = true ∧ s.dioMode = .input) := by decide

theorem witness_RefusedCodes :
    isRefusedCode (.sendByte 0x42) = true ∧ isRefusedCode (.reserved 0xF) = true ∧ idleState.ready := by decide

theorem witness_IntensityClamp :
    (-1 : I32).toInt < 0 ∧ 0 ≤ (0 : I32).toInt ∧ (7 : I32).toInt ≤ 7 ∧ 7 < (8 : I32).toInt := by decide

theorem witness_EnableCompletes :
    (State.reset.ready ∧ State.reset.driving ∧ State.reset.chip.reading = false)
    ∧ (idleState.ready ∧ idleState.driving ∧ idleState.busIdle ∧ idleState.chip.betweenFrames) := ⟨reset_ready, by decide⟩

theorem witness_SendCharCompletes : State.reset.ready ∧ State.reset.driving ∧ State.reset.chip.reading = false := reset_ready

/-- The two clauses at the addresses where they meet, 14 (pos 7) and 16 (pos 8). -/
theorem witness_SendCharStores :
    (idleState.ready ∧ idleState.busIdle ∧ idleState.chip.betweenFrames)
    ∧ (∃ t, exec (.sendChar 7 0x80 false) idleState = .next t) ∧ ((charAddress 7).setWidth 6).toNat = 14
    ∧ (∃ t, exec (.sendChar 8 6 false) idleState = .next t) ∧ ((charAddress 8).setWidth 6).toNat = 16 :=
  ⟨idle_ready, ⟨_, rfl⟩, by decide, ⟨_, rfl⟩, by decide⟩

theorem witness_PlacementLaw :
    ((dropDots [56, 46, 48]).take 8)[1]? = some 48
    ∧ ∀ k, k < ((dropDots [56, 46, 48]).take 8).length → (1 : Nat) ≠ ((3 - (k : Int)) % 8).toNat := by decide

theorem witness_DotWeights : firstIndex [56, 46] chDot = some 1 ∧ realPos 1 2 = 7 ∧ realPos 0 15 = -7 := by decide

/-- No dot; realPos = -1; realPos = 0. -/
theorem witness_DotMaskLaw :
    chDot ∉ [56]
    ∧ (let t : List CHAR := [46, 49, 50, 51, 52, 53, 54, 55, 56]
       t[0]? = some chDot ∧ (∀ k, k < 0 → t[k]? ≠ some chDot) ∧ (0 : Int) + 8 - t.length < 0)
    ∧ (let t : List CHAR := [49, 46, 50, 51, 52, 53, 54, 55, 56]
       t[1]? = some chDot ∧ (∀ k, k < 1 → t[k]? ≠ some chDot) ∧ (1 : Int) + 8 - t.length = 0) := by decide

theorem witness_PlaneBits :
    bufferAt (textBuffer [56]) 7 = chSpace ∧ bufferAt (textBuffer [56]) 3 ≠ chSpace
      ∧ font (bufferAt (textBuffer [56]) 3) = some 0x7F := by decide

theorem witness_SetTextCompletes :
    State.reset.ready ∧ State.reset.driving ∧ State.reset.chip.reading = false ∧ dotMask [56, 46, 48] = .ok 0x20
    ∧ ∀ p, p < 8 → bufferAt (textBuffer [56, 46, 48]) p = chSpace
        ∨ (font (bufferAt (textBuffer [56, 46, 48]) p)).isSome = true :=
  ⟨reset_ready.1, reset_ready.2.1, reset_ready.2.2, by decide, by decide⟩

theorem witness_SetTextDisplay :
    idleState.ready ∧ idleState.busIdle ∧ idleState.chip.betweenFrames ∧ dotMask [56, 46, 48] = .ok 0x20
    ∧ (∀ p, p < 8 → bufferAt (textBuffer [56, 46, 48]) p = chSpace
        ∨ (font (bufferAt (textBuffer [56, 46, 48]) p)).isSome = true)
    ∧ (∃ t, exec (.setText [56, 46, 48]) idleState = .next t)
    ∧ (let s : State := { idleState with enabled := true }
      s.ready ∧ s.busIdle ∧ s.chip.betweenFrames ∧ s.enabled = true ∧ s.chip.unknown = false
        ∧ ∃ t, exec (.setText [56, 46, 48]) s = .next t) :=
  ⟨idle_ready.1, idle_ready.2.1, idle_ready.2.2, by decide, by decide, ⟨_, rfl⟩,
    idle_ready.1, idle_ready.2.1, idle_ready.2.2, rfl, rfl, ⟨_, rfl⟩⟩

theorem witness_SetTextDotError :
    idleState.ready ∧ dotMask [46, 49, 50, 51, 52, 53, 54, 55, 56] = .error (-1) ∧ -2147483648 ≤ (-1 : Int) := by decide

/-- `SET_TEXT [c⊥]` (V41-16): the character stands at position 3. -/
theorem textBuffer_noGlyph : textBuffer [noGlyphChar] = [32, 32, 32, noGlyphChar, 32, 32, 32, 32] := by
  have h : (noGlyphChar != chDot) = true := bne_iff_ne.mpr (noGlyphChar_ne (by decide))
  have hd : dropDots [noGlyphChar] = [noGlyphChar] := by simp only [dropDots, List.filter_cons, List.filter_nil, h, if_true]
  rw [textBuffer, hd]
  rfl

theorem noGlyph_noDot : dotMask [noGlyphChar] = .ok 0 := by
  have h : (noGlyphChar == chDot) = false := beq_eq_false_iff_ne.mpr (noGlyphChar_ne (by decide))
  simp only [dotMask, firstIndex, List.findIdx?_cons, h, List.findIdx?_nil]
  rfl

theorem witness_SetTextNoGlyph :
    idleState.ready ∧ idleState.driving ∧ idleState.busIdle ∧ idleState.chip.betweenFrames ∧ dotMask [noGlyphChar] = .ok 0
    ∧ bufferAt (textBuffer [noGlyphChar]) 3 ≠ chSpace ∧ font (bufferAt (textBuffer [noGlyphChar]) 3) = none
    ∧ (∀ q, q < 3 → bufferAt (textBuffer [noGlyphChar]) q = chSpace
        ∨ (font (bufferAt (textBuffer [noGlyphChar]) q)).isSome = true)
    ∧ State.reset.ready ∧ State.reset.driving ∧ State.reset.chip.reading = false := by
  have hb : bufferAt (textBuffer [noGlyphChar]) 3 = noGlyphChar := by rw [textBuffer_noGlyph]; rfl
  refine ⟨idle_ready.1, idle_ready.2.1.2.2, idle_ready.2.1, idle_ready.2.2, noGlyph_noDot, ?_, ?_, ?_, reset_ready⟩
  · rw [hb]; exact noGlyphChar_ne (by decide)
  · rw [hb]; exact test_font_noGlyph
  · intro q hq
    left
    rw [textBuffer_noGlyph]
    rcases q with _ | _ | _ | q <;> first | rfl | omega

theorem witness_SetTextOutcomes : idleState.ready ∧ idleState.driving := by decide
theorem witness_GetButtonsCompletes : State.reset.ready ∧ State.reset.driving ∧ State.reset.chip.reading = false := reset_ready
theorem witness_GetButtons64Completes : State.reset.ready ∧ State.reset.driving ∧ State.reset.chip.reading = false := reset_ready

theorem witness_KeyScansReadKeys :
    idleState.ready ∧ idleState.busIdle ∧ idleState.chip.betweenFrames ∧ (∃ t, exec .getButtons idleState = .next t)
      ∧ ∃ t, exec .getButtons64 idleState = .next t :=
  ⟨idle_ready.1, idle_ready.2.1, idle_ready.2.2, ⟨_, rfl⟩, ⟨_, rfl⟩⟩

/-- Two states whose keys are one bit apart and whose GET_BUTTONS results agree: the bytes 2, 0, 0, 0 and 0, 1, 0, 0. -/
theorem witness_PackingLaws :
    idleState.ready ∧ idleState.driving
    ∧ after (exec .getButtons { idleState with chip := { idleState.chip with line := levels [2, 0, 0, 0] } })
        (fun s => s.bus == scanEvents 2 0 0 0 && s.result == 2) = true
    ∧ after (exec .getButtons { idleState with chip := { idleState.chip with line := levels [0, 1, 0, 0] } })
        (fun s => s.bus == scanEvents 0 1 0 0 && s.result == 2) = true
    ∧ after (exec .getButtons64 { idleState with chip := { idleState.chip with line := levels [0, 1, 0, 0] } })
        (fun s => s.bus == scanEvents 0 1 0 0 && s.result == 256) = true := by
  refine ⟨by decide, by decide, ?_, ?_, ?_⟩ <;> decide +kernel

theorem witness_KeyScansDistinct : idleState.ready ∧ idleState.driving := by decide

theorem witness_FontLookupCompletes : idleState.ready ∧ font 56 = some 0x7F ∧ font noGlyphChar = none :=
  ⟨idle_ready.1, by decide, test_font_noGlyph⟩

theorem witness_RotateBitsCompletes : idleState.ready := by decide

theorem witness_Pow2Completes :
    idleState.ready ∧ 0 ≤ (0 : I32).toInt ∧ (30 : I32).toInt ≤ 30 ∧ ¬ (31 : I32).toInt ≤ 30 := by decide

theorem witness_Pow2NegativeRefused : idleState.ready ∧ (-1 : I32).toInt < 0 := by decide
theorem witness_BusCommandsComplete : (15 : BitVec 6).toNat < 16 ∧ 16 ≤ (16 : BitVec 6).toNat := by decide

theorem witness_FramingEdges :
    idleState.chip.reading = true ∧ idleState.chip.nbits = 0 ∧ ({ idleState.chip with nbits := 1 } : Receiver).nbits ≠ 0 := by decide

/-- The five clauses, at the indices and addresses where they meet. -/
theorem witness_DataBytePlacement :
    (let c : Receiver := { idleState.chip with frame := .address, aptr := some 15, wmode := .fixed, nbytes := 1 }
     c.nbytes ≠ 0 ∧ c.frame = .address ∧ c.aptr = some 15 ∧ c.wmode = .fixed ∧ c.nbytes = 1)
    ∧ (let c : Receiver := { idleState.chip with frame := .address, aptr := some 15, wmode := .fixed, nbytes := 2 }
       c.nbytes ≠ 0 ∧ c.frame = .address ∧ c.aptr = some 15 ∧ c.wmode = .fixed ∧ c.nbytes ≠ 1)
    ∧ (let c : Receiver := { idleState.chip with frame := .address, aptr := some 0, wmode := .auto, nbytes := 16 }
       c.nbytes ≠ 0 ∧ c.frame = .address ∧ c.aptr = some 0 ∧ c.wmode = .auto ∧ (0 : BitVec 4).toNat + (c.nbytes - 1) ≤ 15)
    ∧ (let c : Receiver := { idleState.chip with frame := .address, aptr := some 0, wmode := .auto, nbytes := 17 }
       c.nbytes ≠ 0 ∧ c.frame = .address ∧ c.aptr = some 0 ∧ c.wmode = .auto ∧ 15 < (0 : BitVec 4).toNat + (c.nbytes - 1))
    ∧ (let c : Receiver := { idleState.chip with frame := .scan, nbytes := 1 }; c.nbytes ≠ 0 ∧ c.frame ≠ .address) := by decide

theorem witness_UnglossedCommandUnknown :
    idleState.chip.nbytes = 0 ∧ (∀ cmd, decodeBus8 0x80 ≠ .ok cmd) ∧ 0xD0 ≤ (0xD0 : Byte).toNat := by
  refine ⟨rfl, ?_, by decide⟩
  intro cmd
  have h : decodeBus8 0x80 = .error (.unglossedByte 0x80) := by decide
  rw [h]
  exact fun hc => by cases hc

theorem witness_OutputRequestsFrame :
    (∃ t, exec (.enable 7) idleState = .next t) ∧ (∃ t, exec (.sendChar 0 0x3F true) idleState = .next t)
      ∧ (∃ t, exec (.setText [56]) idleState = .next t) ∧ (∃ t, exec .getButtons idleState = .next t)
      ∧ ∃ t, exec .getButtons64 idleState = .next t := ⟨⟨_, rfl⟩, ⟨_, rfl⟩, ⟨_, rfl⟩, ⟨_, rfl⟩, ⟨_, rfl⟩⟩

theorem witness_SilentRequestsFrame :
    (∃ t, exec (.fontLookup 56) idleState = .next t) ∧ (∃ t, exec (.rotateBits 1) idleState = .next t)
      ∧ (∃ t, exec (.pow2 5) idleState = .next t) ∧ ∃ t, exec (.reserved 0xC) idleState = .next t :=
  ⟨⟨_, rfl⟩, ⟨_, rfl⟩, ⟨_, rfl⟩, ⟨_, rfl⟩⟩

theorem witness_EngineIgnoresReceiver :
    Instr.isRequest (.enable 7) = true ∧ Instr.enable 7 ≠ .getButtons ∧ Instr.enable 7 ≠ .getButtons64
      ∧ Instr.enable 7 ≠ .receiveByte := by decide

theorem witness_EventStepsRefineExec : isHostOperation .getButtons = true ∧ idleState.canAccept = true := by decide
theorem witness_MstepCountsEvents : runningState.mstep = .running .getButtons 0 ∧ runningState.modelFault = none := by decide

theorem witness_InvariantKept :
    idleState.Inv ∧ (∃ t, step { idleState with req := some ⟨0x3, 0, []⟩ } = .next t) ∧ ∃ t, step idleState = .next t :=
  ⟨⟨⟨.nil, fun _ h => (nomatch h)⟩, by decide, by decide, by decide, by decide, by decide, by decide,
    fun _ h => (nomatch h), fun _ h => (nomatch h), rfl⟩, ⟨_, rfl⟩, ⟨_, rfl⟩⟩

theorem witness_NothingGoesBack : ∃ t, step State.reset = .next t := ⟨_, rfl⟩

theorem witness_IdleBusKept :
    idleState.mstep = .idle ∧ idleState.busIdle ∧ idleState.chip.betweenFrames
      ∧ (∃ t, step { idleState with req := some ⟨0x3, 0, []⟩ } = .next t)
      ∧ ∃ t, step { idleState with host := [.start ⟨0x3, 0, []⟩] } = .next t :=
  ⟨rfl, idle_ready.2.1, idle_ready.2.2, ⟨_, rfl⟩, ⟨_, rfl⟩⟩

end Sys2Proof.Tests
end

section
/-! PROOFS of the family 00_scope: the invariant kept by every step (O58), the host's read of RESULT (O14), and the model faults of the
data pin's direction (O17). The invariant is taken in three shares, each kept by what writes its fields: the receiver's, the control
registers' with SET_TEXT's own, and the pins' with BUS. -/

namespace Sys2Proof.Machine

/-! ### The receiver's share of the invariant -/

/-- The display memory canonical and the counters in range (20 R51, 44 R201). -/
structure Receiver.Inv (c : Receiver) : Prop where
  ramCanonical : c.ram.wf
  bitCount : c.nbits ≤ 8
  keyPosition : c.ki ≤ 4 ∧ c.kj ≤ 7

/-- A data byte is placed within the 16 display addresses (44 R209, R210). -/
theorem dataAddress_lt {c : Receiver} {a : Nat} (h : c.dataAddress = some a) : a < Config.ramBytes := by
  unfold Receiver.dataAddress at h
  split at h
  · rename_i p _ _ _
    split at h
    · cases h; exact p.isLt
    · cases h
  · split at h
    · cases h; assumption
    · cases h
  · cases h

/-- A bus command keeps the receiver's share; the read command restarts the presenting of KEYS (44 R205 to R209). -/
theorem Receiver.Inv.busCommand {c : Receiver} (hc : c.Inv) (cmd : BusCommand) : (c.busCommand cmd).Inv := by
  cases cmd with
  | dataReadKeys => exact { hc with keyPosition := ⟨Nat.zero_le _, Nat.zero_le _⟩ }
  | address a =>
    simp only [Receiver.busCommand, Receiver.address]
    split
    · exact { hc with }
    · exact { hc with }
  | dataWriteAuto | dataWriteFixed | displayCtrl _ => exact { hc with }

theorem Receiver.Inv.commandByte {c : Receiver} (hc : c.Inv) (v : Byte) : (c.commandByte v).Inv := by
  unfold Receiver.commandByte
  split
  · exact hc.busCommand _
  · exact { hc with }

theorem Receiver.Inv.dataByte {c : Receiver} (hc : c.Inv) (v : Byte) : (c.dataByte v).Inv := by
  unfold Receiver.dataByte
  split
  · exact { hc with ramCanonical := Memory.wf_write hc.ramCanonical (dataAddress_lt ‹_›) }
  · exact { hc with }

theorem Receiver.Inv.takeByte {c : Receiver} (hc : c.Inv) (v : Byte) : (c.takeByte v).Inv := by
  have hd : (if c.nbytes = 0 then c.commandByte v else c.dataByte v).Inv := by
    split
    · exact hc.commandByte v
    · exact hc.dataByte v
  exact { hd with bitCount := Nat.zero_le _ }

theorem Receiver.Inv.chipStb {c : Receiver} (hc : c.Inv) (old new : Bool) : (chipStb old new c).Inv := by
  unfold Machine.chipStb
  split
  · refine { hc with bitCount := ?_ }
    dsimp only
    split
    · exact Nat.zero_le _
    · exact hc.bitCount
  · exact hc

/-- A bit captured is counted, and the eighth is dispatched with its byte, which clears the count (44 R203). -/
theorem Receiver.Inv.captureBit {c : Receiver} (hc : c.Inv) (b : Bool) : (c.captureBit b).Inv := by
  simp only [Receiver.captureBit]
  split
  · rw [Receiver.dispatchByte, takeByte_nbits c _ _ (c.nbits + 1), ← takeByte_nbits c _ _ c.nbits]
    exact Receiver.Inv.takeByte (c := { c with shift := setBit c.shift c.nbits b }) { hc with } _
  · exact { hc with bitCount := by dsimp only; omega }

theorem Receiver.Inv.chipClk {c : Receiver} (hc : c.Inv) (old new : Bool) (d : Option Bool) :
    (chipClk old new d c).Inv := by
  unfold Machine.chipClk
  split
  · split
    · exact hc.captureBit _
    · exact hc
  · exact hc

/-- KI moves only while KEYS are presented, which is while KI < 4 (44 R207). -/
theorem Receiver.Inv.afterSample {c : Receiver} (hc : c.Inv) : c.afterSample.Inv := by
  obtain ⟨hki, hkj⟩ := hc.keyPosition
  unfold Receiver.afterSample
  split
  · rename_i hp
    have hlt : c.ki < 4 := by
      simp only [Receiver.presenting, Bool.and_eq_true, decide_eq_true_eq] at hp
      exact hp.2.2.2
    unfold Receiver.advanceKey
    split
    · exact { hc with keyPosition := ⟨hlt, Nat.zero_le _⟩ }
    · exact { hc with keyPosition := ⟨hki, by dsimp only; omega⟩ }
  · exact { hc with }

theorem Receiver.Inv.startReading {c : Receiver} (hc : c.Inv) : c.startReading.Inv := by
  unfold Receiver.startReading
  split
  · exact hc
  · exact ⟨Memory.wf_nil, Nat.zero_le _, Nat.zero_le _, Nat.zero_le _⟩

/-! ### The share of the control registers and of SET_TEXT's -/

/-- BUSY and ERR as MSTEP and the fault bit demand, and TB, DM and PACC empty but in a SET_TEXT no fault has ended (10 R27, R31, 60
R235, log 34). -/
structure State.Control (s : State) : Prop where
  runningBusy : s.mstep ≠ .idle → s.busy = true
  faultStops : s.modelFault ≠ none → s.busy = true ∧ s.err = .modelFault
  textDropped : s.mstep.inSetText = false ∨ s.modelFault ≠ none → s.tb = [] ∧ s.dm = 0 ∧ s.pacc = 0

/-- Dropping SET_TEXT's registers leaves them empty, where what is outside a SET_TEXT is empty already. -/
theorem State.Control.dropText {s : State} (hs : s.Control) :
    (dropText s).tb = [] ∧ (dropText s).dm = 0 ∧ (dropText s).pacc = 0 := by
  cases h : s.mstep.inSetText with
  | true => rw [dropText_setText h]; exact ⟨rfl, rfl, rfl⟩
  | false => exact dropText_empty (hs.textDropped (.inl h))

/-- Counting an event in MSTEP keeps the share (10 R28). -/
theorem State.Control.advance {s : State} (hs : s.Control) : ({ s with mstep := s.mstep.advance } : State).Control where
  runningBusy h := hs.runningBusy fun hm => h (by simp [hm])
  faultStops := hs.faultStops
  textDropped h := hs.textDropped (by simpa using h)

theorem State.Control.enterFault {s : State} (hs : s.Control) (f : ModelFault) : (enterFault f s).Control where
  runningBusy _ := rfl
  faultStops _ := ⟨rfl, rfl⟩
  textDropped _ := hs.dropText

/-- A request that ends without a fault meets the share whatever ERR it leaves (60 R236, R239, R241). -/
theorem State.Control.endOperation {s : State} (hs : s.Control) (hf : s.modelFault = none) (e : ErrCode) :
    ({ endOperation s with err := e } : State).Control where
  runningBusy h := absurd rfl h
  faultStops h := absurd hf h
  textDropped _ := hs.dropText

theorem State.Control.accept {s : State} (hs : s.Control) (hr : s.ready) (op : Instr) : (accept op s).Control where
  runningBusy _ := rfl
  faultStops h := absurd hr.2.2 h
  textDropped _ := hs.textDropped (.inl (by rw [hr.1]; rfl))

/-! ### The share of the pins -/

/-- The pins are what the newest events of BUS left (40 R101 to R104). -/
structure State.Latched (s : State) : Prop where
  stbLatch : ∀ b, lastStb s.trace = some b → s.stb = b
  clkLatch : ∀ b, lastClk s.trace = some b → s.clk = b
  dioLatch : dioAgrees s.trace s.dioOut = true

/-! ### The whole invariant -/

/-- The invariant is its shares, and RX_ACC a byte. -/
theorem inv_iff {s : State} : s.Inv ↔ s.chip.Inv ∧ s.rxAcc.toNat ≤ 0xFF ∧ s.Control ∧ s.Latched := by
  constructor
  · intro h
    exact ⟨{ h with }, h.rxByte, { h with }, { h with }⟩
  · rintro ⟨hc, hx, hk, hl⟩
    exact { hc, hk, hl with rxByte := hx }

theorem State.Inv.enterFault {s : State} (hs : s.Inv) (f : ModelFault) : (enterFault f s).Inv := by
  obtain ⟨hc, hx, hk, hl⟩ := inv_iff.mp hs
  exact inv_iff.mpr ⟨hc, hx, hk.enterFault f, { hl with }⟩

theorem State.Inv.endOperation {s : State} (hs : s.Inv) (hf : s.modelFault = none) (e : ErrCode) :
    ({ endOperation s with err := e } : State).Inv := by
  obtain ⟨hc, hx, hk, hl⟩ := inv_iff.mp hs
  exact inv_iff.mpr ⟨hc, hx, hk.endOperation hf e, { hl with }⟩

theorem State.Inv.accept {s : State} (hs : s.Inv) (hr : s.ready) (op : Instr) : (accept op s).Inv := by
  obtain ⟨hc, hx, hk, hl⟩ := inv_iff.mp hs
  exact inv_iff.mpr ⟨hc, hx, hk.accept hr op, { hl with }⟩

/-! ### Actions -/

/-- The weighted bit a SAMPLE sets stays within the byte (40 R109). -/
theorem toNat_or_0x80_le {v : I32} (h : v.toNat ≤ 0xFF) : (v ||| 0x80).toNat ≤ 0xFF := by
  have : v.toNat ||| 0x80 < 2 ^ 8 := Nat.or_lt_two_pow (by omega) (by decide)
  rw [BitVec.toNat_or]
  exact Nat.le_of_lt_succ this

theorem State.Inv.emitSample {s : State} (hs : s.Inv) : (emitSample s).Inv := by
  unfold Machine.emitSample
  split
  · obtain ⟨hc, hx, hk, hl⟩ := inv_iff.mp hs
    refine inv_iff.mpr ⟨hc.afterSample, ?_, { hk.advance with }, { hl with }⟩
    dsimp only [Machine.record]
    split
    · exact toNat_or_0x80_le hx
    · exact hx
  · exact hs.enterFault _

theorem State.Inv.emitDio {s : State} (hs : s.Inv) (b : Bool) : (emitDio b s).Inv := by
  unfold Machine.emitDio
  split
  · obtain ⟨hc, hx, hk, hl⟩ := inv_iff.mp hs
    exact inv_iff.mpr ⟨hc, hx, { hk.advance with }, { hl with dioLatch := beq_self_eq_true _ }⟩
  · exact hs.enterFault _

/-- A running sequencer's actions keep the invariant, where TB, DM and PACC are written only in a SET_TEXT. -/
theorem State.Inv.act {s : State} (hs : s.Inv) (hr : s.running = true) {a : Action}
    (ha : a.onText = true → s.mstep.inSetText = true) : (act a s).Inv := by
  obtain ⟨hc, hx, hk, hl⟩ := inv_iff.mp hs
  have hf : s.modelFault = none := (running_iff.mp hr).2
  have htext : a.onText = true → ¬ (s.mstep.inSetText = false ∨ s.modelFault ≠ none) := fun h => by simp [ha h, hf]
  cases a with
  | stb b =>
    exact inv_iff.mpr ⟨hc.chipStb _ _, hx, { hk.advance with },
      { hl with stbLatch := fun _ h => Option.some.inj h }⟩
  | clk b =>
    exact inv_iff.mpr ⟨hc.chipClk _ _ _, hx, { hk.advance with },
      { hl with clkLatch := fun _ h => Option.some.inj h }⟩
  | dio b => exact hs.emitDio b
  | dirIn => exact inv_iff.mpr ⟨hc, hx, { hk.advance with }, { hl with dioLatch := rfl }⟩
  | dirOut => exact inv_iff.mpr ⟨hc, hx, { hk.advance with }, { hl with dioLatch := rfl }⟩
  | sample => exact hs.emitSample
  | rxClear => exact { hs with rxByte := Nat.zero_le _ }
  | rxShift =>
    refine { hs with rxByte := ?_ }
    have : s.rxAcc.toNat >>> 1 ≤ s.rxAcc.toNat := Nat.shiftRight_le _ _
    simpa only [Machine.act, BitVec.toNat_ushiftRight] using this.trans hx
  | startReading => exact inv_iff.mpr ⟨hc.startReading, hx, { hk with }, { hl with }⟩
  | setDm _ | setTb _ | paccClear | paccOr _ => exact { hs with textDropped := fun h => absurd h (htext rfl) }
  | raise code info => exact { hs.endOperation hf code with }
  | refuse code => exact { hs.endOperation hf code with }
  | btnClear | btnOr _ | btnAdd _ | resultOfBtn32 | resultOfBtn64 | setResult _ | clearValid | setEnabled =>
    exact { hs with }

/-! ### Sequences -/

/-- A state of the operation `op`: it meets the invariant and, while it runs, MSTEP names a SET_TEXT exactly if `op` is one. -/
def State.During (op : Instr) (s : State) : Prop :=
  s.Inv ∧ (s.running = true → s.mstep.inSetText = isSetText op)

/-- An action that leaves the sequencer running leaves it in the same kind of operation. -/
theorem inSetText_act {a : Action} {s : State} (h : (act a s).running = true) :
    (act a s).mstep.inSetText = s.mstep.inSetText := by
  cases a with
  | stb _ | clk _ | dirIn | dirOut => exact inSetText_advance _
  | dio b =>
    simp only [act, emitDio]
    split
    · exact inSetText_advance _
    · rfl
  | sample =>
    simp only [act, emitSample]
    split
    · exact inSetText_advance _
    · rfl
  | raise code info => exact absurd h (by simp [act, raise_not_running])
  | refuse code => exact absurd h (by simp [act, refuse_not_running])
  | rxClear | rxShift | btnClear | btnOr _ | btnAdd _ | resultOfBtn32 | resultOfBtn64 | setResult _ | clearValid | setEnabled
  | startReading | setDm _ | setTb _ | paccClear | paccOr _ => rfl

/-- The actions of `op`'s own sequence keep a state of `op`: only SET_TEXT's write TB, DM and PACC. -/
theorem during_act {op : Instr} {a : Action} (ha : a ∈ scriptOf op) {s : State} (hr : s.running = true) (hs : s.During op) :
    (act a s).During op := by
  obtain ⟨hi, hm⟩ := hs
  have htext : a.onText = true → s.mstep.inSetText = true := by
    intro h
    rw [hm hr]
    by_contra hop
    exact absurd (scriptOf_onText (Bool.eq_false_iff.mpr hop) a ha) (by simp [h])
  exact ⟨hi.act hr htext, fun h => (inSetText_act h).trans (hm hr)⟩

theorem State.Inv.complete {s : State} (hs : s.Inv) : (complete s).Inv := by
  unfold Machine.complete
  split
  · rename_i hr
    exact hs.endOperation (running_iff.mp hr).2 .none
  · exact hs

theorem during_complete {op : Instr} {s : State} (hr : s.running = true) (hs : s.Inv) : (complete s).During op := by
  refine ⟨hs.complete, fun h => absurd h ?_⟩
  simp [complete_of_running hr, State.running]

/-- A whole operation, from its acceptance to its completion, keeps the invariant. -/
theorem inv_operation {s : State} (hs : s.Inv) (hr : s.ready) (op : Instr) : (complete (run (scriptOf op) (accept op s))).Inv := by
  have h0 : (accept op s).During op := ⟨hs.accept hr op, fun _ => rfl⟩
  obtain ⟨h, -⟩ := run_keeps (P := State.During op) (scriptOf op) (fun _ ha _ => during_act ha) h0
  exact h.complete

/-- One event of the operation in progress keeps the invariant. -/
theorem State.Inv.eventStep {s : State} (hs : s.Inv) : (eventStep s).Inv := by
  cases hm : s.mstep with
  | idle => simpa only [Machine.eventStep, hm] using hs
  | running op k =>
    have h0 : s.During op := ⟨hs, fun _ => by rw [hm]; rfl⟩
    refine (eventStep_keeps (P := State.During op) ?_ (fun u hr hu => during_complete hr hu.1) h0).1
    intro op' k' hm' a ha u
    cases hm.symm.trans hm'
    exact during_act ha

/-! ### Moves of the host -/

theorem State.Inv.readResult {s : State} (hs : s.Inv) : (readResult s).Inv := by
  unfold Machine.readResult
  split
  · exact { hs with }
  · exact hs.enterFault _

theorem State.Inv.hostMove {s t : State} (hs : s.Inv) (h : HostMove s t) : t.Inv := by
  obtain ⟨rest, rfl⟩ | ⟨r, rest, hr, rfl | ⟨-, rfl⟩⟩ | ⟨rest, rfl⟩ | ⟨rest, d, rfl⟩ := h
  · exact { hs with }
  · exact { hs with }
  · exact State.Inv.accept (s := { s with host := rest, req := some r }) { hs with } hr _
  · exact State.Inv.readResult { hs with }
  · exact { hs with }

/-- Settles O58: the four kinds of step (`step_cases`) each keep the invariant. -/
theorem invariantKept : Obligations.InvariantKept := by
  unfold Obligations.InvariantKept
  intro s t hs h
  obtain ⟨-, rfl⟩ | ⟨-, -, -, rest, rfl⟩ | ⟨-, hr, r, -, hx⟩ | ⟨-, hm⟩ := step_cases h
  · obtain ⟨hc, hx, hk, hl⟩ := inv_iff.mp hs
    exact inv_iff.mpr ⟨hc.takeByte _, hx, { hk with }, { hl with }⟩
  · exact State.Inv.eventStep { hs with }
  · rcases exec_request r hr with he | he
    · cases he.symm.trans hx
      exact inv_operation hs hr _
    · cases he.symm.trans hx
      have hf : (accept (decodeHreq r) s).modelFault = none := hr.2.2
      exact { (hs.accept hr _).endOperation hf .reservedOp with }
  · exact hs.hostMove hm

/-! ### The host's read of RESULT -/

/-- The host's action reads the port or observes the display. -/
def HostAction.isRead : HostAction → Bool
  | .readResult | .readStatus | .readErrInfo | .observeDisplay => true
  | .request _ | .start _ | .wait => false

/-- At the host's turn a read of the port is the step, in the middle of an operation and IDLE (log 27). -/
theorem step_hostRead {s : State} {a : HostAction} {rest : List HostAction} (ht : s.hostTurn) (hh : s.host = a :: rest)
    (ha : a.isRead = true) : step s = hostStep s := by
  obtain ⟨hn, hf, hm⟩ := ht
  have hb : ¬ 8 ≤ s.chip.nbits := by omega
  cases hms : s.mstep with
  | idle =>
    obtain ⟨hbusy, hreq⟩ := hm.resolve_left (not_not.mpr hms)
    simp only [step, fetch, if_neg hb, hf, hms, hbusy, hreq]
  | running op k =>
    have hrun : runningStep s = hostStep s := by
      cases a with
      | readResult | readStatus | readErrInfo | observeDisplay => simp only [runningStep, hh]
      | request _ | start _ | wait => cases ha
    simp only [step, fetch, if_neg hb, hf, hms, hrun]

/-- A fault entered while none was set, with what becomes of SET_TEXT's registers (60 R235, log 18, 34). -/
theorem enterFault_first {s : State} (hf : s.modelFault = none) (f : ModelFault) :
    enterFault f s = { dropText s with busy := true, err := .modelFault, modelFault := some f } := by
  simp only [enterFault, hf, Option.getD_none]

/-- Settles O14: the step is the read (`step_hostRead`), and a read while RESULT_VALID = 0 enters the fault. -/
theorem resultRead : Obligations.ResultRead := by
  unfold Obligations.ResultRead
  intro s rest ht hh
  have hstep : step s = .next (readResult { s with host := rest }) := by
    rw [step_hostRead ht hh rfl]
    simp only [hostStep, hh]
  rw [hstep]
  constructor
  · intro hv
    simp only [readResult, hv, if_true]
  · intro hv
    have hread : readResult { s with host := rest } = enterFault .resultReadInvalid { s with host := rest } := by
      simp only [readResult, hv, Bool.false_eq_true, if_false]
    exact congrArg Host.Outcome.next (hread.trans (enterFault_first (s := { s with host := rest }) ht.2.1 _))

/-! ### The data pin's direction -/

theorem emitDio_input {s : State} (h : s.dioMode = .input) (b : Bool) : emitDio b s = enterFault .dioWriteInInputMode s := by
  simp only [emitDio, h]

theorem emitSample_output {s : State} (h : s.dioMode = .output) : emitSample s = enterFault .sampleInOutputMode s := by
  simp only [emitSample, h]

/-- Settles O17: in the wrong direction the event is the entry of its fault. -/
theorem wrongDirectionFaults : Obligations.WrongDirectionFaults := by
  unfold Obligations.WrongDirectionFaults
  intro s b hf
  refine ⟨fun h => ?_, fun h => ?_, rfl⟩
  · rw [emitDio_input h, enterFault_first hf]
  · rw [emitSample_output h, enterFault_first hf]

end Sys2Proof.Machine
end

section
/-! PROOFS of the family 10_state: an operation taken event by event (O56, O55) and the idle bus it ends on (O60); what never goes back
(O59); the two errors of SET_TEXT (O35, O36); STATUS and the steps that run no instruction (O13, O9); and what the output requests leave
unchanged (O52). -/

namespace Sys2Proof.Machine

/-! ### The receiver's reading goes on (44 R201, R215) -/

/-- The receiver's share of what never goes back: a reading that has started goes on, and keeps its UNKNOWN (44 R201, R215). -/
structure Receiver.Sticky (c d : Receiver) : Prop where
  readingKept : c.reading = true → d.reading = true
  unknownKept : c.reading = true → c.unknown = true → d.unknown = true

theorem Receiver.Sticky.refl (c : Receiver) : c.Sticky c := ⟨id, fun _ => id⟩

theorem sticky_takeByte (c : Receiver) (v : Byte) : c.Sticky (c.takeByte v) := by
  obtain ⟨hr, -, -, -, -, hu⟩ := takeByte_frame c v
  exact ⟨hr.trans, fun _ => hu⟩

theorem sticky_chipStb (old new : Bool) (c : Receiver) : c.Sticky (chipStb old new c) := by
  unfold chipStb
  split
  · exact ⟨id, fun _ hu => by simp [hu]⟩
  · exact .refl c

theorem sticky_captureBit (c : Receiver) (b : Bool) : c.Sticky (c.captureBit b) := by
  simp only [Receiver.captureBit]
  split
  · exact { sticky_takeByte { c with shift := setBit c.shift c.nbits b, nbits := c.nbits + 1 } (setBit c.shift c.nbits b) with }
  · exact { Receiver.Sticky.refl c with }

theorem sticky_chipClk (old new : Bool) (d : Option Bool) (c : Receiver) : c.Sticky (chipClk old new d c) := by
  unfold chipClk
  split
  · split
    · exact sticky_captureBit c _
    · exact .refl c
  · exact .refl c

theorem sticky_afterSample (c : Receiver) : c.Sticky c.afterSample := by
  unfold Receiver.afterSample Receiver.advanceKey
  split
  · split <;> exact { Receiver.Sticky.refl c with }
  · exact { Receiver.Sticky.refl c with }

theorem sticky_startReading (c : Receiver) : c.Sticky c.startReading := by
  unfold Receiver.startReading
  split
  · exact .refl c
  · exact ⟨fun _ => rfl, fun h => absurd h ‹_›⟩

/-! ### What one action does to BUS and MSTEP (10 R28, R34) -/

/-- An action that emits no event leaves BUS, MSTEP and the fault bit alone, or ends the operation (60 R236, R239). -/
theorem act_register {a : Action} (ha : a.isEvent = false) (s : State) :
    (act a s).bus = s.bus ∧ (act a s).modelFault = s.modelFault
      ∧ ((act a s).mstep = s.mstep ∨ (act a s).mstep = .idle) := by
  cases a with
  | stb _ | clk _ | dio _ | dirIn | dirOut | sample => cases ha
  | raise _ _ | refuse _ => exact ⟨rfl, rfl, .inr rfl⟩
  | rxClear | rxShift | btnClear | btnOr _ | btnAdd _ | resultOfBtn32 | resultOfBtn64 | setResult _ | clearValid | setEnabled
  | startReading | setDm _ | setTb _ | paccClear | paccOr _ => exact ⟨rfl, rfl, .inl rfl⟩

/-- What an action that emits an event can do: the event is recorded, with the pins and RX_ACC written and the receiver's reading gone
on, or the data pin stands in the wrong direction and the engine faults (40 R101 to R105). -/
theorem act_event {a : Action} (ha : a.isEvent = true) (s : State) :
    (∃ e b k d x c n, s.chip.Sticky c ∧ act a s
      = record e { s with stb := b, clk := k, dioOut := d, rxAcc := x, chip := c, restores := n })
    ∨ ∃ f, act a s = enterFault f s := by
  cases a with
  | stb b => exact .inl ⟨_, _, _, _, _, _, _, sticky_chipStb s.stb b s.chip, rfl⟩
  | clk b => exact .inl ⟨_, _, _, _, _, _, _, sticky_chipClk s.clk b s.dioOut s.chip, rfl⟩
  | dirIn | dirOut => exact .inl ⟨_, _, _, _, _, _, _, .refl s.chip, rfl⟩
  | dio b =>
    simp only [act, emitDio]
    split
    · exact .inl ⟨_, _, _, _, _, _, _, .refl s.chip, rfl⟩
    · exact .inr ⟨_, rfl⟩
  | sample =>
    simp only [act, emitSample]
    split
    · exact .inl ⟨_, _, _, _, _, _, _, sticky_afterSample s.chip, rfl⟩
    · exact .inr ⟨_, rfl⟩
  | rxClear | rxShift | btnClear | btnOr _ | btnAdd _ | resultOfBtn32 | resultOfBtn64 | setResult _ | clearValid | setEnabled
  | startReading | setDm _ | setTb _ | paccClear | paccOr _ | raise _ _ | refuse _ => cases ha

/-- What one step of an operation in progress comes to (10 R28): one event, appended and counted; or none, and the operation has ended;
or none, and a model fault has stopped the engine with MSTEP as it was. -/
def EventOutcome (s t : State) : Prop :=
  (∃ e, t.bus = s.bus ++ [e] ∧ t.mstep = s.mstep.advance ∧ t.modelFault = s.modelFault)
  ∨ (t.bus = s.bus ∧ t.mstep = .idle)
  ∨ (t.bus = s.bus ∧ t.mstep = s.mstep ∧ t.modelFault ≠ none)

theorem act_event_outcome {a : Action} (ha : a.isEvent = true) (s : State) : EventOutcome s (act a s) := by
  obtain ⟨e, b, k, d, x, c, n, -, h⟩ | ⟨f, h⟩ := act_event ha s
  · exact .inl ⟨e, by rw [h, bus_record]; rfl, by rw [h]; rfl, by rw [h]; rfl⟩
  · exact .inr (.inr ⟨by rw [h]; rfl, by rw [h]; rfl, by rw [h]; exact Option.some_ne_none _⟩)

/-- The register actions up to an event, and the event. -/
theorem run_firstEvent {as : List Action} (has : as.any Action.isEvent = true) {s : State} (hr : s.running = true) :
    EventOutcome s (run (firstEvent as) s) := by
  induction as generalizing s with
  | nil => cases has
  | cons a as ih =>
    cases ha : a.isEvent with
    | true =>
      rw [firstEvent, if_pos ha, run_cons_running hr, run_nil]
      exact act_event_outcome ha s
    | false =>
      rw [firstEvent, if_neg (by simp [ha]), run_cons_running hr]
      obtain ⟨hbus, hfault, hm | hm⟩ := act_register ha s
      · have hr' : (act a s).running = true := by
          rw [running_iff, hm, hfault]
          exact running_iff.mp hr
        have h := ih (by simpa [ha] using has) hr'
        unfold EventOutcome at h
        rwa [hbus, hfault, hm] at h
      · rw [run_of_not_running (not_running_iff.mpr (.inl hm))]
        exact .inr (.inl ⟨hbus, hm⟩)

/-- A sequence without events appends nothing to BUS and faults nothing; it leaves MSTEP as it was, or ends the operation. -/
theorem run_registers {as : List Action} (has : as.any Action.isEvent = false) (s : State) :
    (run as s).bus = s.bus ∧ (run as s).modelFault = s.modelFault
      ∧ ((run as s).mstep = s.mstep ∨ (run as s).mstep = .idle) := by
  refine run_keeps (P := fun u => u.bus = s.bus ∧ u.modelFault = s.modelFault ∧ (u.mstep = s.mstep ∨ u.mstep = .idle)) as ?_
    ⟨rfl, rfl, .inl rfl⟩
  rintro a ha u - ⟨hb, hf, hm⟩
  obtain ⟨hb', hf', hm'⟩ := act_register (a := a) (by simpa using List.any_eq_false.mp has a ha) u
  refine ⟨hb'.trans hb, hf'.trans hf, ?_⟩
  rcases hm' with h | h
  · rwa [h]
  · exact .inr h

/-! ### One step of an operation in progress -/

theorem eventStep_eq_stepScript {s : State} {op : Instr} {k : Nat} (hm : s.mstep = .running op k) (hf : s.modelFault = none) :
    eventStep s = stepScript (scriptOf op) k s := by
  have hr : s.running = true := running_iff.mpr ⟨by simp [hm], hf⟩
  simp only [eventStep, hm, hr, if_true]

/-- Completion appends nothing to BUS, and leaves no operation running. -/
theorem complete_done (s : State) : (complete s).bus = s.bus ∧ (complete s).running = false := by
  cases hr : s.running with
  | true =>
    rw [complete_of_running hr]
    exact ⟨rfl, rfl⟩
  | false =>
    rw [complete_of_not_running hr]
    exact ⟨rfl, hr⟩

/-- Where no fault has stopped the engine, completion leaves it IDLE: it was, or it ends the operation. -/
theorem complete_idle {s : State} (hf : s.modelFault = none) : (complete s).mstep = .idle := by
  cases hr : s.running with
  | true => rw [complete_of_running hr]; rfl
  | false =>
    rw [complete_of_not_running hr]
    exact (not_running_iff.mp hr).resolve_right (not_not.mpr hf)

theorem eventStep_outcome {s : State} {op : Instr} {k : Nat} (hm : s.mstep = .running op k) (hf : s.modelFault = none) :
    EventOutcome s (eventStep s) := by
  rw [eventStep_eq_stepScript hm hf, stepScript]
  split
  · exact run_firstEvent ‹_› (running_iff.mpr ⟨by simp [hm], hf⟩)
  · obtain ⟨hb, hf', -⟩ := run_registers (as := dropEvents k (scriptOf op)) (Bool.eq_false_iff.mpr ‹_›) s
    exact .inr (.inl ⟨(complete_done _).1.trans hb, complete_idle (hf'.trans hf)⟩)

/-- Settles O56: a step is the register actions up to an event and the event, or the rest and the completion (`eventStep_outcome`). -/
theorem mstepCountsEvents : Obligations.MstepCountsEvents := by
  unfold Obligations.MstepCountsEvents
  intro s op k hm hf
  obtain ⟨e, hb, hm', -⟩ | h | ⟨hb, hm', hf'⟩ := eventStep_outcome hm hf
  · exact .inl ⟨e, hb, by rw [hm', hm]; rfl⟩
  · exact .inr (.inl h)
  · exact .inr (.inr ⟨hb, hm'.trans hm, hf'⟩)

/-! ### Event by event to the end (60 R241, D27) -/

/-- A sequence is its actions up to the first event, and the rest. -/
theorem firstEvent_append_dropEvents (as : List Action) : firstEvent as ++ dropEvents 1 as = as := by
  induction as with
  | nil => rfl
  | cons a as ih =>
    simp only [firstEvent, dropEvents]
    split
    · rfl
    · rw [Nat.zero_add, List.cons_append, ih]

theorem dropEvents_zero (as : List Action) : dropEvents 0 as = as := by cases as <;> rfl

theorem dropEvents_succ (k : Nat) (as : List Action) : dropEvents (k + 1) as = dropEvents 1 (dropEvents k as) := by
  induction as generalizing k with
  | nil => cases k <;> rfl
  | cons a as ih =>
    cases k with
    | zero => rfl
    | succ k =>
      cases ha : a.isEvent with
      | true => simpa only [dropEvents, ha, if_true] using ih k
      | false => simpa only [dropEvents, ha, Bool.false_eq_true, if_false] using ih (k + 1)

/-- The number of events of a sequence. -/
def eventCount (as : List Action) : Nat := as.countP Action.isEvent

theorem any_isEvent_iff {as : List Action} : as.any Action.isEvent = true ↔ 0 < eventCount as := by
  rw [eventCount, List.countP_pos_iff, List.any_eq_true]

/-- Each event dropped is one less to come. -/
theorem eventCount_dropEvents_one (as : List Action) : eventCount (dropEvents 1 as) = eventCount as - 1 := by
  induction as with
  | nil => rfl
  | cons a as ih =>
    unfold eventCount at ih ⊢
    cases ha : a.isEvent with
    | true => simp [dropEvents, ha]
    | false => simpa [dropEvents, ha] using ih

/-- With no operation running nothing happens any more. -/
theorem eventSteps_of_not_running {s : State} (h : s.running = false) (n : Nat) : eventSteps n s = s := by
  have h1 : eventStep s = s := by
    unfold eventStep
    split
    · rw [if_neg (by simp [h])]
    · rfl
  induction n with
  | zero => rfl
  | succ n ih => rw [eventSteps, h1, ih]

/-- More steps than there are events to come run the rest of the operation, to its completion. -/
theorem eventSteps_eq_complete (n : Nat) {op : Instr} {k : Nat} {s : State} (hm : s.mstep = .running op k)
    (hf : s.modelFault = none) (hn : eventCount (dropEvents k (scriptOf op)) < n) :
    eventSteps n s = complete (run (dropEvents k (scriptOf op)) s) := by
  induction n generalizing k s with
  | zero => cases hn
  | succ n ih =>
    rw [eventSteps, eventStep_eq_stepScript hm hf, stepScript]
    generalize hrest : dropEvents k (scriptOf op) = rest at hn ⊢
    split
    · rename_i hany
      have hsplit : run rest s = run (dropEvents 1 rest) (run (firstEvent rest) s) := by
        rw [← run_append, firstEvent_append_dropEvents]
      have hout := run_firstEvent hany (running_iff.mpr ⟨by simp [hm], hf⟩ : s.running = true)
      rw [hsplit]
      generalize run (firstEvent rest) s = v at hout ⊢
      have hstop : v.running = false → eventSteps n v = complete (run (dropEvents 1 rest) v) := fun hv => by
        rw [eventSteps_of_not_running hv, run_of_not_running hv, complete_of_not_running hv]
      obtain ⟨-, -, hm', hf'⟩ | ⟨-, hm'⟩ | ⟨-, -, hf'⟩ := hout
      · have hcount := eventCount_dropEvents_one rest
        have hpos := any_isEvent_iff.mp hany
        rw [← hrest, ← dropEvents_succ] at hcount ⊢
        exact ih (by rw [hm', hm]; rfl) (hf'.trans hf) (by rw [hcount, hrest]; omega)
      · exact hstop (not_running_iff.mpr (.inl hm'))
      · exact hstop (not_running_iff.mpr (.inr hf'))
    · exact eventSteps_of_not_running (complete_done _).2 n

/-! ### How many events an operation has (40 R112, 41 R148) -/

@[simp] theorem eventCount_append (as bs : List Action) : eventCount (as ++ bs) = eventCount as + eventCount bs :=
  List.countP_append

theorem eventCount_flatMap {α : Type} (l : List α) (f : α → List Action) (n : Nat) (h : ∀ x, eventCount (f x) = n) :
    eventCount (l.flatMap f) = l.length * n := by
  induction l with
  | nil => simp [eventCount]
  | cons x l ih => rw [List.flatMap_cons, eventCount_append, h, ih, List.length_cons]; ring

theorem eventCount_sendByteScript (v : I32) : eventCount (sendByteScript v) = 24 := rfl

theorem eventCount_sendCommandScript (cmd : I32) : eventCount (sendCommandScript cmd) = 26 := rfl

theorem eventCount_charScript (pos data : I32) (dot : Bool) : eventCount (charScript pos data dot) = 76 := rfl

theorem eventCount_sendCharScript (pos data : I32) (dot : Bool) : eventCount (sendCharScript pos data dot) = 76 := by
  rw [sendCharScript, eventCount_append, eventCount_charScript]
  rfl

theorem eventCount_positionScript (tb : List CHAR) (i p : Nat) : eventCount (positionScript tb i p) = 0 := by
  simp only [positionScript]
  split
  · rfl
  · split <;> rfl

theorem eventCount_planeScript (tb : List CHAR) (i : Nat) : eventCount (planeScript tb i) = 76 := by
  rw [planeScript, eventCount_append, eventCount_append, eventCount_flatMap _ _ 0 (eventCount_positionScript tb i),
    eventCount_charScript]
  rfl

theorem eventCount_setTextScript_le (text : List CHAR) : eventCount (setTextScript text) ≤ 608 := by
  unfold setTextScript
  split
  · exact Nat.zero_le _
  · simp only [eventCount_append, eventCount_charScript, eventCount_flatMap _ _ 76 (eventCount_planeScript _)]
    exact Nat.le_refl 608

theorem eventCount_enableScript (a : I32) : eventCount (enableScript a) = 464 := by
  simp only [enableScript, eventCount_append, eventCount_sendCommandScript, eventCount_sendByteScript,
    eventCount_flatMap _ _ 24 fun _ => eventCount_sendByteScript 0]
  rfl

theorem eventCount_scanByteScript {take : Action} (ht : take.isEvent = false) : eventCount (receiveByteScript ++ [take]) = 26 := by
  have h1 : eventCount [take] = 0 := by simp [eventCount, ht]
  rw [eventCount_append, h1]
  rfl

theorem eventCount_keyScanScript {take : Nat → Action} {result : Action} (ht : ∀ i, (take i).isEvent = false)
    (hres : result.isEvent = false) : eventCount (keyScanScript take result) = 130 := by
  rw [keyScanScript, eventCount_append, eventCount_append, eventCount_flatMap _ _ 26 fun i => eventCount_scanByteScript (ht i)]
  simp only [eventCount, List.countP_cons, hres]
  rfl

/-- No host operation has more events than a SET_TEXT that succeeds. -/
theorem eventCount_scriptOf_le {op : Instr} (h : isHostOperation op = true) : eventCount (scriptOf op) ≤ 608 := by
  cases op with
  | enable a => exact (eventCount_enableScript a).trans_le (by decide)
  | sendChar pos data dot => exact (eventCount_sendCharScript pos data dot).trans_le (by decide)
  | setText text => exact eventCount_setTextScript_le text
  | getButtons => exact (eventCount_keyScanScript (take := .btnOr) (fun _ => rfl) rfl).trans_le (by decide)
  | getButtons64 => exact (eventCount_keyScanScript (take := .btnAdd) (fun _ => rfl) rfl).trans_le (by decide)
  | fontLookup ch => simp only [scriptOf, fontLookupScript]; split <;> exact Nat.zero_le _
  | rotateBits _ => exact Nat.zero_le _
  | pow2 n => simp only [scriptOf, pow2Script]; split <;> exact Nat.zero_le _
  | sendByte _ | sendCommand _ | sendData _ _ | receiveByte | reserved _ | cmdDataWriteAuto | cmdDataReadKeys | cmdDataWriteFixed
  | cmdDisplayCtrl _ | cmdAddress _ => cases h

/-- An accepted operation run event by event is its sequence and its completion. -/
theorem eventSteps_accept {op : Instr} (h : isHostOperation op = true) {s : State} (hf : s.modelFault = none) {n : Nat}
    (hn : 609 ≤ n) : eventSteps n (accept op s) = complete (run (scriptOf op) (accept op s)) := by
  have hc : eventCount (dropEvents 0 (scriptOf op)) < n := by
    rw [dropEvents_zero]
    exact Nat.lt_of_le_of_lt (eventCount_scriptOf_le h) hn
  rw [eventSteps_eq_complete (s := accept op s) n rfl hf hc, dropEvents_zero]

/-- Settles O55: both grains run the same sequence and complete it (`eventSteps_accept`). -/
theorem eventStepsRefineExec : Obligations.EventStepsRefineExec := by
  unfold Obligations.EventStepsRefineExec
  intro i s n hi ha hn
  rw [exec_hostOperation hi, runRequest, if_pos ha, eventSteps_accept hi (canAccept_iff.mp ha).2 hn]

/-! ### The idle bus (10 R38, 70 R264) -/

/-- The idle bus with no frame open (10 R38). -/
def State.AtRest (s : State) : Prop := s.busIdle ∧ (s.chip.reading = true → s.chip.inFrame = false)

/-- A sequence that leaves an idle bus, with no frame open and no fault entered, where it found one. -/
def KeepsRest (as : List Action) : Prop :=
  ∀ s : State, s.AtRest → s.modelFault = none → (run as s).AtRest ∧ (run as s).modelFault = none

theorem KeepsRest.append {as bs : List Action} (ha : KeepsRest as) (hb : KeepsRest bs) : KeepsRest (as ++ bs) := by
  intro s hs hf
  rw [run_append]
  obtain ⟨hs', hf'⟩ := ha s hs hf
  exact hb _ hs' hf'

theorem KeepsRest.flatMap {α : Type} {f : α → List Action} (hf : ∀ x, KeepsRest (f x)) (l : List α) : KeepsRest (l.flatMap f) := by
  induction l with
  | nil => exact fun s hs hn => ⟨hs, hn⟩
  | cons x l ih => exact (hf x).append ih

/-- Where the engine has stopped running nothing moves, so only a sequencer that can send matters. -/
theorem keepsRest_of_sending {as : List Action}
    (h : ∀ s : State, s.sending → (run as s).AtRest ∧ (run as s).modelFault = s.modelFault) : KeepsRest as := by
  intro s hs hf
  cases hr : s.running with
  | true =>
    obtain ⟨h1, h2⟩ := h s ⟨hr, dioMode_output.mp hs.1.2.2⟩
    exact ⟨h1, h2.trans hf⟩
  | false =>
    rw [run_of_not_running hr]
    exact ⟨hs, hf⟩

/-- Register actions move no pin, and no frame but by starting the reading. -/
theorem keepsRest_registers {as : List Action} (h : ∀ a ∈ as, a.isEvent = false ∧ a ≠ .startReading) : KeepsRest as := by
  intro s hs hf
  refine run_keeps (P := fun u => u.AtRest ∧ u.modelFault = none) as ?_ ⟨hs, hf⟩
  rintro a ha u - ⟨hu, hf⟩
  obtain ⟨hev, hsr⟩ := h a ha
  cases a with
  | stb _ | clk _ | dio _ | dirIn | dirOut | sample => cases hev
  | startReading => exact absurd rfl hsr
  | rxClear | rxShift | btnClear | btnOr _ | btnAdd _ | resultOfBtn32 | resultOfBtn64 | setResult _ | clearValid | setEnabled
  | setDm _ | setTb _ | paccClear | paccOr _ | raise _ _ | refuse _ => exact ⟨hu, hf⟩

theorem keepsRest_register {a : Action} (ha : a.isEvent = false) (hs : a ≠ .startReading) : KeepsRest [a] :=
  keepsRest_registers fun b hb => by rw [List.mem_singleton.mp hb]; exact ⟨ha, hs⟩

/-- A rising strobe closes the frame (44 R202). -/
theorem chipStb_rise_closed (c : Receiver) (h : (chipStb false true c).reading = true) : (chipStb false true c).inFrame = false := by
  cases hr : c.reading with
  | true => simp [chipStb, hr]
  | false => simp [chipStb, hr] at h

/-- A frame sent ends with the strobe's rise. -/
theorem atRest_sent_seeFrame (s : State) (d old : Bool) (c : Receiver) (vs : List I32) (es : List BusEvent) :
    (s.sent true d (c.seeFrame old vs) es).AtRest :=
  ⟨⟨rfl, rfl, rfl⟩, chipStb_rise_closed _⟩

theorem keepsRest_sendData (addr data : I32) : KeepsRest (sendDataScript addr data) :=
  keepsRest_of_sending fun s h => by
    rw [run_sendData h]
    exact ⟨atRest_sent_seeFrame s _ _ _ _ _, rfl⟩

theorem keepsRest_enable (a : I32) : KeepsRest (enableScript a) :=
  keepsRest_of_sending fun s h => by
    rw [run_enable a h]
    obtain ⟨-, hclosed, -⟩ := seeEnable_spec (clampIntensity a) (woken_reading s.chip s.stb s.clk s.dioOut)
    exact ⟨⟨⟨rfl, rfl, rfl⟩, fun _ => hclosed⟩, rfl⟩

/-- A key scan, whatever it makes of the bytes (42 R160, R162). -/
theorem keepsRest_keyScan {take : Nat → Action} {f : Nat → I32 → I64 → I64} {res : Action} {g : I64 → I64}
    (ht : ∀ i u, act (take i) u = { u with btnAcc := f i u.rxAcc u.btnAcc })
    (hres : ∀ u, act res u = { u with result := g u.btnAcc, resultValid := true }) : KeepsRest (keyScanScript take res) :=
  keepsRest_of_sending fun s h => by
    rw [run_keyScan ht hres h rfl rfl rfl rfl rfl]
    exact ⟨⟨⟨rfl, rfl, rfl⟩, chipStb_rise_closed (s.commanded.chip.afterBytes 4)⟩, rfl⟩

theorem keepsRest_position (tb : List CHAR) (i p : Nat) : KeepsRest (positionScript tb i p) := by
  simp only [positionScript]
  split
  · exact keepsRest_registers fun _ h => nomatch h
  · split
    · exact keepsRest_register rfl Action.noConfusion
    · exact keepsRest_register rfl Action.noConfusion

theorem keepsRest_plane (tb : List CHAR) (i : Nat) : KeepsRest (planeScript tb i) :=
  ((keepsRest_register rfl Action.noConfusion).append (.flatMap (keepsRest_position tb i) _)).append (keepsRest_sendData _ _)

theorem keepsRest_setText (text : List CHAR) : KeepsRest (setTextScript text) := by
  unfold setTextScript
  split
  · exact keepsRest_register rfl Action.noConfusion
  · exact ((((keepsRest_register rfl Action.noConfusion).append (keepsRest_sendData _ _)).append
      (keepsRest_register rfl Action.noConfusion)).append (.flatMap (keepsRest_plane _) _)).append
      (keepsRest_register rfl Action.noConfusion)

/-- Every host operation ends on an idle bus with no frame open (40 R113). -/
theorem keepsRest_scriptOf {op : Instr} (h : isHostOperation op = true) : KeepsRest (scriptOf op) := by
  cases op with
  | enable a => exact keepsRest_enable a
  | sendChar _ _ _ => exact (keepsRest_sendData _ _).append (keepsRest_register rfl Action.noConfusion)
  | setText text => exact keepsRest_setText text
  | getButtons =>
    exact keepsRest_keyScan (f := orTake) (g := fun b => (b.setWidth 32).setWidth 64) (fun _ _ => rfl) fun _ => rfl
  | getButtons64 => exact keepsRest_keyScan (f := addTake) (g := id) (fun _ _ => rfl) fun _ => rfl
  | fontLookup ch => simp only [scriptOf, fontLookupScript]; split <;> exact keepsRest_register rfl Action.noConfusion
  | rotateBits _ => exact keepsRest_register rfl Action.noConfusion
  | pow2 n => simp only [scriptOf, pow2Script]; split <;> exact keepsRest_register rfl Action.noConfusion
  | sendByte _ | sendCommand _ | sendData _ _ | receiveByte | reserved _ | cmdDataWriteAuto | cmdDataReadKeys | cmdDataWriteFixed
  | cmdDisplayCtrl _ | cmdAddress _ => cases h

theorem State.AtRest.complete {s : State} (hs : s.AtRest) : (complete s).AtRest := by
  unfold Machine.complete
  split
  · exact hs
  · exact hs

/-- A whole operation from an idle bus: it comes to an idle bus and to IDLE. -/
theorem atRest_operation {op : Instr} (h : isHostOperation op = true) {s : State} (hs : s.AtRest) (hf : s.modelFault = none) :
    (complete (run (scriptOf op) (accept op s))).AtRest ∧ (complete (run (scriptOf op) (accept op s))).mstep = .idle := by
  obtain ⟨hr, hn⟩ := keepsRest_scriptOf h (accept op s) hs hf
  exact ⟨hr.complete, complete_idle hn⟩

/-- A pending request is a host operation, or a code a host may not issue (30 R78). -/
theorem decodeHreq_kind (r : Request) : isHostOperation (decodeHreq r) = true ∨ isRefusedCode (decodeHreq r) = true := by
  unfold decodeHreq
  split <;> simp [isHostOperation, isRefusedCode]

theorem atRest_readResult {s : State} (hs : s.AtRest) : (readResult s).AtRest ∧ (readResult s).mstep = s.mstep := by
  unfold readResult
  split
  · exact ⟨hs, rfl⟩
  · exact ⟨hs, rfl⟩

/-- From an IDLE engine at rest a step comes to one, or has just accepted a host operation from one. -/
theorem step_atRest {s t : State} (hm : s.mstep = .idle) (hs : s.AtRest) (h : step s = .next t) :
    (t.mstep = .idle ∧ t.AtRest)
    ∨ ∃ r u, isHostOperation (decodeHreq r) = true ∧ t = accept (decodeHreq r) u ∧ u.modelFault = none ∧ u.AtRest := by
  obtain ⟨-, rfl⟩ | ⟨-, -, hrun, -⟩ | ⟨-, hr, r, -, hx⟩ | ⟨-, hmove⟩ := step_cases h
  · obtain ⟨hread, hframe, -⟩ := takeByte_frame s.chip s.chip.shift
    exact .inl ⟨hm, hs.1, fun hc => hframe.trans (hs.2 (hread.symm.trans hc))⟩
  · exact absurd hm hrun
  · rcases decodeHreq_kind r with hop | hop
    · cases (exec_accepted hop hr).symm.trans hx
      exact .inl (atRest_operation hop hs hr.2.2).symm
    · rw [exec_refusedCode hop hm, refuseOpsel, if_pos (canAccept_iff.mpr hr.2)] at hx
      cases hx
      exact .inl ⟨rfl, hs⟩
  · obtain ⟨rest, rfl⟩ | ⟨r, rest, hr, rfl | ⟨hop, rfl⟩⟩ | ⟨rest, rfl⟩ | ⟨rest, d, rfl⟩ := hmove
    · exact .inl ⟨hm, hs⟩
    · exact .inl ⟨hm, hs⟩
    · exact .inr ⟨r, _, hop, rfl, hr.2.2, hs⟩
    · obtain ⟨hrest, hm'⟩ := atRest_readResult (s := { s with host := rest }) hs
      exact .inl ⟨hm'.trans hm, hrest⟩
    · exact .inl ⟨hm, hs⟩

/-- Settles O60: a step from rest comes to rest, or accepts an operation (`step_atRest`), whose sequence keeps the rest. -/
theorem idleBusKept : Obligations.IdleBusKept := by
  unfold Obligations.IdleBusKept
  intro s t hm hbus hframe h
  obtain ⟨hi, hr⟩ | ⟨r, u, hop, rfl, hf, hr⟩ := step_atRest hm ⟨hbus, hframe⟩ h
  · refine ⟨.inl hi, hr.1, hr.2, fun n _ => ?_⟩
    rw [eventSteps_of_not_running (not_running_iff.mpr (.inl hi))]
    exact ⟨hi, hr⟩
  · refine ⟨.inr ⟨r, hop, rfl⟩, hr.1, hr.2, fun n hn => ?_⟩
    rw [eventSteps_accept hop hf hn]
    exact (atRest_operation hop hr hf).symm

/-! ### What never goes back (10 R33, R34; 44 R201; 60 R235, R236) -/

theorem StickyOrder.refl (s : State) : StickyOrder s s :=
  ⟨List.prefix_refl _, id, fun _ => id, id, id, fun _ => id⟩

theorem StickyOrder.trans {s t u : State} (h : StickyOrder s t) (g : StickyOrder t u) : StickyOrder s u where
  busGrows := h.busGrows.trans g.busGrows
  enabledKept := g.enabledKept ∘ h.enabledKept
  faultKept f := g.faultKept f ∘ h.faultKept f
  refusalKept := g.refusalKept ∘ h.refusalKept
  readingKept := g.readingKept ∘ h.readingKept
  unknownKept hr := g.unknownKept (h.readingKept hr) ∘ h.unknownKept hr

theorem stickyOrder_chip {s : State} {c : Receiver} (h : s.chip.Sticky c) : StickyOrder s { s with chip := c } :=
  { h, StickyOrder.refl s with }

theorem StickyOrder.record {s t : State} (h : StickyOrder s t) (e : BusEvent) : StickyOrder s (record e t) :=
  { h with busGrows := by rw [bus_record]; exact h.busGrows.trans (List.prefix_append _ _) }

/-- A fault already set keeps its name (60 R235). -/
theorem stickyOrder_enterFault (f : ModelFault) (s : State) : StickyOrder s (enterFault f s) :=
  { StickyOrder.refl s with faultKept := fun g hg => by simp [enterFault, hg] }

/-- An event is appended to BUS, and the receiver it leaves is a later one of the reading (`act_event`). -/
theorem stickyOrder_event {a : Action} (ha : a.isEvent = true) (s : State) : StickyOrder s (act a s) := by
  obtain ⟨e, b, k, d, x, c, n, hc, h⟩ | ⟨f, h⟩ := act_event ha s
  · have hw : StickyOrder s { s with stb := b, clk := k, dioOut := d, rxAcc := x, chip := c, restores := n } :=
      { stickyOrder_chip hc with }
    rw [h]
    exact hw.record e
  · rw [h]
    exact stickyOrder_enterFault f s

theorem stickyOrder_act (a : Action) (s : State) : StickyOrder s (act a s) := by
  cases a with
  | stb _ | clk _ | dio _ | dirIn | dirOut | sample => exact stickyOrder_event rfl s
  | startReading => exact stickyOrder_chip (sticky_startReading s.chip)
  | setEnabled => exact { StickyOrder.refl s with enabledKept := fun _ => rfl }
  | refuse _ => exact { StickyOrder.refl s with refusalKept := fun _ => rfl }
  | rxClear | rxShift | btnClear | btnOr _ | btnAdd _ | resultOfBtn32 | resultOfBtn64 | setResult _ | clearValid
  | setDm _ | setTb _ | paccClear | paccOr _ | raise _ _ => exact { StickyOrder.refl s with }

theorem stickyOrder_complete (s : State) : StickyOrder s (complete s) := by
  unfold complete
  split
  · exact { StickyOrder.refl s with }
  · exact .refl s

theorem stickyOrder_run (as : List Action) (s : State) : StickyOrder s (run as s) :=
  run_keeps (P := StickyOrder s) as (fun a _ u _ h => h.trans (stickyOrder_act a u)) (.refl s)

theorem stickyOrder_eventStep (s : State) : StickyOrder s (eventStep s) :=
  eventStep_keeps (P := StickyOrder s) (fun _ _ _ a _ u _ h => h.trans (stickyOrder_act a u))
    (fun u _ h => h.trans (stickyOrder_complete u)) (.refl s)

theorem stickyOrder_readResult (s : State) : StickyOrder s (readResult s) := by
  unfold readResult
  split
  · exact { StickyOrder.refl s with }
  · exact stickyOrder_enterFault _ s

theorem stickyOrder_hostMove {s t : State} (h : HostMove s t) : StickyOrder s t := by
  obtain ⟨rest, rfl⟩ | ⟨r, rest, -, rfl | ⟨-, rfl⟩⟩ | ⟨rest, rfl⟩ | ⟨rest, d, rfl⟩ := h
  · exact { StickyOrder.refl s with }
  · exact { StickyOrder.refl s with }
  · exact { StickyOrder.refl s with }
  · exact { stickyOrder_readResult { s with host := rest } with }
  · exact { StickyOrder.refl s with }

/-- Settles O59: the four kinds of step (`step_cases`) each leave a later state of the order. -/
theorem nothingGoesBack : Obligations.NothingGoesBack := by
  unfold Obligations.NothingGoesBack
  intro s t h
  obtain ⟨-, rfl⟩ | ⟨-, -, -, rest, rfl⟩ | ⟨-, hr, r, -, hx⟩ | ⟨-, hm⟩ := step_cases h
  · exact stickyOrder_chip (sticky_takeByte s.chip s.chip.shift)
  · exact { stickyOrder_eventStep { s with host := rest } with }
  · have haccept : StickyOrder s (accept (decodeHreq r) s) := { StickyOrder.refl s with }
    rcases exec_request r hr with he | he
    · cases he.symm.trans hx
      exact haccept.trans ((stickyOrder_run _ _).trans (stickyOrder_complete _))
    · cases he.symm.trans hx
      exact haccept.trans (stickyOrder_act (.refuse .reservedOp) _)
  · exact stickyOrder_hostMove hm

/-! ### The errors of SET_TEXT (41 R137, R144) -/

theorem posOfInt_of_mem {p : Int} (h1 : -2147483648 ≤ p) (h2 : p ≤ 2147483647) : posOfInt p = BitVec.ofInt 32 p :=
  if_pos ⟨h1, h2⟩

/-- The dot-position error is a negative realPos (41 R137). -/
theorem dotMask_error_neg {text : List CHAR} {r : Int} (h : dotMask text = .error r) : r < 0 := by
  unfold dotMask at h
  split at h
  · cases h
  · dsimp only at h
    split at h
    · cases h; assumption
    · cases h

/-- An argument error in SET_TEXT: the engine IDLE, TB, DM and PACC empty (60 R239, log 34). -/
theorem raise_setText {s : State} (h : s.mstep.inSetText = true) (code : ErrCode) (info : ErrInfo) :
    raiseInvalidArgument code info s
      = { s with
          tb := [], dm := 0, pacc := 0, mstep := .idle, busy := false, req := none, err := code, errInfo := info
          resultValid := false } := by
  rw [raiseInvalidArgument, endOperation_setText h]

/-- Settles O35: the sequence is the raise alone, on the operation just accepted (`raise_setText`). -/
theorem setTextDotError : Obligations.SetTextDotError := by
  unfold Obligations.SetTextDotError
  refine ⟨fun text r s hr hd hlow => ?_, by decide⟩
  have hneg := dotMask_error_neg hd
  have hscript : scriptOf (.setText text) = [.raise .dotPosition ⟨posOfInt r, none⟩] := by
    simp only [scriptOf, setTextScript, hd]
  refine ⟨hneg, ?_⟩
  rw [exec_accepted rfl hr, hscript, run_register (accept_running hr.2.2) rfl, act, complete_of_not_running (raise_not_running ..),
    raise_setText rfl, posOfInt_of_mem hlow (by omega)]
  obtain ⟨hm, hb, -⟩ := hr
  simp only [accept, hm, hb]

/-- The receiver after the dot frame sent from an idle bus: byte 14 is stored, every other byte reads as before (41 R140, 44 R209). -/
theorem read_seeData_dot {c : Receiver} (hr : c.reading = true) (dm : Byte) :
    (c.seeData true (charAddress 7) (charData (dm.setWidth 32) false)).ram.read 14 = some dm
      ∧ ∀ x, x ≠ 14 → (c.seeData true (charAddress 7) (charData (dm.setWidth 32) false)).ram.read x = c.ram.read x := by
  rw [seeData_display hr _ _ (a := 14) (by decide) (by decide), lowByte_charData]
  exact ⟨Memory.read_write_same _ _ _, fun x hx => Memory.read_write_other _ _ hx⟩

/-- Settles O36: the sequence stops at the raise of the first position without a glyph (`run_setText_noGlyph`), after the dot frame. -/
theorem setTextNoGlyph : Obligations.SetTextNoGlyph := by
  unfold Obligations.SetTextNoGlyph
  intro text dm p s hr hd hdm hp hc hf hg
  refine ⟨s.chip.seeData s.stb (charAddress 7) (charData (dm.setWidth 32) false), ?_, fun h => seeData_unread h _ _ _, ?_⟩
  · have hpos : posOfInt p = BitVec.ofNat 32 p := posOfInt_of_mem (by omega) (by omega)
    rw [exec_accepted rfl hr, scriptOf, run_setText_noGlyph hdm hp hc hf (fun q hq => hg q (List.mem_range.mp hq)) (accept_sending hr hd),
      complete_of_not_running (raise_not_running ..), raise_setText rfl, hpos]
    obtain ⟨hm, hb, -⟩ := hr
    simp only [accept, State.sent, hm, hb]
  · rintro ⟨hstb, -⟩ ⟨hread, -⟩
    rw [hstb]
    exact read_seeData_dot hread dm

/-! ### STATUS, and the steps that run no instruction -/

/-- The fields of STATUS, each in its bits (10 R31). -/
theorem status_fields (s : State) :
    s.status.getLsbD 0 = s.busy ∧ s.status.extractLsb' 1 3 = s.err.code ∧ s.status.getLsbD 4 = s.enabled
      ∧ s.status.getLsbD 5 = s.dioMode.code ∧ s.status.getLsbD 6 = s.resultValid ∧ s.status.getLsbD 7 = false := by
  unfold State.status
  generalize s.busy = busy, s.err.code = err, s.enabled = enabled, s.dioMode.code = dir, s.resultValid = valid
  revert busy err enabled dir valid
  decide

/-- Settles O13: the layout by its bits (`status_fields`), the reads by the step of a read (`step_hostRead`). -/
theorem statusLayout : Obligations.StatusLayout := by
  unfold Obligations.StatusLayout
  refine ⟨status_fields, rfl, rfl, rfl, rfl, rfl, rfl, fun e => by cases e <;> decide, fun s rest ht => ⟨fun hh => ?_, fun hh => ?_⟩⟩
  · rw [step_hostRead ht hh rfl]
    simp only [hostStep, hh, readStatus]
    rfl
  · rw [step_hostRead ht hh rfl]
    simp only [hostStep, hh, readErrInfo]

/-- With an operation in progress and no byte waiting, the step is the running one (log 27). -/
theorem step_running {s : State} (hn : s.chip.nbits < 8) (hf : s.modelFault = none) (hm : s.mstep ≠ .idle) :
    step s = runningStep s := by
  cases hms : s.mstep with
  | idle => exact absurd hms hm
  | running op k => simp only [step, fetch, if_neg (Nat.not_le.mpr hn), hf, hms]

/-- With the engine IDLE and nothing pending, the step is the host's (log 27). -/
theorem step_idle {s : State} (hn : s.chip.nbits < 8) (hr : s.ready) (hq : s.req = none) : step s = hostStep s := by
  obtain ⟨hm, hb, hf⟩ := hr
  simp only [step, fetch, if_neg (Nat.not_le.mpr hn), hf, hm, hb, hq]

/-- Settles O9: the step of a running engine is an event (`step_running`), that of an idle one the host's action (`step_idle`). -/
theorem stepsBetweenInstructions : Obligations.StepsBetweenInstructions := by
  unfold Obligations.StepsBetweenInstructions
  intro s hn hf
  refine ⟨fun hm hh => ?_, fun rest hm hh => ?_, fun hr hq hh => ?_, fun rest hr hq hh => ?_, fun r rest hr hq hh => ?_,
    fun r rest hr hq hh => ?_⟩
  · rw [step_running hn hf hm]
    obtain hh | ⟨r, rest, hh | hh⟩ := hh <;> simp only [runningStep, hh]
  · rw [step_running hn hf hm]
    simp only [runningStep, hh]
  · rw [step_idle hn hr hq]
    simp only [hostStep, hh]
  · rw [step_idle hn hr hq]
    simp only [hostStep, hh]
  · rw [step_idle hn hr hq]
    simp only [hostStep, hh, writeReq]
  · rw [step_idle hn hr hq]
    constructor
    · intro hop
      simp only [hostStep, hh, startRequest, hop, if_true, writeReq]
    · intro hop
      simp only [hostStep, hh, startRequest, hop, Bool.false_eq_true, if_false, writeReq]

/-! ### What the requests leave unchanged (10 R25, R26, R30, R32; 60 R240) -/

/-- The registers a request writes besides the pins, BUS, the receiver and its own control: what the byte receiver and the results
use, SET_TEXT's, ERR_INFO, the refusal mark, ENABLED, and the host's side. -/
inductive RegGroup where
  | scan
  | text
  | errInfo
  | refusal
  | enabled
  | host
deriving DecidableEq

/-- The type of a group's contents. -/
abbrev RegGroup.Value : RegGroup → Type
  | .scan => I32 × I64 × I64 × Nat
  | .text => List CHAR × Byte × Byte
  | .errInfo => ErrInfo
  | .refusal | .enabled => Bool
  | .host => List HostAction × Option HostData

/-- What a state holds in a group. -/
def RegGroup.value : (g : RegGroup) → State → g.Value
  | .scan, s => (s.rxAcc, s.btnAcc, s.result, s.restores)
  | .text, s => (s.tb, s.dm, s.pacc)
  | .errInfo, s => s.errInfo
  | .refusal, s => s.refusalMark
  | .enabled, s => s.enabled
  | .host, s => (s.host, s.hostData)

/-- The group an action writes, if it writes one (`value_act`). -/
def Action.writes : Action → Option RegGroup
  | .dirOut | .sample | .rxClear | .rxShift | .btnClear | .btnOr _ | .btnAdd _ | .resultOfBtn32 | .resultOfBtn64 | .setResult _ =>
    some .scan
  | .setDm _ | .setTb _ | .paccClear | .paccOr _ => some .text
  | .raise _ _ => some .errInfo
  | .refuse _ => some .refusal
  | .setEnabled => some .enabled
  | .stb _ | .clk _ | .dio _ | .dirIn | .clearValid | .startReading => none

/-- Outside a SET_TEXT nothing is dropped. -/
theorem value_dropText {g : RegGroup} {s : State} (ht : g = .text → s.mstep.inSetText = false) : g.value (dropText s) = g.value s := by
  cases g with
  | text => rw [dropText_other (ht rfl)]
  | scan | errInfo | refusal | enabled | host => rfl

theorem value_enterFault (g : RegGroup) (f : ModelFault) (s : State) : g.value (enterFault f s) = g.value (dropText s) := by
  cases g <;> rfl

theorem value_complete {g : RegGroup} {s : State} (ht : g = .text → s.running = true → s.mstep.inSetText = false) :
    g.value (complete s) = g.value s := by
  unfold complete
  split
  · rename_i hr
    have hd : g.value { endOperation s with err := .none } = g.value (dropText s) := by cases g <;> rfl
    exact hd.trans (value_dropText fun hg => ht hg hr)
  · rfl

/-- An action leaves every group but its own as it was, SET_TEXT's outside a SET_TEXT. -/
theorem value_act {g : RegGroup} {a : Action} {s : State} (h : a.writes ≠ some g) (ht : g = .text → s.mstep.inSetText = false) :
    g.value (act a s) = g.value s := by
  cases a with
  | stb _ | clk _ | dirIn | clearValid | startReading => cases g <;> rfl
  | dio b =>
    simp only [act, emitDio]
    split
    · cases g <;> rfl
    · rw [value_enterFault, value_dropText ht]
  | sample =>
    simp only [act, emitSample]
    split
    · cases g with
      | scan => exact absurd rfl h
      | text | errInfo | refusal | enabled | host => rfl
    · rw [value_enterFault, value_dropText ht]
  | dirOut | rxClear | rxShift | btnClear | btnOr _ | btnAdd _ | resultOfBtn32 | resultOfBtn64 | setResult _ =>
    cases g with
    | scan => exact absurd rfl h
    | text | errInfo | refusal | enabled | host => rfl
  | setDm _ | setTb _ | paccClear | paccOr _ =>
    cases g with
    | text => exact absurd rfl h
    | scan | errInfo | refusal | enabled | host => rfl
  | setEnabled =>
    cases g with
    | enabled => exact absurd rfl h
    | scan | text | errInfo | refusal | host => rfl
  | raise _ _ =>
    refine Eq.trans ?_ (value_dropText ht)
    cases g with
    | errInfo => exact absurd rfl h
    | scan | text | refusal | enabled | host => rfl
  | refuse _ =>
    refine Eq.trans ?_ (value_dropText ht)
    cases g with
    | refusal => exact absurd rfl h
    | scan | text | errInfo | enabled | host => rfl

/-- The sequence writes at most the groups `gs`. -/
def writesOnly (gs : List RegGroup) (as : List Action) : Bool := as.all fun a => a.writes.all (gs.contains ·)

@[simp] theorem writesOnly_append (gs : List RegGroup) (as bs : List Action) :
    writesOnly gs (as ++ bs) = (writesOnly gs as && writesOnly gs bs) := List.all_append

theorem writesOnly_flatMap {α : Type} {gs : List RegGroup} {f : α → List Action} (h : ∀ x, writesOnly gs (f x) = true) (l : List α) :
    writesOnly gs (l.flatMap f) = true := by
  induction l with
  | nil => rfl
  | cons x l ih => rw [List.flatMap_cons, writesOnly_append, h, ih]; rfl

theorem writesOnly_ne {gs : List RegGroup} {as : List Action} (h : writesOnly gs as = true) {g : RegGroup} (hg : g ∉ gs) :
    ∀ a ∈ as, a.writes ≠ some g := by
  intro a ha hw
  have := List.all_eq_true.mp h a ha
  rw [hw] at this
  exact hg (by simpa using this)

/-- A sequence leaves the groups it does not write as they were, SET_TEXT's outside a SET_TEXT. -/
theorem value_run {g : RegGroup} {as : List Action} (h : ∀ a ∈ as, a.writes ≠ some g) {s : State}
    (ht : g = .text → s.mstep.inSetText = false) :
    g.value (run as s) = g.value s
      ∧ (g = .text → (run as s).running = true → (run as s).mstep.inSetText = false) := by
  refine run_keeps (P := fun u => g.value u = g.value s ∧ (g = .text → u.running = true → u.mstep.inSetText = false)) as ?_
    ⟨rfl, fun hg _ => ht hg⟩
  rintro a ha u hr ⟨hv, hu⟩
  exact ⟨(value_act (h a ha) fun hg => hu hg hr).trans hv, fun hg hr' => (inSetText_act hr').trans (hu hg hr)⟩

/-- A host operation leaves the groups its sequence does not write as they were, in every outcome. -/
theorem value_operation {i : Instr} (hi : isHostOperation i = true) {gs : List RegGroup} (hw : writesOnly gs (scriptOf i) = true)
    {s t : State} (h : exec i s = .next t) {g : RegGroup} (hg : g ∉ gs) (ht : g = .text → isSetText i = false) :
    g.value t = g.value s := by
  rw [exec_hostOperation hi, runRequest] at h
  split at h
  · cases h
    obtain ⟨hv, hm⟩ := value_run (s := accept i s) (writesOnly_ne hw hg) ht
    rw [value_complete hm, hv]
    cases g <;> rfl
  · cases h
    rfl

/-! ### What the sequences write -/

theorem writesOnly_sendByte (gs : List RegGroup) (v : I32) : writesOnly gs (sendByteScript v) = true := rfl

theorem writesOnly_charScript (gs : List RegGroup) (pos data : I32) (dot : Bool) : writesOnly gs (charScript pos data dot) = true := rfl

theorem writesOnly_enable (a : I32) : writesOnly [.enabled] (enableScript a) = true := by
  simp only [enableScript, sendCommandScript, writesOnly_append, writesOnly_sendByte, writesOnly_flatMap fun _ => writesOnly_sendByte _ 0]
  rfl

theorem writesOnly_sendChar (pos data : I32) (dot : Bool) : writesOnly [.enabled] (sendCharScript pos data dot) = true := by
  rw [sendCharScript, writesOnly_append, writesOnly_charScript]
  rfl

theorem writesOnly_position (tb : List CHAR) (i p : Nat) : writesOnly [.text, .errInfo] (positionScript tb i p) = true := by
  simp only [positionScript]
  split
  · rfl
  · split <;> rfl

theorem writesOnly_plane (tb : List CHAR) (i : Nat) : writesOnly [.text, .errInfo] (planeScript tb i) = true := by
  simp only [planeScript, writesOnly_append, writesOnly_charScript, writesOnly_flatMap (writesOnly_position tb i)]
  rfl

theorem writesOnly_setText (text : List CHAR) : writesOnly [.text, .errInfo] (setTextScript text) = true := by
  unfold setTextScript
  split
  · rfl
  · simp only [writesOnly_append, writesOnly_charScript, writesOnly_flatMap (writesOnly_plane _)]
    rfl

theorem writesOnly_keyScan {take : Nat → Action} {result : Action} (ht : ∀ i, (take i).writes = some .scan)
    (hres : result.writes = some .scan) : writesOnly [.scan] (keyScanScript take result) = true := by
  have hone : ∀ a : Action, a.writes = some .scan → writesOnly [.scan] [a] = true := fun a ha => by simp [writesOnly, ha]
  have hbyte : ∀ i, writesOnly [.scan] (receiveByteScript ++ [take i]) = true := fun i => by
    rw [writesOnly_append, hone _ (ht i)]
    rfl
  have hend : writesOnly [.scan] [.stb true, result] = true := hone result hres
  simp only [keyScanScript, writesOnly_append, writesOnly_sendByte, writesOnly_flatMap hbyte, hend]
  rfl

/-! ### The host's side -/

/-- No action writes the host's side. -/
theorem writes_ne_host (a : Action) : a.writes ≠ some .host := by cases a <;> simp [Action.writes]

theorem host_run (as : List Action) (s : State) : RegGroup.host.value (run as s) = RegGroup.host.value s :=
  (value_run (g := .host) (fun a _ => writes_ne_host a) fun h => nomatch h).1

theorem host_runRequest (op : Instr) (as : List Action) (s : State) :
    RegGroup.host.value (runRequest op as s) = RegGroup.host.value s := by
  unfold runRequest
  split
  · exact (value_complete (g := .host) fun h => nomatch h).trans (host_run as (accept op s))
  · rfl

theorem host_refuseOpsel (op : Instr) (s : State) : RegGroup.host.value (refuseOpsel op s) = RegGroup.host.value s := by
  unfold refuseOpsel
  split <;> rfl

theorem host_microOperation (op : Instr) (as : List Action) (s : State) :
    RegGroup.host.value (microOperation op as s) = RegGroup.host.value s := by
  unfold microOperation
  split
  · exact host_refuseOpsel op s
  · exact host_run as s

/-- No instruction touches the host's side. -/
theorem host_exec {i : Instr} {s t : State} (h : exec i s = .next t) : t.host = s.host ∧ t.hostData = s.hostData := by
  suffices hv : RegGroup.host.value t = RegGroup.host.value s from Prod.mk.inj hv
  cases i with
  | enable _ | sendChar _ _ _ | setText _ | getButtons | getButtons64 | fontLookup _ | rotateBits _ | pow2 _ =>
    cases h; exact host_runRequest _ _ s
  | sendByte _ | sendCommand _ | sendData _ _ | receiveByte => cases h; exact host_microOperation _ _ s
  | reserved _ => cases h; exact host_refuseOpsel _ s
  | cmdDataWriteAuto | cmdDataReadKeys | cmdDataWriteFixed | cmdDisplayCtrl _ | cmdAddress _ => cases h; rfl

/-- What an operation that neither scans keys nor is SET_TEXT leaves unchanged, where it writes ENABLED at most. -/
theorem frame_displayOnly {i : Instr} (hi : isHostOperation i = true) (hw : writesOnly [.enabled] (scriptOf i) = true)
    (ht : isSetText i = false) {s t : State} (h : exec i s = .next t) :
    t.rxAcc = s.rxAcc ∧ t.btnAcc = s.btnAcc ∧ t.tb = s.tb ∧ t.dm = s.dm ∧ t.pacc = s.pacc ∧ t.result = s.result
      ∧ t.errInfo = s.errInfo ∧ t.refusalMark = s.refusalMark ∧ t.restores = s.restores := by
  have hv : ∀ g : RegGroup, g ≠ .enabled → g.value t = g.value s := fun g hg => value_operation hi hw h (by simpa using hg) fun _ => ht
  have hscan := hv .scan (by decide)
  have htext := hv .text (by decide)
  have hinfo := hv .errInfo (by decide)
  have hmark := hv .refusal (by decide)
  simp only [RegGroup.value, Prod.mk.injEq] at hscan htext hinfo hmark
  obtain ⟨hrx, hbtn, hres, hrest⟩ := hscan
  obtain ⟨htb, hdm, hpacc⟩ := htext
  exact ⟨hrx, hbtn, htb, hdm, hpacc, hres, hinfo, hmark, hrest⟩

theorem frame_setText {text : List CHAR} {s t : State} (h : exec (.setText text) s = .next t) :
    t.rxAcc = s.rxAcc ∧ t.btnAcc = s.btnAcc ∧ t.result = s.result ∧ t.enabled = s.enabled ∧ t.refusalMark = s.refusalMark
      ∧ t.restores = s.restores := by
  have hv : ∀ g : RegGroup, g ∉ [RegGroup.text, .errInfo] → g.value t = g.value s := fun g hg =>
    value_operation rfl (writesOnly_setText text) h hg (fun hx => absurd (hx ▸ List.mem_cons_self) hg)
  have hscan := hv .scan (by decide)
  have henabled := hv .enabled (by decide)
  have hmark := hv .refusal (by decide)
  simp only [RegGroup.value, Prod.mk.injEq] at hscan henabled hmark
  obtain ⟨hrx, hbtn, hres, hrest⟩ := hscan
  exact ⟨hrx, hbtn, hres, henabled, hmark, hrest⟩

theorem frame_keyScan {i : Instr} (hi : isHostOperation i = true) (hw : writesOnly [.scan] (scriptOf i) = true)
    (ht : isSetText i = false) {s t : State} (h : exec i s = .next t) :
    t.tb = s.tb ∧ t.dm = s.dm ∧ t.pacc = s.pacc ∧ t.errInfo = s.errInfo ∧ t.enabled = s.enabled
      ∧ t.refusalMark = s.refusalMark := by
  have hv : ∀ g : RegGroup, g ≠ .scan → g.value t = g.value s := fun g hg => value_operation hi hw h (by simpa using hg) fun _ => ht
  have htext := hv .text (by decide)
  have hinfo := hv .errInfo (by decide)
  have henabled := hv .enabled (by decide)
  have hmark := hv .refusal (by decide)
  simp only [RegGroup.value, Prod.mk.injEq] at htext hinfo henabled hmark
  obtain ⟨htb, hdm, hpacc⟩ := htext
  exact ⟨htb, hdm, hpacc, hinfo, henabled, hmark⟩

/-- Settles O52: each sequence writes its own groups only, and the rest is as it was in every outcome (`value_operation`). -/
theorem outputRequestsFrame : Obligations.OutputRequestsFrame := by
  unfold Obligations.OutputRequestsFrame
  intro i s t h
  refine ⟨?_, ?_, ?_, host_exec h⟩
  · rintro (⟨a, rfl⟩ | ⟨pos, data, dot, rfl⟩)
    · exact frame_displayOnly (i := .enable a) rfl (writesOnly_enable a) rfl h
    · exact frame_displayOnly (i := .sendChar pos data dot) rfl (writesOnly_sendChar pos data dot) rfl h
  · rintro ⟨text, rfl⟩
    exact frame_setText h
  · rintro (rfl | rfl)
    · exact frame_keyScan (i := .getButtons) rfl (writesOnly_keyScan (take := .btnOr) (fun _ => rfl) rfl) rfl h
    · exact frame_keyScan (i := .getButtons64) rfl (writesOnly_keyScan (take := .btnAdd) (fun _ => rfl) rfl) rfl h

end Sys2Proof.Machine
end

section
/-! PROOFS of the family 20_memory: a request the engine does not accept (O11). -/

namespace Sys2Proof.Machine

theorem not_canAccept_iff {s : State} : s.canAccept = false ↔ s.busy = true ∨ s.modelFault ≠ none := by
  rw [← Bool.not_eq_true, canAccept_iff, not_and_or, Bool.not_eq_false]

/-- A host operation the engine does not accept, busy or stopped by a model fault, changes nothing (20 R63, 60 R241, log 15). -/
theorem exec_not_accepted {i : Instr} (h : isHostOperation i = true) {s : State} (hs : s.busy = true ∨ s.modelFault ≠ none) :
    exec i s = .next s := by
  have hn : s.canAccept = false := not_canAccept_iff.mpr hs
  rw [exec_hostOperation h, runRequest, if_neg (Bool.eq_false_iff.mp hn)]

/-- Settles O11: BUSY = 1 is one of the two reasons a request is not accepted (`exec_not_accepted`). -/
theorem requestWhileBusyNotAccepted : Obligations.RequestWhileBusyNotAccepted := by
  unfold Obligations.RequestWhileBusyNotAccepted
  intro i s hi hb
  exact exec_not_accepted hi (.inl hb)

end Sys2Proof.Machine
end

section
/-! PROOFS of the family 30_encoding: the round trip of every instruction (O1) from the fields of the control word (O4) and the
command bytes; what the decoder accepts and gives (O2, O3); the spec's own words and lines (O5, O6, O7); and the codes a host may
not issue (O24). -/

namespace Sys2Proof.Machine

/-! ### The fields of the control word (30 R77) -/

/-- The control word bit by bit: OPSEL below bit 4, A below bit 36, B below bit 68, F at bit 68. -/
theorem getLsbD_packWord (o : BitVec 4) (a b : I32) (f : Bool) (i : Nat) :
    (packWord o a b f).getLsbD i =
      if i < 4 then o.getLsbD i
      else if i < 36 then a.getLsbD (i - 4)
      else if i < 68 then b.getLsbD (i - 36)
      else decide (i = 68) && f := by
  simp only [packWord, BitVec.getLsbD_or, BitVec.getLsbD_shiftLeft, BitVec.getLsbD_setWidth, BitVec.getLsbD_ofBool]
  grind

section
variable (o : BitVec 4) (a b : I32) (f : Bool) (c : CHAR) (t : List CHAR)

@[simp] theorem opsel_packWord : (Request.mk (packWord o a b f) c t).opsel = o := by
  apply BitVec.eq_of_getLsbD_eq
  intro i hi
  rw [Request.opsel, BitVec.getLsbD_extractLsb', getLsbD_packWord]
  simp [hi]

@[simp] theorem a_packWord : (Request.mk (packWord o a b f) c t).a = a := by
  apply BitVec.eq_of_getLsbD_eq
  intro i hi
  rw [Request.a, BitVec.getLsbD_extractLsb', getLsbD_packWord]
  simp [hi, show 4 + i < 36 by omega]

@[simp] theorem b_packWord : (Request.mk (packWord o a b f) c t).b = b := by
  apply BitVec.eq_of_getLsbD_eq
  intro i hi
  rw [Request.b, BitVec.getLsbD_extractLsb', getLsbD_packWord]
  simp [hi, show ¬ 36 + i < 4 by omega, show 36 + i < 68 by omega]

@[simp] theorem f_packWord : (Request.mk (packWord o a b f) c t).f = f := by
  rw [Request.f, getLsbD_packWord]
  simp

end

/-! ### The instruction a request is (30 R78, R81) -/

/-- OPSEL 0xC to 0xF is the reserved row (30 R81). -/
theorem decodeHreq_reserved {r : Request} (h : 12 ≤ r.opsel.toNat) : decodeHreq r = .reserved r.opsel := by
  unfold decodeHreq
  split
  case h_13 => rfl
  all_goals omega

/-- The reserved row is the only one with a check, and takes no OPSEL below 0xC. -/
theorem decodeHreq_wf (r : Request) : (decodeHreq r).wf = true := by
  rcases Nat.lt_or_ge r.opsel.toNat 12 with h | h
  · unfold decodeHreq
    interval_cases r.opsel.toNat <;> rfl
  · rw [decodeHreq_reserved h]
    exact decide_eq_true h

/-- Settles O4: the fields are read back bit by bit; with OPSEL equal, both requests decode in the same row, which reads no operand
but its own. -/
theorem controlWordFields : Obligations.ControlWordFields := by
  unfold Obligations.ControlWordFields
  refine ⟨fun o a b f c t => ⟨opsel_packWord .., a_packWord .., b_packWord .., f_packWord ..⟩, fun r r' ho => ?_⟩
  refine ⟨?none, ?sendChar, ?setText, ?fontLookup, ?oneWord, ?sendData⟩
  case none =>
    rintro (h | h | h | h)
    · simp [decodeHreq, ← ho, h]
    · simp [decodeHreq, ← ho, h]
    · simp [decodeHreq, ← ho, h]
    · rw [decodeHreq_reserved h, decodeHreq_reserved (ho ▸ h), ho]
  case sendChar => intro h ha hb hf; simp [decodeHreq, ← ho, h, ha, hb, hf]
  case setText => intro h ht; simp [decodeHreq, ← ho, h, ht]
  case fontLookup => intro h hc; simp [decodeHreq, ← ho, h, hc]
  case oneWord =>
    intro h ha
    simp only [List.mem_cons, List.not_mem_nil, or_false] at h
    rcases h with h | h | h | h | h <;> simp [decodeHreq, ← ho, h, ha]
  case sendData => intro h ha hb; simp [decodeHreq, ← ho, h, ha, hb]

/-! ### The bus command bytes (30 R72 to R76, 44 R204) -/

theorem toInstr_wf (cmd : BusCommand) : cmd.toInstr.wf = true := by cases cmd <;> rfl

theorem toInstr_injective : Function.Injective BusCommand.toInstr := by
  intro c d h
  cases c <;> cases d <;> simp_all [BusCommand.toInstr]

/-- A byte is an instruction exactly when it is a bus command. -/
theorem decode_bus8_ok {v : Byte} {i : Instr} : decode (.bus8 v) = .ok i ↔ ∃ cmd, decodeBus8 v = .ok cmd ∧ cmd.toInstr = i := by
  rw [decode]
  cases decodeBus8 v <;> simp

/-- The bytes with the display-control mask (30 R74). -/
theorem displayCtrl_mask_iff (v : Byte) :
    v &&& 0xF8 = busDisplayCtrl ||| busDisplayOn ↔ 0x88 ≤ v.toNat ∧ v.toNat ≤ 0x8F := by
  revert v; decide

/-- The bytes of the address class (30 R75). -/
theorem busClass_eq_three_iff (v : Byte) : busClass v = 3 ↔ 0xC0 ≤ v.toNat := by
  have hv := v.isLt
  rw [busClass, ← BitVec.toNat_inj, BitVec.extractLsb'_toNat, Nat.shiftRight_eq_div_pow]
  change v.toNat / 2 ^ 6 % 2 ^ 2 = 3 ↔ _
  omega

/-- A display-control byte is its mask and its brightness. -/
theorem displayCtrl_bright {v : Byte} (h : v &&& 0xF8 = busDisplayCtrl ||| busDisplayOn) :
    busDisplayCtrl ||| busDisplayOn ||| (busBright v).setWidth 8 = v := by
  revert v; decide

/-- An address byte is its class and its address. -/
theorem address_addr {v : Byte} (h : busClass v = 3) : busAddress ||| (busAddr v).setWidth 8 = v := by
  revert v; decide

/-- The command a byte decodes to has that byte as its code. -/
theorem encode_of_decodeBus8 {v : Byte} {cmd : BusCommand} (h : decodeBus8 v = .ok cmd) : encode cmd.toInstr = .bus8 v := by
  unfold decodeBus8 at h
  split at h
  next hv => cases h; rw [hv]; rfl
  split at h
  next hv => cases h; rw [hv]; rfl
  split at h
  next hv => cases h; rw [hv]; rfl
  split at h
  next hv => cases h; exact congrArg Code.bus8 (displayCtrl_bright hv)
  split at h
  next hv => cases h; exact congrArg Code.bus8 (address_addr hv)
  cases h

/-- A byte is rejected exactly when it is none of the glossed bytes (44 R204, R211). -/
theorem decodeBus8_error_iff (v : Byte) :
    decodeBus8 v = .error (.unglossedByte v)
      ↔ v ≠ 0x40 ∧ v ≠ 0x42 ∧ v ≠ 0x44 ∧ ¬ (0x88 ≤ v.toNat ∧ v.toNat ≤ 0x8F) ∧ v.toNat < 0xC0 := by
  rw [← displayCtrl_mask_iff, ← not_le, ← busClass_eq_three_iff]
  unfold decodeBus8
  split_ifs <;> simp_all [busDataWriteAuto, busDataReadKeys, busDataWriteFixed]

/-! ### Decoding and encoding -/

/-- Settles O1: a request's fields are read back from its control word; a command's byte decodes to it. -/
theorem decodeEncodeRoundTrip : Obligations.DecodeEncodeRoundTrip := by
  unfold Obligations.DecodeEncodeRoundTrip
  intro i hi
  cases i with
  | enable _ | sendChar _ _ _ | setText _ | getButtons | getButtons64 | fontLookup _ | rotateBits _ | pow2 _ | sendByte _
  | sendCommand _ | sendData _ _ | receiveByte => simp [encode, decode, decodeHreq]
  | reserved o =>
    have ho : 12 ≤ (Request.mk (packWord o 0 0 false) 0 []).opsel.toNat := by
      rw [opsel_packWord]; exact of_decide_eq_true hi
    rw [encode, decode, decodeHreq_reserved ho, opsel_packWord]
  | cmdDataWriteAuto | cmdDataReadKeys | cmdDataWriteFixed => rfl
  | cmdDisplayCtrl b => exact decode_bus8_ok.mpr ⟨_, decode_displayCtrl b, rfl⟩
  | cmdAddress a => exact decode_bus8_ok.mpr ⟨_, decode_address a, rfl⟩

/-- Settles O2: a request decodes to a well-formed instruction, and so does a byte, whose commands have no check. -/
theorem decodedInstructionsWellFormed : Obligations.DecodedInstructionsWellFormed := by
  unfold Obligations.DecodedInstructionsWellFormed
  intro c i h
  cases c with
  | hreq r => cases h; exact decodeHreq_wf r
  | bus8 v =>
    obtain ⟨cmd, -, rfl⟩ := decode_bus8_ok.mp h
    exact toInstr_wf cmd

/-- Settles O3: a decoded byte is the command's code (`encode_of_decodeBus8`), a command's code decodes to it by the round trip, and
the rejected bytes are those no test of the decoder takes. -/
theorem busByteDecodingExact : Obligations.BusByteDecodingExact := by
  unfold Obligations.BusByteDecodingExact
  refine fun v => ⟨fun cmd => ⟨encode_of_decodeBus8, fun h => ?_⟩, decodeBus8_error_iff v⟩
  have hrt : decode (.bus8 v) = .ok cmd.toInstr := h ▸ decodeEncodeRoundTrip cmd.toInstr (toInstr_wf cmd)
  obtain ⟨cmd', hv, he⟩ := decode_bus8_ok.mp hrt
  rw [hv, toInstr_injective he]

/-! ### The spec's own words and lines (30 R84 to R86, 95 V30-1) -/

/-- Settles O5: eight closed words. -/
theorem controlWordExamples : Obligations.ControlWordExamples := by
  unfold Obligations.ControlWordExamples
  decide

/-- Settles O6: eleven closed words and bytes. -/
theorem writtenWordsDecode : Obligations.WrittenWordsDecode := by
  unfold Obligations.WrittenWordsDecode
  decide

/-- Settles O7: seven closed lines. -/
theorem assemblerLines : Obligations.AssemblerLines := by
  unfold Obligations.AssemblerLines
  decide

/-! ### The codes a host may not issue (30 R81, R82; 60 R236) -/

theorem not_setText_of_refusedCode {i : Instr} (h : isRefusedCode i = true) : isSetText i = false := by
  cases i with
  | setText _ => cases h
  | _ => rfl

/-- A request accepted and then refused leaves its mark, ERR and RESULT_VALID; what acceptance wrote is written back, and TB, DM and
PACC are SET_TEXT's alone (60 R236, R241). -/
theorem refuseRequest_accept {op : Instr} (h : isSetText op = false) {s : State} (hr : s.ready) (code : ErrCode) :
    refuseRequest code (accept op s)
      = { s with err := code, resultValid := false, req := none, refusalMark := true } := by
  obtain ⟨hm, hb, -⟩ := hr
  have ht : (accept op s).mstep.inSetText = false := h
  rw [refuseRequest, endOperation_other ht, accept, ← hm, ← hb]

/-- Settles O24: with the engine free a refused code is accepted and refused at once (`exec_refusedCode`). -/
theorem refusedCodes : Obligations.RefusedCodes := by
  unfold Obligations.RefusedCodes
  intro i s hi hr
  rw [exec_refusedCode hi hr.1, refuseOpsel, if_pos (canAccept_iff.mpr hr.2),
    refuseRequest_accept (not_setText_of_refusedCode hi) hr]

end Sys2Proof.Machine
end

section
/-! PROOFS of the family 40_protocol_primitives: the micro-operations inside the sequencer and what the receiver makes of them (O18 to
O21); the receive bit-order law (O22); the event counts (O23); and the six bus events (O16). -/

namespace Sys2Proof.Machine

/-! ### A micro-operation in line (30 R82) -/

/-- Inside the sequencer a micro-operation is its sequence (log 16). -/
theorem microOperation_of_running {s : State} (h : s.running = true) (op : Instr) (as : List Action) :
    microOperation op as s = run as s := by
  unfold microOperation
  split
  next hm => exact absurd hm (running_iff.mp h).1
  next => rfl

theorem sending_of_driving {s : State} (hr : s.running = true) (hd : s.driving) : s.sending := ⟨hr, dioMode_output.mp hd⟩

/-! ### Bytes sent (40 R106 to R108) -/

/-- Settles O18: the closed form of SEND_BYTE, with the byte taken at a byte boundary of an open frame and unseen outside one
(`seeByte_open`, `seeByte_closed`). -/
theorem sendByteCompletes : Obligations.SendByteCompletes := by
  unfold Obligations.SendByteCompletes
  intro v s hr hd
  refine ⟨s.chip.seeByte v, ?_, fun h => seeByte_closed h v, fun hread hf hn => seeByte_open hread hf hn v⟩
  rw [exec, execSendByte, microOperation_of_running hr, run_sendByte (sending_of_driving hr hd)]
  rfl

/-- The first byte of a frame is a command, and no command writes a display byte (44 R204 to R209). -/
theorem commandByte_ram (c : Receiver) (v : Byte) : (c.commandByte v).ram = c.ram := by
  unfold Receiver.commandByte
  split
  next cmd _ =>
    cases cmd with
    | address a => simp only [Receiver.busCommand, Receiver.address]; split <;> rfl
    | dataWriteAuto | dataReadKeys | dataWriteFixed | displayCtrl _ => rfl
  next => rfl

/-- A frame sent from an idle strobe is over when it has been sent (44 R202). -/
theorem seeFrame_betweenFrames {c : Receiver} (hr : c.reading = true) (vs : List I32) : (c.seeFrame true vs).betweenFrames :=
  ⟨(seeFrame_reading vs).trans hr, by rw [seeFrame_read hr]; rfl⟩

/-- A frame of one byte leaves display memory as it was. -/
theorem seeFrame_singleton_ram {c : Receiver} (hr : c.reading = true) (v : I32) : (c.seeFrame true [v]).ram = c.ram := by
  rw [seeFrame_read hr]
  exact commandByte_ram { c.opened with shift := lowByte v } (lowByte v)

/-- Settles O19: the closed form of SEND_COMMAND, whose frame is one command byte. -/
theorem sendCommandCompletes : Obligations.SendCommandCompletes := by
  unfold Obligations.SendCommandCompletes
  intro cmd s hr hd
  refine ⟨s.chip.seeFrame s.stb [cmd], ?_, fun h => seeFrame_unread h _ _, ?_⟩
  · rw [exec, execSendCommand, microOperation_of_running hr, run_sendCommand (sending_of_driving hr hd)]
    rfl
  · rintro hstb ⟨hread, -⟩
    rw [hstb]
    exact ⟨seeFrame_framed hread _, seeFrame_betweenFrames hread _, fun x => by rw [seeFrame_singleton_ram hread]⟩

/-- From an idle strobe the receiver sees SEND_DATA as its two frames of bytes (40 R108). -/
theorem seeData_framed {c : Receiver} (hr : c.reading = true) (addr data : I32) :
    c.seeData true addr data
      = (c.framed [busDataWriteFixed]).framed [busAddress ||| (addr.setWidth 6).setWidth 8, lowByte data] := by
  have hfixed : lowByte (busDataWriteFixed.setWidth 32) = busDataWriteFixed := by decide
  rw [Receiver.seeData, seeFrame_framed ((seeFrame_reading _).trans hr), seeFrame_framed hr]
  simp only [List.map_cons, List.map_nil, lowByte_addressWord, hfixed]

/-- Settles O20: the closed form of SEND_DATA, and the receiver at a display address and outside (`seeData_display`,
`seeData_outside`). -/
theorem sendDataCompletes : Obligations.SendDataCompletes := by
  unfold Obligations.SendDataCompletes
  intro addr data s hr hd
  refine ⟨s.chip.seeData s.stb addr data, ?_, fun h => seeData_unread h _ _ _, ?_⟩
  · rw [exec, execSendData, microOperation_of_running hr, run_sendData (sending_of_driving hr hd), lowByte_addressWord]
    rfl
  · rintro hstb ⟨hread, -⟩
    rw [hstb]
    refine ⟨seeData_framed hread addr data, seeFrame_betweenFrames ((seeFrame_reading _).trans hread) _, ?_⟩
    rcases Nat.lt_or_ge (addr.setWidth 6).toNat 16 with ha | ha
    · rw [seeData_display hread addr data rfl ha]
      exact ⟨rfl, rfl, rfl,
        fun _ => ⟨Memory.read_write_same _ _ _, fun x hx => Memory.read_write_other _ _ hx, rfl, rfl⟩,
        fun h => absurd ha (Nat.not_lt.mpr h)⟩
    · rw [seeData_outside hread addr data rfl ha]
      exact ⟨rfl, rfl, rfl, fun h => absurd h (Nat.not_lt.mpr ha), fun _ => ⟨fun _ => rfl, rfl, rfl⟩⟩

/-! ### Bytes received (40 R109 to R111) -/

/-- Settles O21: the closed form of RECEIVE_BYTE, with the receiver's eight answers while it presents KEYS and while it does not
(`answer_presenting`, `answer_line`). -/
theorem receiveByteCompletes : Obligations.ReceiveByteCompletes := by
  unfold Obligations.ReceiveByteCompletes
  intro s hr
  refine ⟨byteOfBits s.chip.answer, s.chip.afterSamples 8, ?_, answer_presenting, answer_line⟩
  rw [exec, execReceiveByte, microOperation_of_running hr, run_receiveByte hr]
  rfl

/-- A byte's value is the sum of its bits at their weights. -/
theorem toNat_byteOfBits (f : Nat → Bool) : (byteOfBits f).toNat = ∑ j ∈ Finset.range 8, (if f j then 2 ^ j else 0) := by
  have hr : List.range 8 = [0, 1, 2, 3, 4, 5, 6, 7] := by decide
  simp only [byteOfBits, hr, List.foldl_cons, List.foldl_nil, Finset.sum_range_succ, Finset.sum_range_zero]
  generalize f 0 = b0, f 1 = b1, f 2 = b2, f 3 = b3, f 4 = b4, f 5 = b5, f 6 = b6, f 7 = b7
  revert b0 b1 b2 b3 b4 b5 b6 b7
  decide

theorem bus_received (s : State) (acc : I32) (c : Receiver) (es : List BusEvent) : (s.received acc c es).bus = s.bus ++ es := by
  simp [State.bus, State.received]

/-- Settles O22: the levels RX_CORE samples are the bits of RX_ACC (`run_rxCore`). -/
theorem receiveBitOrder : Obligations.ReceiveBitOrder := by
  unfold Obligations.ReceiveBitOrder
  intro s hr hd
  rw [run_rxCore hr (dioMode_input.mp hd)]
  refine ⟨s.chip.answer, bus_received .., ?_⟩
  rw [← toNat_byteOfBits]
  exact BitVec.toNat_setWidth_of_le (by decide)

/-! ### Event counts (40 R112) -/

/-- Settles O23: the events of each closed form, counted; no operand changes their number. -/
theorem eventCounts : Obligations.EventCounts := by
  unfold Obligations.EventCounts
  refine ⟨fun v s hr hd => ?_, fun cmd s hr hd => ?_, fun addr data s hr hd => ?_, fun s hr hd => ?_, fun s hr => ?_⟩
  · rw [run_sendByte (sending_of_driving hr hd), bus_sent, List.length_append]
    rfl
  · rw [run_sendCommand (sending_of_driving hr hd), bus_sent, List.length_append]
    rfl
  · rw [run_sendData (sending_of_driving hr hd), bus_sent, List.length_append]
    rfl
  · rw [run_rxCore hr (dioMode_input.mp hd), bus_received, List.length_append]
    rfl
  · rw [run_receiveByte hr, bus_received, List.length_append]
    rfl

/-! ### The six events (40 R100 to R105) -/

theorem emitDio_output {s : State} (h : s.driving) (b : Bool) : emitDio b s = record (.dio b) { s with dioOut := some b } := by
  simp only [emitDio, h]

theorem emitSample_input {s : State} (h : s.dioMode = .input) :
    emitSample s = record (.sample s.chip.sampleLevel) { s with
      rxAcc := if s.chip.sampleLevel then s.rxAcc ||| 0x80 else s.rxAcc
      chip := s.chip.afterSample } := by
  simp only [emitSample, h]

/-- Settles O16: each event is its writes and the record of it, and recording appends to BUS and counts in MSTEP
(`record_eq_pushEvents`). -/
theorem eventEffects : Obligations.EventEffects := by
  unfold Obligations.EventEffects
  intro s b
  simp only [← record_eq_pushEvents]
  exact ⟨rfl, rfl, fun h => emitDio_output h b, rfl, rfl, emitSample_input⟩

end Sys2Proof.Machine
end

section
/-! PROOFS of the family 41_display_ops: the intensity clamp (O25); the text's dot mask, buffer and bit-planes (O31, O29, O32); ENABLE
(O26) and SEND_CHAR (O27); SET_TEXT's success (O33), what it shows (O34), and its outcomes counted (O37). -/

namespace Sys2Proof.Machine

/-! ### The intensity (41 R131) -/

theorem toNat_clampIntensity (a : I32) : ((clampIntensity a).toNat : Int) = clamp a.toInt 0 7 := by
  rw [clampIntensity, BitVec.toNat_ofInt]
  unfold clamp
  omega

theorem toNat_displayCtrlByte (i : BitVec 3) : (displayCtrlByte i).toNat = 0x88 + i.toNat := by
  revert i
  decide

/-- Settles O25: the byte is 0x88 and the clamped intensity, which three bits hold (`toNat_clampIntensity`). -/
theorem intensityClamp : Obligations.IntensityClamp := by
  unfold Obligations.IntensityClamp
  intro a
  have hi : ((clampIntensity a).toNat : Int) = min (max a.toInt 0) 7 := toNat_clampIntensity a
  have hb := toNat_displayCtrlByte (clampIntensity a)
  refine ⟨hi, fun h => BitVec.eq_of_toNat_eq ?_, fun h0 h7 => ?_, fun h => BitVec.eq_of_toNat_eq ?_⟩
  · show (displayCtrlByte (clampIntensity a)).toNat = 0x88
    omega
  · omega
  · show (displayCtrlByte (clampIntensity a)).toNat = 0x8F
    omega

/-! ### The dot mask (41 R136 to R138) -/

/-- The dot weight of realPos r is the bit at position (3 - r) mod 8 (43 R187). -/
theorem dotw_eq_shiftLeft {r : Nat} (hr : r < 8) : dotw r = (1 : Byte) <<< ((3 - (r : Int)) % 8).toNat := by
  have h : ∀ r < 8, dotw r = (1 : Byte) <<< ((3 - (r : Int)) % 8).toNat := by decide
  exact h r hr

theorem dotMask_of_not_mem {text : List CHAR} (h : chDot ∉ text) : dotMask text = .ok 0 := by
  have hn : firstIndex text chDot = none := by
    rw [firstIndex, List.findIdx?_eq_none_iff]
    intro c hc
    exact beq_eq_false_iff_ne.mpr (ne_of_mem_of_not_mem hc h)
  rw [dotMask, hn]

theorem firstIndex_of_first {text : List CHAR} {c : CHAR} {j : Nat} (hj : text[j]? = some c) (hlt : ∀ k, k < j → text[k]? ≠ some c) :
    firstIndex text c = some j := by
  obtain ⟨hl, hc⟩ := List.getElem?_eq_some_iff.mp hj
  refine List.findIdx?_eq_some_iff_getElem.mpr ⟨hl, by simp [hc], fun k hk => ?_⟩
  have hkl : k < text.length := by omega
  simpa [List.getElem?_eq_getElem hkl] using hlt k hk

theorem dotMask_of_first {text : List CHAR} {j : Nat} (h : firstIndex text chDot = some j) :
    dotMask text = if realPos j text.length < 0 then .error (realPos j text.length) else .ok (dotw (realPos j text.length).toNat) := by
  rw [dotMask, h]

/-- Settles O31: the mask is decided by the first dot alone, and its weight is one bit (`dotMask_of_first`, `dotw_eq_shiftLeft`). -/
theorem dotMaskLaw : Obligations.DotMaskLaw := by
  unfold Obligations.DotMaskLaw
  intro text
  refine ⟨dotMask_of_not_mem, fun j hj hlt => ?_⟩
  have hlen : j < text.length := (List.getElem?_eq_some_iff.mp hj).1
  have hpos : realPos j text.length = (j : Int) + 8 - text.length := by unfold realPos; omega
  rw [dotMask_of_first (firstIndex_of_first hj hlt), hpos]
  refine ⟨fun h => if_pos h, fun h => ?_⟩
  rw [if_neg (by omega), dotw_eq_shiftLeft (by omega), Int.toNat_of_nonneg h]

/-! ### The text buffer (41 R141, R142) -/

/-- A text of at most 8 characters reversed and padded with spaces on the left (41 R141). -/
def padReversed (t : List CHAR) : List CHAR := List.replicate (8 - t.reverse.length) chSpace ++ t.reverse

theorem length_padReversed {t : List CHAR} (ht : t.length ≤ 8) : (padReversed t).length = 8 := by
  rw [padReversed, List.length_append, List.length_replicate, List.length_reverse]
  omega

/-- Position q of the padded text holds the character at 7 - q. -/
theorem getElem?_padReversed {t : List CHAR} (ht : t.length ≤ 8) {q : Nat} (hq : q < 8) :
    (padReversed t)[q]? = some ((t[7 - q]?).getD chSpace) := by
  rw [padReversed, List.length_reverse]
  by_cases h : q < 8 - t.length
  · rw [List.getElem?_append_left (by simpa using h), List.getElem?_replicate_of_lt h, List.getElem?_eq_none (by omega)]
    rfl
  · rw [List.getElem?_append_right (by simpa using h), List.length_replicate, List.getElem?_reverse (by omega),
      show t.length - 1 - (q - (8 - t.length)) = 7 - q by omega, List.getElem?_eq_getElem (by omega)]
    rfl

/-- To swap the two halves of the padded text is to rotate it by 4. -/
theorem textBuffer_eq_rotate (text : List CHAR) : textBuffer text = (padReversed ((dropDots text).take 8)).rotate 4 := by
  have hlen : 4 ≤ (padReversed ((dropDots text).take 8)).length := by
    rw [length_padReversed (List.length_take_le ..)]
    decide
  rw [List.rotate_eq_drop_append_take hlen]
  rfl

theorem length_textBuffer (text : List CHAR) : (textBuffer text).length = 8 := by
  rw [textBuffer_eq_rotate, List.length_rotate, length_padReversed (List.length_take_le ..)]

/-- Position p of TB holds the character of T2 at (3 - p) mod 8, a space where T2 has none. -/
theorem getElem?_textBuffer (text : List CHAR) {p : Nat} (hp : p < 8) :
    (textBuffer text)[p]? = some ((((dropDots text).take 8)[((3 - (p : Int)) % 8).toNat]?).getD chSpace) := by
  have hn : ((dropDots text).take 8).length ≤ 8 := List.length_take_le ..
  have hlen := length_padReversed hn
  rw [textBuffer_eq_rotate, List.getElem?_rotate (by omega), hlen, getElem?_padReversed hn (by omega),
    show 7 - (p + 4) % 8 = ((3 - (p : Int)) % 8).toNat by omega]

/-- The positions are placed by an involution: (3 - (3 - k) mod 8) mod 8 = k. -/
theorem placement_involutive {k : Nat} (hk : k < 8) : ((3 - ((((3 - (k : Int)) % 8).toNat : Nat) : Int)) % 8).toNat = k := by
  omega

/-- Settles O29: TB at a position is T2 at the position's place (`getElem?_textBuffer`), and the placement undoes itself. -/
theorem placementLaw : Obligations.PlacementLaw := by
  unfold Obligations.PlacementLaw
  intro text
  have hn : ((dropDots text).take 8).length ≤ 8 := List.length_take_le ..
  refine ⟨length_textBuffer text, fun k c hk => ?_, fun p hp hfree => ?_⟩
  · have hlt : k < 8 := by have := (List.getElem?_eq_some_iff.mp hk).1; omega
    rw [getElem?_textBuffer text (by omega), placement_involutive hlt, hk]
    rfl
  · have hge : ((dropDots text).take 8).length ≤ ((3 - (p : Int)) % 8).toNat := by
      by_contra hlt
      exact hfree _ (by omega) (placement_involutive hp).symm
    rw [getElem?_textBuffer text hp, List.getElem?_eq_none hge]
    rfl

/-! ### The bit-planes (41 R143) -/

/-- Bit i of what the character shows: nothing at a space, nor without a glyph. -/
def glyphBit (i : Nat) (c : CHAR) : Bool := c != chSpace && (font c).any (·.getLsbD i)

theorem planeBit_eq (i p : Nat) (c : CHAR) : planeBit i p c = (BitVec.ofBool (glyphBit i c)).setWidth 8 <<< p := by
  unfold planeBit glyphBit
  by_cases h : c = chSpace
  · simp [h]
  · cases hf : font c <;> simp [h, bne_iff_ne.mpr h]

/-- A bit-plane gathers one bit of each position. -/
theorem planeByte_eq (tb : List CHAR) (i : Nat) : planeByte tb i = byteOfBits (fun p => glyphBit i (bufferAt tb p)) := by
  unfold planeByte byteOfBits
  simp only [planeBit_eq]

/-- Bit p of bit-plane i, at a space and at a character with a glyph. -/
theorem getLsbD_planeByte (tb : List CHAR) (i : Nat) {p : Nat} (hp : p < 8) :
    (bufferAt tb p = chSpace → (planeByte tb i).getLsbD p = false)
    ∧ (bufferAt tb p ≠ chSpace → ∀ m, font (bufferAt tb p) = some m → (planeByte tb i).getLsbD p = m.getLsbD i) := by
  rw [planeByte_eq, getLsbD_byteOfBits _ hp]
  exact ⟨fun h => by simp [glyphBit, h], fun h m hm => by simp [glyphBit, h, hm]⟩

/-- Settles O32: a bit-plane is the byte of its positions' bits (`planeByte_eq`). -/
theorem planeBits : Obligations.PlaneBits := by
  unfold Obligations.PlaneBits
  exact fun tb i p hp => getLsbD_planeByte tb i hp

/-! ### Events and frames counted (41 R130, R148) -/

@[simp] theorem length_frameEvents (bs : List Byte) : (frameEvents bs).length = 24 * bs.length + 2 := by
  have h : ∀ v, (byteEvents v).length = 24 := fun _ => rfl
  simp [frameEvents, List.length_flatMap, h, Nat.mul_comm]

@[simp] theorem count_frameEvents (bs : List Byte) : (frameEvents bs).count (.stb false) = 1 := by
  have h : ∀ v, (byteEvents v).count (.stb false) = 0 := fun _ => rfl
  simp [frameEvents, List.count_flatMap, h, Function.comp_def]

@[simp] theorem length_dataFrames (a d : Byte) : (dataFrames a d).length = 76 := rfl

@[simp] theorem count_dataFrames (a d : Byte) : (dataFrames a d).count (.stb false) = 2 := by
  simp [dataFrames]

theorem length_textEvents (dm : Byte) (planes : Nat → Byte) : (textEvents dm planes).length = 608 := by
  simp [textEvents, List.length_flatMap]

theorem count_textEvents (dm : Byte) (planes : Nat → Byte) : (textEvents dm planes).count (.stb false) = 16 := by
  simp [textEvents, List.count_flatMap, Function.comp_def]

theorem length_enableEvents (i : BitVec 3) : (enableEvents i).length = 464 := by
  simp [enableEvents]

/-! ### An operation that completes (60 R241) -/

/-- An accepted operation whose sequence only sends events and writes registers completes. -/
theorem exec_completes {i : Instr} (h : isHostOperation i = true) {s u : State} (hr : s.ready)
    (hrun : run (scriptOf i) (accept i s) = u) {n : Nat} (hm : u.mstep = (accept i s).mstep.add n)
    (hf : u.modelFault = (accept i s).modelFault) : exec i s = .next { endOperation u with err := .none } := by
  rw [exec_accepted h hr, hrun, complete_of_running (running_after (accept_running hr.2.2) n hm hf)]

/-! ### ENABLE (41 R130, 44 R215) -/

/-- A reading that starts with ENABLE has met nothing unglossed: its idle-bus events fall outside any frame. -/
theorem woken_unknown {c : Receiver} (hr : c.reading = false) (stb clk : Bool) (d : Option Bool) :
    (c.woken stb clk d).unknown = false := by
  have hs : chipStb stb true c.startReading = { Receiver.start with reading := true, line := c.line, draws := c.draws } := by
    simp [Receiver.startReading, hr, chipStb, Receiver.start]
  simp [Receiver.woken, hs, chipClk, Receiver.start]

/-- On an idle bus ENABLE's first two events change no level, and the reading is under way already (44 R214). -/
theorem woken_idle {c : Receiver} (hr : c.reading = true) (d : Option Bool) : c.woken true true d = c := by
  simp [Receiver.woken, Receiver.startReading, hr, chipClk]

/-- Settles O26: the closed form of ENABLE (`run_enable`), and what its frames leave of the reading (`seeEnable_spec`). -/
theorem enableCompletes : Obligations.EnableCompletes := by
  unfold Obligations.EnableCompletes
  intro a s hr hd
  obtain ⟨hread, hframe, hwmode, haptr, hon, hbright, hunknown, hram⟩ :=
    seeEnable_spec (clampIntensity a) (woken_reading s.chip s.stb s.clk s.dioOut)
  refine ⟨(s.chip.woken s.stb s.clk s.dioOut).seeEnable (clampIntensity a), ?_, length_enableEvents _, hread, hframe, hwmode, haptr,
    hon, hbright, fun x hx => ?_, fun h => ?_, ?_⟩
  · rw [exec_completes (i := .enable a) rfl hr (run_enable a (accept_sending hr hd)) rfl rfl, endOperation_other rfl]
    obtain ⟨hm, hb, -⟩ := hr
    simp only [accept, State.sent, hm, hb]
  · rw [hram]
    exact read_cleared _ 16 x hx
  · rw [hunknown, woken_unknown h]
  · rintro ⟨hstb, hclk, -⟩ ⟨hreading, -⟩
    rw [hunknown, hram, hstb, hclk, woken_idle hreading]
    exact ⟨rfl, fun x hx => read_beyond _ 16 x hx⟩

/-! ### SEND_CHAR (41 R133, R134) -/

/-- SEND_CHAR's address byte: 2 (pos mod 32) under the two class bits. -/
theorem lowByte_charAddress (pos : I32) :
    lowByte (addressWord (charAddress pos)) = 0xC0 ||| BitVec.ofInt 8 (2 * (pos.toInt % 32)) := by
  have h : ((charAddress pos).setWidth 6).setWidth 8 = BitVec.ofInt 8 (2 * (pos.toInt % 32)) := by
    apply BitVec.eq_of_toNat_eq
    have hmul : (charAddress pos).toNat = pos.toNat * 2 % 2 ^ 32 := BitVec.toNat_mul ..
    rw [BitVec.toNat_setWidth, BitVec.toNat_setWidth, BitVec.toNat_ofInt, hmul, BitVec.toInt_eq_toNat_cond]
    split <;> omega
  rw [lowByte_addressWord, h]
  rfl

/-- SEND_CHAR's data byte: the low byte of the data, with the dot in bit 7. -/
theorem lowByte_charData_dot (data : I32) (dot : Bool) :
    lowByte (charData data dot) = data.setWidth 8 ||| if dot then 0x80 else 0 := by
  cases dot <;> simp [lowByte, charData, BitVec.setWidth_or]

/-- SEND_CHAR's sequence (41 R133): SEND_DATA's frames, and RESULT_VALID cleared. -/
theorem run_sendChar {s : State} (h : s.sending) (pos data : I32) (dot : Bool) :
    run (sendCharScript pos data dot) s
      = { s.sent true ((lowByte (charData data dot)).getLsbD 7) (s.chip.seeData s.stb (charAddress pos) (charData data dot))
            (dataFrames (lowByte (addressWord (charAddress pos))) (lowByte (charData data dot))) with resultValid := false } := by
  have hbit : (charData data dot).getLsbD 7 = (lowByte (charData data dot)).getLsbD 7 := by simp [lowByte]
  rw [sendCharScript, charScript, run_append, run_sendData h, run_register ((sent_running ..).trans h.1) rfl, hbit]
  rfl

/-- Settles O27: the closed form of SEND_CHAR (`run_sendChar`), with the bytes of its address and data. -/
theorem sendCharCompletes : Obligations.SendCharCompletes := by
  unfold Obligations.SendCharCompletes
  intro pos data dot s hr hd
  refine ⟨s.chip.seeData s.stb (charAddress pos) (charData data dot), ?_, fun h => seeData_unread h _ _ _⟩
  rw [exec_completes (i := .sendChar pos data dot) rfl hr (run_sendChar (accept_sending hr hd) pos data dot) rfl rfl,
    endOperation_other rfl, lowByte_charAddress, lowByte_charData_dot]
  obtain ⟨hm, hb, -⟩ := hr
  simp only [accept, State.sent, hm, hb]

/-! ### SET_TEXT completed (41 R135, R140, R145) -/

/-- What the receiver makes of a successful SET_TEXT's 16 frames: the dot frame, then the seven planes. -/
def Receiver.seeText (c : Receiver) (old : Bool) (dm : Byte) (tb : List CHAR) : Receiver :=
  (c.seeData old (charAddress 7) (charData (dm.setWidth 32) false)).seePlanes tb 7

theorem seePlanes_succ (c : Receiver) (tb : List CHAR) (n : Nat) :
    c.seePlanes tb (n + 1)
      = (c.seePlanes tb n).seeData true (charAddress (BitVec.ofNat 32 n)) (charData ((planeByte tb n).setWidth 32) false) := by
  simp only [Receiver.seePlanes, List.range_succ, List.foldl_append, List.foldl_cons, List.foldl_nil]

theorem seePlanes_unread {c : Receiver} (hr : c.reading = false) (tb : List CHAR) (n : Nat) : c.seePlanes tb n = c := by
  induction n with
  | zero => rfl
  | succ n ih => rw [seePlanes_succ, ih, seeData_unread hr]

theorem seeText_unread {c : Receiver} (hr : c.reading = false) (old : Bool) (dm : Byte) (tb : List CHAR) : c.seeText old dm tb = c := by
  rw [Receiver.seeText, seeData_unread hr, seePlanes_unread hr]

/-- SET_TEXT as one operation, where the dot is placed and every character has a glyph (41 R135). -/
theorem exec_setText {text : List CHAR} {dm : Byte} {s : State} (hr : s.ready) (hd : s.driving) (hdm : dotMask text = .ok dm)
    (hg : glyphsAt (textBuffer text) (List.range 8)) :
    exec (.setText text) s
      = .next { s with
          stb := true, clk := true, dioOut := some ((planeByte (textBuffer text) 6).getLsbD 7)
          tb := [], dm := 0, pacc := 0, resultValid := false, err := .none, req := none
          chip := s.chip.seeText s.stb dm (textBuffer text)
          trace := (textEvents dm (planeByte (textBuffer text))).reverse ++ s.trace } := by
  rw [exec_completes (i := .setText text) rfl hr (run_setText hdm hg (accept_sending hr hd)) rfl rfl, endOperation_setText rfl]
  obtain ⟨hm, hb, -⟩ := hr
  simp only [accept, State.sent, Receiver.seeText, hm, hb]

/-- Settles O33: SET_TEXT's closed form (`exec_setText`), and its registers before the completion empties them (`run_setText`). -/
theorem setTextCompletes : Obligations.SetTextCompletes := by
  unfold Obligations.SetTextCompletes
  intro text dm s hr hd hdm hglyph
  have hg : glyphsAt (textBuffer text) (List.range 8) := fun p hp => hglyph p (List.mem_range.mp hp)
  refine ⟨s.chip.seeText s.stb dm (textBuffer text), exec_setText hr hd hdm hg, ?_⟩
  rw [run_setText hdm hg (accept_sending hr hd)]
  exact ⟨rfl, rfl, rfl, fun h => seeText_unread h _ _ _⟩

/-! ### What SET_TEXT shows (41 R149; 44 R209, R213) -/

/-- Display memory after one byte at each of the first n even addresses. -/
def Memory.writeEven (m : Memory) (f : Nat → Byte) (n : Nat) : Memory := (List.range n).foldl (fun m i => m.write (2 * i) (f i)) m

theorem Memory.writeEven_succ (m : Memory) (f : Nat → Byte) (n : Nat) :
    m.writeEven f (n + 1) = (m.writeEven f n).write (2 * n) (f n) := by
  simp only [Memory.writeEven, List.range_succ, List.foldl_append, List.foldl_cons, List.foldl_nil]

theorem Memory.read_writeEven (m : Memory) (f : Nat → Byte) {n i : Nat} (hi : i < n) : (m.writeEven f n).read (2 * i) = some (f i) := by
  induction n with
  | zero => omega
  | succ n ih =>
    rw [Memory.writeEven_succ]
    rcases Nat.lt_succ_iff_lt_or_eq.mp hi with h | rfl
    · rw [Memory.read_write_other _ _ (by omega), ih h]
    · exact Memory.read_write_same ..

theorem Memory.read_writeEven_other (m : Memory) (f : Nat → Byte) {n x : Nat} (hx : ∀ i, i < n → x ≠ 2 * i) :
    (m.writeEven f n).read x = m.read x := by
  induction n with
  | zero => rfl
  | succ n ih =>
    rw [Memory.writeEven_succ, Memory.read_write_other _ _ (hx n (Nat.lt_succ_self n)), ih fun i hi => hx i (by omega)]

/-- The receiver after SEND_CHAR(i, v, 0) from an idle strobe, i in 0..7: byte 2i is v (44 R206, R209). -/
theorem seeData_charByte {c : Receiver} (hr : c.reading = true) {i : Nat} (hi : i < 8) (v : Byte) :
    c.seeData true (charAddress (BitVec.ofNat 32 i)) (charData (v.setWidth 32) false)
      = { c with
          inFrame := false, shift := v, nbits := 0, nbytes := 2, wmode := .fixed, frame := .address
          aptr := some (BitVec.ofNat 4 (2 * i)), ram := c.ram.write (2 * i) v } := by
  have haddr : ∀ i < 8, (charAddress (BitVec.ofNat 32 i)).setWidth 6 = BitVec.ofNat 6 (2 * i)
      ∧ (BitVec.ofNat 6 (2 * i)).toNat = 2 * i ∧ (BitVec.ofNat 6 (2 * i)).setWidth 4 = BitVec.ofNat 4 (2 * i) := by decide
  obtain ⟨ha, hn, hw⟩ := haddr i hi
  rw [seeData_display hr _ _ ha (by rw [hn]; show 2 * i < 16; omega), lowByte_charData, hn, hw]

/-- The receiver after the first n + 1 planes: the last of them is what APTR and SHIFT hold, and byte 2i is plane i. -/
theorem seePlanes_eq {c : Receiver} (hr : c.reading = true) (tb : List CHAR) {n : Nat} (hn : n < 8) :
    c.seePlanes tb (n + 1)
      = { c with
          inFrame := false, shift := planeByte tb n, nbits := 0, nbytes := 2, wmode := .fixed, frame := .address
          aptr := some (BitVec.ofNat 4 (2 * n)), ram := c.ram.writeEven (planeByte tb) (n + 1) } := by
  induction n with
  | zero => exact seeData_charByte hr hn _
  | succ n ih =>
    rw [seePlanes_succ, ih (by omega), seeData_charByte (by exact hr) hn, Memory.writeEven_succ _ _ (n + 1)]

/-- The receiver after a successful SET_TEXT from an idle strobe: bytes 0, 2, ..., 12 are the planes, byte 14 is DM (41 R149). -/
theorem seeText_eq {c : Receiver} (hr : c.reading = true) (dm : Byte) (tb : List CHAR) :
    c.seeText true dm tb
      = { c with
          inFrame := false, shift := planeByte tb 6, nbits := 0, nbytes := 2, wmode := .fixed, frame := .address
          aptr := some 12, ram := (c.ram.write 14 dm).writeEven (planeByte tb) 7 } := by
  have hdot := seeData_charByte hr (i := 7) (by decide) dm
  rw [Receiver.seeText, show (7 : I32) = BitVec.ofNat 32 7 from rfl, hdot, seePlanes_eq (by exact hr) tb (n := 6) (by decide)]
  rfl

theorem Memory.shown_of_read {m : Memory} {a : Nat} {v : Byte} (h : m.read a = some v) : m.shown a = v := by
  rw [Memory.shown, h, Option.getD_some]

/-- Settles O34: the receiver's closed form (`seeText_eq`), read byte by byte, and the board's reading of those bytes
(`boardDigit_segments`, `getLsbD_planeByte`). -/
theorem setTextDisplay : Obligations.SetTextDisplay := by
  unfold Obligations.SetTextDisplay
  rintro text dm s t hr ⟨hstb, -, hd⟩ ⟨hread, -⟩ hdm hglyph he
  rw [exec_setText hr hd hdm fun p hp => hglyph p (List.mem_range.mp hp), hstb, seeText_eq hread] at he
  obtain ⟨m, hm⟩ : ∃ m, m = (s.chip.ram.write 14 dm).writeEven (planeByte (textBuffer text)) 7 := ⟨_, rfl⟩
  rw [← hm] at he
  cases he
  have hdot : m.read 14 = some dm := by
    rw [hm, Memory.read_writeEven_other _ _ (by omega), Memory.read_write_same]
  have hplane : ∀ i, i < 7 → m.read (2 * i) = some (planeByte (textBuffer text) i) := fun i hi => by
    rw [hm, Memory.read_writeEven _ _ hi]
  refine ⟨hdot, hplane, fun x hx => ?_, rfl, rfl, rfl, rfl, rfl, rfl, ⟨hread, rfl⟩, fun p hp => ⟨?_, fun i hi => ?_⟩,
    fun hen hun => boardReading_eq hen hun⟩
  · show m.read x = s.chip.ram.read x
    rw [hm, Memory.read_writeEven_other _ _ fun i hi => hx i (by omega), Memory.read_write_other _ _ (hx 7 (by decide))]
  · rw [boardDigit_point, Memory.shown_of_read hdot]
  · rw [boardDigit_segments _ _ hi, Memory.shown_of_read (hplane i hi)]
    exact getLsbD_planeByte _ _ hp

/-! ### The outcomes of SET_TEXT (41 R148) -/

/-- A buffer has a glyph at every position that is not blank, or a first position that has none (41 R144). -/
theorem glyphs_or_first (tb : List CHAR) :
    glyphsAt tb (List.range 8)
    ∨ ∃ p, p < 8 ∧ bufferAt tb p ≠ chSpace ∧ font (bufferAt tb p) = none
        ∧ ∀ q, q < p → bufferAt tb q = chSpace ∨ (font (bufferAt tb q)).isSome = true := by
  by_cases h : ∃ p, p < 8 ∧ ¬ (bufferAt tb p = chSpace ∨ (font (bufferAt tb p)).isSome = true)
  · obtain ⟨hp, hbad⟩ := Nat.find_spec h
    rw [not_or, Bool.not_eq_true, Option.isSome_eq_false_iff, Option.isNone_iff_eq_none] at hbad
    refine .inr ⟨Nat.find h, hp, hbad.1, hbad.2, fun q hq => ?_⟩
    by_contra hq'
    exact Nat.find_min h hq ⟨hq.trans hp, hq'⟩
  · refine .inl fun p hp => ?_
    by_contra hbad
    exact h ⟨p, List.mem_range.mp hp, hbad⟩

/-- The dot-position error of any text: nothing is sent (41 R137). -/
theorem exec_setText_dotError {text : List CHAR} {r : Int} {s : State} (hr : s.ready) (hd : dotMask text = .error r) :
    exec (.setText text) s
      = .next { s with
          err := .dotPosition, errInfo := ⟨posOfInt r, none⟩, resultValid := false, req := none, tb := [], dm := 0, pacc := 0 } := by
  have hscript : scriptOf (.setText text) = [.raise .dotPosition ⟨posOfInt r, none⟩] := by
    simp only [scriptOf, setTextScript, hd]
  rw [exec_accepted rfl hr, hscript, run_register (accept_running hr.2.2) rfl, act, complete_of_not_running (raise_not_running ..),
    raise_setText rfl]
  obtain ⟨hm, hb, -⟩ := hr
  simp only [accept, hm, hb]

/-- Settles O37: a text has a misplaced dot, or all its glyphs (`exec_setText`), or a first character without one (`setTextNoGlyph`). -/
theorem setTextOutcomes : Obligations.SetTextOutcomes := by
  unfold Obligations.SetTextOutcomes
  intro text s hr hd
  cases hdm : dotMask text with
  | error r => exact ⟨_, [], exec_setText_dotError hr hdm, by simp [State.bus], .inr (.inl ⟨rfl, rfl, rfl⟩)⟩
  | ok dm =>
    rcases glyphs_or_first (textBuffer text) with hg | ⟨p, hp, hc, hf, hlt⟩
    · exact ⟨_, textEvents dm (planeByte (textBuffer text)), exec_setText hr hd hdm hg, by simp [State.bus],
        .inl ⟨rfl, length_textEvents .., count_textEvents ..⟩⟩
    · obtain ⟨c, he, -⟩ := setTextNoGlyph text dm p s hr hd hdm hp hc hf hlt
      exact ⟨_, dataFrames 0xCE dm, he, by simp [State.bus], .inr (.inr ⟨rfl, length_dataFrames .., count_dataFrames ..⟩)⟩

end Sys2Proof.Machine
end

section
/-! PROOFS of the family 42_key_scan: both key scans as one closed form with their two packings (O38, O39); the packing laws read off BUS
(O41); and where the two results agree (O42). -/

namespace Sys2Proof.Machine

/-! ### The two packings (42 R161, R163) -/

/-- Four bytes packed by OR, byte i shifted left by w i bits: w is 1 in GET_BUTTONS and 8 in GET_BUTTONS64 (42 R161, R163). -/
def packed (w : Nat) (b : Nat → Byte) : I64 :=
  (b 0).setWidth 64 ||| (b 1).setWidth 64 <<< w ||| (b 2).setWidth 64 <<< (2 * w) ||| (b 3).setWidth 64 <<< (3 * w)

theorem packed_congr (w : Nat) {b b' : Nat → Byte} (h : ∀ i, i < 4 → b i = b' i) : packed w b = packed w b' := by
  simp only [packed, h 0 (by decide), h 1 (by decide), h 2 (by decide), h 3 (by decide)]

/-- A byte shifted within the 64 bits. -/
theorem toNat_byte_shiftLeft (b : Byte) {n : Nat} (hn : n ≤ 56) : (b.setWidth 64 <<< n : I64).toNat = b.toNat * 2 ^ n := by
  have hb : b.toNat * 2 ^ n < 2 ^ 64 :=
    calc b.toNat * 2 ^ n < 2 ^ 8 * 2 ^ n := Nat.mul_lt_mul_of_pos_right b.isLt (Nat.two_pow_pos n)
      _ = 2 ^ (8 + n) := (Nat.pow_add ..).symm
      _ ≤ 2 ^ 64 := Nat.pow_le_pow_right (by decide) (by omega)
  rw [BitVec.toNat_shiftLeft, BitVec.toNat_setWidth_of_le (by decide), Nat.shiftLeft_eq, Nat.mod_eq_of_lt hb]

/-- Bit k of a byte shifted by i is bit k - i of the byte. -/
theorem getLsbD_byte_shiftLeft (b : Byte) {i : Nat} (hi : i ≤ 56) (k : Nat) :
    (b.setWidth 64 <<< i : I64).getLsbD k = (decide (i ≤ k ∧ k - i ≤ 7) && b.getLsbD (k - i)) := by
  by_cases h : i ≤ k ∧ k - i ≤ 7
  · simp [h, show k < 64 by omega, show ¬ k < i by omega]
  · simp only [h, decide_false, Bool.false_and, BitVec.getLsbD_shiftLeft, BitVec.getLsbD_setWidth]
    rcases Nat.lt_or_ge k i with hk | hk
    · simp [hk]
    · rw [BitVec.getLsbD_of_ge b (k - i) (by omega)]
      simp

theorem getLsbD_packed_one (b : Nat → Byte) (k : Nat) :
    (packed 1 b).getLsbD k = (List.range 4).any (fun i => decide (i ≤ k ∧ k - i ≤ 7) && (b i).getLsbD (k - i)) := by
  have h0 : ((b 0).setWidth 64 : I64).getLsbD k = ((b 0).setWidth 64 <<< 0 : I64).getLsbD k := by rw [BitVec.shiftLeft_zero]
  rw [packed, BitVec.getLsbD_or, BitVec.getLsbD_or, BitVec.getLsbD_or, h0, getLsbD_byte_shiftLeft _ (by decide),
    getLsbD_byte_shiftLeft _ (by decide), getLsbD_byte_shiftLeft _ (by decide), getLsbD_byte_shiftLeft _ (by decide)]
  simp only [show List.range 4 = [0, 1, 2, 3] from rfl, List.any_cons, List.any_nil, Bool.or_false, Bool.or_assoc, Nat.mul_one]

/-- GET_BUTTONS's result is an OR of the bytes at the weights 1, 2, 4 and 8 (42 R161). -/
theorem toNat_packed_one (b : Nat → Byte) :
    (packed 1 b).toNat = (b 0).toNat ||| (b 1).toNat * 2 ||| (b 2).toNat * 4 ||| (b 3).toNat * 8 := by
  rw [packed, BitVec.toNat_or, BitVec.toNat_or, BitVec.toNat_or, toNat_byte_shiftLeft _ (by decide),
    toNat_byte_shiftLeft _ (by decide), toNat_byte_shiftLeft _ (by decide), BitVec.toNat_setWidth_of_le (by decide)]
  rfl

theorem toNat_packed_one_le (b : Nat → Byte) : (packed 1 b).toNat ≤ 0x7FF := by
  rw [toNat_packed_one]
  exact Nat.le_of_lt_succ (Nat.or_lt_two_pow (n := 11)
    (Nat.or_lt_two_pow (Nat.or_lt_two_pow (by omega) (by omega)) (by omega)) (by omega))

/-- GET_BUTTONS's int32 holds the packed bytes whole. -/
theorem int32_packed_one (b : Nat → Byte) : ((packed 1 b).setWidth 32).setWidth 64 = packed 1 b := by
  have hle := toNat_packed_one_le b
  apply BitVec.eq_of_toNat_eq
  rw [BitVec.toNat_setWidth, BitVec.toNat_setWidth]
  omega

/-- GET_BUTTONS64's result is the sum of the bytes at their weights (42 R163). -/
theorem toNat_packed_eight (b : Nat → Byte) :
    (packed 8 b).toNat = (b 0).toNat + (b 1).toNat * 256 + (b 2).toNat * 256 ^ 2 + (b 3).toNat * 256 ^ 3 :=
  toNat_packed ..

theorem toNat_packed_eight_le (b : Nat → Byte) : (packed 8 b).toNat ≤ 0xFFFFFFFF := by
  rw [toNat_packed_eight]
  omega

/-- GET_BUTTONS64's result holds byte i in its own eight bits. -/
theorem extractLsb'_packed_eight (b : Nat → Byte) {i : Nat} (hi : i < 4) : (packed 8 b).extractLsb' (8 * i) 8 = b i := by
  apply BitVec.eq_of_toNat_eq
  rw [BitVec.extractLsb'_toNat, toNat_packed_eight, Nat.shiftRight_eq_div_pow]
  interval_cases i <;> omega

/-! ### One closed form for both key scans (42 R160, R162) -/

/-- The receiver that answers a key scan: the frame is open and the command byte 0x42 sent. -/
def State.keyChip (s : State) : Receiver := (chipStb s.stb false s.chip).seeByte (busDataReadKeys.setWidth 32)

/-- Byte i that a key scan from `s` receives. -/
def State.keyByte (s : State) (i : Nat) : Byte := s.keyChip.scanByte i

/-- The state a key scan from `s` ends in, when BTN_ACC and RESULT come to `v`. -/
def State.keyScanned (s : State) (v : I64) : State :=
  { s with
    stb := true, clk := true, dioOut := some (Config.dioRestoreLevel (s.restores + 3)), restores := s.restores + 4
    rxAcc := (s.keyByte 3).setWidth 32, btnAcc := v, result := v, resultValid := true, err := .none, req := none
    chip := chipStb false true (s.keyChip.afterBytes 4)
    trace := (scanEvents (s.keyByte 0) (s.keyByte 1) (s.keyByte 2) (s.keyByte 3)).reverse ++ s.trace }

theorem bus_keyScanned (s : State) (v : I64) :
    (s.keyScanned v).bus = s.bus ++ scanEvents (s.keyByte 0) (s.keyByte 1) (s.keyByte 2) (s.keyByte 3) := by
  simp only [State.bus, State.keyScanned, List.reverse_append, List.reverse_reverse]

/-- Two values of BTN_ACC and RESULT are all by which two key scans from one state can differ. -/
theorem keyScanned_eq (s : State) (v w : I64) : s.keyScanned w = { s.keyScanned v with btnAcc := w, result := w } := by
  simp only [State.keyScanned]

/-- A key scan as one operation, where RESULT is BTN_ACC as it stands. -/
theorem exec_keyScan {i : Instr} {take : Nat → Action} {f : Nat → I32 → I64 → I64} {res : Action} {g : I64 → I64} {v : I64} {s : State}
    (hi : isHostOperation i = true) (hi' : isSetText i = false) (hscript : scriptOf i = keyScanScript take res)
    (ht : ∀ i u, act (take i) u = { u with btnAcc := f i u.rxAcc u.btnAcc })
    (hres : ∀ u, act res u = { u with result := g u.btnAcc, resultValid := true })
    (hv : takeAll f (s.keyByte 0) (s.keyByte 1) (s.keyByte 2) (s.keyByte 3) = v) (hg : g v = v)
    (hr : s.ready) (hd : s.driving) : exec i s = .next (s.keyScanned v) := by
  have hrun := run_keyScan ht hres (accept_sending (op := i) hr hd) (c := s.keyChip) rfl (b0 := s.keyByte 0) (b1 := s.keyByte 1)
    (b2 := s.keyByte 2) (b3 := s.keyByte 3) rfl rfl rfl rfl
  rw [← hscript, hv, hg] at hrun
  rw [exec_completes hi hr hrun rfl rfl, endOperation_other (by exact hi')]
  obtain ⟨hm, hb, -⟩ := hr
  simp only [accept, State.keyScanned, hm, hb]

theorem exec_getButtons {s : State} (hr : s.ready) (hd : s.driving) :
    exec .getButtons s = .next (s.keyScanned (packed 1 s.keyByte)) :=
  exec_keyScan (f := orTake) (g := fun b => (b.setWidth 32).setWidth 64) rfl rfl rfl (fun _ _ => rfl) (fun _ => rfl) (takeAll_or ..)
    (int32_packed_one _) hr hd

theorem exec_getButtons64 {s : State} (hr : s.ready) (hd : s.driving) :
    exec .getButtons64 s = .next (s.keyScanned (packed 8 s.keyByte)) :=
  exec_keyScan (f := addTake) (g := id) rfl rfl rfl (fun _ _ => rfl) (fun _ => rfl) (takeAll_add ..) rfl hr hd

/-! ### A key scan the receiver does not see (40 R105, 44 R215) -/

theorem dropLine_dropLine (c : Receiver) (m n : Nat) : (c.dropLine m).dropLine n = c.dropLine (m + n) := by
  simp only [Receiver.dropLine, List.drop_drop, Nat.add_assoc]

/-- Bytes the chip does not present are the next levels of the line (log 3). -/
theorem afterBytes_line {c : Receiver} (hp : c.presenting = false) (n : Nat) : c.afterBytes n = c.dropLine (8 * n) := by
  induction n with
  | zero => simp [Receiver.afterBytes, Receiver.dropLine]
  | succ n ih =>
    obtain ⟨-, hdrop⟩ := answer_line (c := c.dropLine (8 * n)) hp
    rw [Receiver.afterBytes, ih, hdrop, dropLine_dropLine, Nat.mul_succ]

/-- Before the reading starts the command of a key scan changes nothing in the receiver. -/
theorem keyChip_unread {s : State} (h : s.chip.reading = false) : s.keyChip = s.chip := by
  rw [State.keyChip, chipStb_unread h, seeByte_closed (.inl h)]

theorem presenting_unread {c : Receiver} (h : c.reading = false) : c.presenting = false := by
  simp only [Receiver.presenting, h, Bool.false_and]

theorem keyByte_unread {s : State} (h : s.chip.reading = false) (i : Nat) : s.keyByte i = (s.chip.dropLine (8 * i)).lineByte 0 := by
  have hp : s.chip.presenting = false := presenting_unread h
  obtain ⟨hbyte, -⟩ := answer_line (c := s.chip.dropLine (8 * i)) hp
  rw [State.keyByte, keyChip_unread h, Receiver.scanByte, afterBytes_line hp, Receiver.byteNow, hbyte]

/-- A key scan before the reading starts draws 32 levels of the line, and no more comes to the receiver. -/
theorem keyScanned_chip_unread {s : State} (h : s.chip.reading = false) (v : I64) : (s.keyScanned v).chip = s.chip.dropLine 32 := by
  have hlift : chipStb false true (s.chip.dropLine 32) = s.chip.dropLine 32 := chipStb_unread (c := s.chip.dropLine 32) h _ _
  rw [State.keyScanned, keyChip_unread h, afterBytes_line (presenting_unread h)]
  exact hlift

/-- Settles O38: the closed form of GET_BUTTONS (`exec_getButtons`), and its receiver before the reading. -/
theorem getButtonsCompletes : Obligations.GetButtonsCompletes := by
  unfold Obligations.GetButtonsCompletes
  intro s hr hd
  refine ⟨s.keyByte 0, s.keyByte 1, s.keyByte 2, s.keyByte 3, (s.keyScanned (packed 1 s.keyByte)).chip, ?_,
    fun h => keyScanned_chip_unread h _⟩
  rw [exec_getButtons hr hd, State.keyScanned, packed]

/-- Settles O39: the closed form of GET_BUTTONS64 (`exec_getButtons64`), and its receiver before the reading. -/
theorem getButtons64Completes : Obligations.GetButtons64Completes := by
  unfold Obligations.GetButtons64Completes
  intro s hr hd
  refine ⟨s.keyByte 0, s.keyByte 1, s.keyByte 2, s.keyByte 3, (s.keyScanned (packed 8 s.keyByte)).chip, ?_,
    fun h => keyScanned_chip_unread h _⟩
  rw [exec_getButtons64 hr hd, State.keyScanned, packed]

/-! ### The bytes BUS shows -/

/-- The level of a SAMPLE event. -/
def sampledLevel : BusEvent → Option Bool
  | .sample b => some b
  | .stb _ | .clk _ | .dio _ | .dirIn | .dirOut => none

/-- The samples of one byte received are its bits. -/
theorem sampled_receiveEvents (b : Byte) : (receiveEvents b).filterMap sampledLevel = (List.range 8).map b.getLsbD := rfl

theorem receiveEvents_injective : Function.Injective receiveEvents := by
  intro b b' h
  have hbits := congrArg (List.filterMap sampledLevel) h
  rw [sampled_receiveEvents, sampled_receiveEvents, List.map_inj_left] at hbits
  exact BitVec.eq_of_getLsbD_eq fun i hi => hbits i (List.mem_range.mpr hi)

/-- The frame of a key scan determines its four bytes. -/
theorem scanEvents_inj {b b' : Nat → Byte} (h : scanEvents (b 0) (b 1) (b 2) (b 3) = scanEvents (b' 0) (b' 1) (b' 2) (b' 3)) :
    ∀ i, i < 4 → b i = b' i := by
  have h := List.append_cancel_right h
  obtain ⟨h, h3⟩ := List.append_inj h rfl
  obtain ⟨h, h2⟩ := List.append_inj h rfl
  obtain ⟨h, h1⟩ := List.append_inj h rfl
  have h0 := List.append_cancel_left h
  intro i hi
  apply receiveEvents_injective
  interval_cases i <;> assumption

/-- RESULT after a key scan is the packing of the bytes its frame shows. -/
theorem result_keyScanned {w : Nat} {s : State} {b : Nat → Byte}
    (hbus : (s.keyScanned (packed w s.keyByte)).bus = s.bus ++ scanEvents (b 0) (b 1) (b 2) (b 3)) :
    (s.keyScanned (packed w s.keyByte)).result = packed w b := by
  rw [bus_keyScanned] at hbus
  exact packed_congr w (scanEvents_inj (List.append_cancel_left hbus))

theorem result_getButtons {s t : State} {b : Nat → Byte} (hr : s.ready) (hd : s.driving) (he : exec .getButtons s = .next t)
    (hbus : t.bus = s.bus ++ scanEvents (b 0) (b 1) (b 2) (b 3)) : t.result = packed 1 b := by
  cases (exec_getButtons hr hd).symm.trans he
  exact result_keyScanned hbus

theorem result_getButtons64 {s t : State} {b : Nat → Byte} (hr : s.ready) (hd : s.driving) (he : exec .getButtons64 s = .next t)
    (hbus : t.bus = s.bus ++ scanEvents (b 0) (b 1) (b 2) (b 3)) : t.result = packed 8 b := by
  cases (exec_getButtons64 hr hd).symm.trans he
  exact result_keyScanned hbus

/-! ### Two scans with one result -/

/-- The state after reset with the bits of some bytes next on the data line, least significant first. -/
def State.resetWithLine (bs : List Byte) : State :=
  { State.reset with chip := { Receiver.start with line := bs.flatMap fun b => (List.range 8).map b.getLsbD } }

/-- From such a state a key scan receives the line's bytes. -/
theorem keyByte_resetWithLine (bs : List Byte) (i : Nat) :
    (State.resetWithLine bs).keyByte i = ((State.resetWithLine bs).chip.dropLine (8 * i)).lineByte 0 :=
  keyByte_unread rfl i

/-- The bytes 2, 0, 0, 0 and 0, 1, 0, 0 differ in byte 0, and the one key bit of each packs to the same bit of RESULT. -/
theorem packed_one_collision :
    (State.resetWithLine [2, 0, 0, 0]).keyByte 0 ≠ (State.resetWithLine [0, 1, 0, 0]).keyByte 0
    ∧ packed 1 (State.resetWithLine [2, 0, 0, 0]).keyByte = packed 1 (State.resetWithLine [0, 1, 0, 0]).keyByte := by
  simp only [packed, keyByte_resetWithLine]
  decide

/-- Settles O41: RESULT is the packing of the bytes BUS shows (`result_getButtons`, `result_getButtons64`), and each packing's laws. -/
theorem packingLaws : Obligations.PackingLaws := by
  unfold Obligations.PackingLaws
  refine ⟨fun s t b hr hd he hbus => ?_, ?_, fun s t b hr hd he hbus => ?_,
    fun s s' t t' b b' hr hd hr' hd' he he' hbus hbus' h i hi => ?_⟩
  · rw [result_getButtons hr hd he hbus]
    exact ⟨toNat_packed_one_le b, getLsbD_packed_one b⟩
  · have hready : ∀ bs, (State.resetWithLine bs).ready ∧ (State.resetWithLine bs).driving := fun _ => ⟨⟨rfl, rfl, rfl⟩, rfl⟩
    obtain ⟨hr, hd⟩ := hready [2, 0, 0, 0]
    obtain ⟨hr', hd'⟩ := hready [0, 1, 0, 0]
    obtain ⟨hne, heq⟩ := packed_one_collision
    exact ⟨_, _, _, _, _, _, hr, hd, hr', hd', exec_getButtons hr hd, exec_getButtons hr' hd', bus_keyScanned .., bus_keyScanned ..,
      hne, heq⟩
  · rw [result_getButtons64 hr hd he hbus]
    exact ⟨toNat_packed_eight b, toNat_packed_eight_le b, fun i hi => extractLsb'_packed_eight b hi⟩
  · rw [result_getButtons64 hr hd he hbus, result_getButtons64 hr' hd' he' hbus'] at h
    rw [← extractLsb'_packed_eight b hi, h, extractLsb'_packed_eight b' hi]

/-! ### Where the two results agree (42 R164) -/

/-- An OR carries nothing. -/
theorem or_le_add (x y : Nat) : x ||| y ≤ x + y := by
  induction x using Nat.strongRec generalizing y with
  | ind x ih =>
    rcases Nat.eq_zero_or_pos x with rfl | hx
    · simp
    · have hhalf := ih (x / 2) (by omega) (y / 2)
      have hdiv : (x ||| y) / 2 = x / 2 ||| y / 2 := Nat.or_div_two
      have hmod : (x ||| y) % 2 = 1 ↔ x % 2 = 1 ∨ y % 2 = 1 := Nat.or_mod_two_eq_one
      omega

/-- The bytes weigh less in GET_BUTTONS's result, all but the first. -/
theorem toNat_packed_one_le_sum (b : Nat → Byte) :
    (packed 1 b).toNat ≤ (b 0).toNat + (b 1).toNat * 2 + (b 2).toNat * 4 + (b 3).toNat * 8 := by
  rw [toNat_packed_one]
  refine (or_le_add _ _).trans (Nat.add_le_add_right ?_ _)
  exact (or_le_add _ _).trans (Nat.add_le_add_right (or_le_add _ _) _)

theorem packed_of_rest_zero (w : Nat) {b : Nat → Byte} (h1 : b 1 = 0) (h2 : b 2 = 0) (h3 : b 3 = 0) :
    packed w b = (b 0).setWidth 64 := by
  simp [packed, h1, h2, h3]

/-- The two packings agree exactly where only byte 0 counts. -/
theorem packed_one_eq_eight_iff (b : Nat → Byte) : packed 1 b = packed 8 b ↔ b 1 = 0 ∧ b 2 = 0 ∧ b 3 = 0 := by
  constructor
  · intro h
    have hle := toNat_packed_one_le_sum b
    rw [h, toNat_packed_eight] at hle
    have hzero : ∀ i, (b i).toNat = 0 → b i = 0 := fun i hi => BitVec.eq_of_toNat_eq hi
    exact ⟨hzero 1 (by omega), hzero 2 (by omega), hzero 3 (by omega)⟩
  · rintro ⟨h1, h2, h3⟩
    rw [packed_of_rest_zero 1 h1 h2 h3, packed_of_rest_zero 8 h1 h2 h3]

/-- Settles O42: the two scans' closed forms differ in the packing alone, and the packings agree where only byte 0 counts
(`packed_one_eq_eight_iff`). -/
theorem keyScansDistinct : Obligations.KeyScansDistinct := by
  unfold Obligations.KeyScansDistinct
  intro s hr hd
  refine ⟨s.keyScanned (packed 1 s.keyByte), s.keyScanned (packed 8 s.keyByte), s.keyByte 0, s.keyByte 1, s.keyByte 2, s.keyByte 3,
    exec_getButtons hr hd, exec_getButtons64 hr hd, bus_keyScanned .., keyScanned_eq .., packed_one_eq_eight_iff _, fun h => ?_⟩
  obtain ⟨h1, h2, h3⟩ := (packed_one_eq_eight_iff _).mp h
  exact packed_of_rest_zero 1 h1 h2 h3

end Sys2Proof.Machine
end

section
/-! PROOFS of the family 43_lookup_units: the font and dot-weight ROMs (O43, O30); FONT_LOOKUP, ROTATE_BITS and POW2, each a sequence
of one register action (O44 to O47); and what the requests without an event leave unchanged (O53). -/

namespace Sys2Proof.Machine

/-! ### The ROMs (43 R182, R183, R187) -/

/-- Every character that must have a glyph has one: its fixed mask, or a free one. -/
theorem font_ne_none_of_required {c : CHAR} (h : c ∈ requiredGlyphs) : font c ≠ none := by
  unfold font
  split_ifs <;> exact Option.some_ne_none _

/-- Settles O43: three closed entries, and every listed character is one that must have a glyph. -/
theorem fontEntries : Obligations.FontEntries := by
  unfold Obligations.FontEntries
  exact ⟨rfl, rfl, rfl, fun c hc => font_ne_none_of_required (List.mem_map_of_mem hc)⟩

/-- The dot weight of realPos r in two halves: the low nibble's bits downwards, then the high nibble's (43 R187). -/
theorem dotw_eq_shiftRight {r : Nat} (hr : r < 8) : dotw r = if 4 ≤ r then (0x80 : Byte) >>> (r - 4) else (0x08 : Byte) >>> r := by
  have h : ∀ r < 8, dotw r = if 4 ≤ r then (0x80 : Byte) >>> (r - 4) else (0x08 : Byte) >>> r := by decide
  exact h r hr

/-- A character found in a text lies within it. -/
theorem firstIndex_lt {text : List CHAR} {c : CHAR} {j : Nat} (h : firstIndex text c = some j) : j < text.length :=
  (List.findIdx?_eq_some_iff_getElem.mp h).1

/-- An index within the text has a realPos of at most 7 (41 R136). -/
theorem realPos_le_seven {j len : Nat} (h : j < len) : realPos j len ≤ 7 := by
  unfold realPos
  omega

/-- Settles O30: the formulas at each of the 8 entries (`dotw_eq_shiftRight`, `dotw_eq_shiftLeft`), and the dot lies within its text. -/
theorem dotWeightsLaw : Obligations.DotWeights := by
  unfold Obligations.DotWeights
  refine ⟨rfl, fun r hr => dotw_eq_shiftRight hr, fun r hr => dotw_eq_shiftLeft hr, fun text j h => ?_⟩
  have hle : realPos j text.length ≤ 7 := realPos_le_seven (firstIndex_lt h)
  exact (lt_or_ge (realPos j text.length) 0).imp_right fun h0 => ⟨h0, hle⟩

/-! ### The sequences of the lookup units -/

theorem scriptOf_fontLookup_some {ch : CHAR} {m : Byte} (h : font ch = some m) :
    scriptOf (.fontLookup ch) = [.setResult (m.setWidth 64)] := by
  simp only [scriptOf, fontLookupScript, h]

/-- A lookup has no text position: ERR_INFO.pos is -1 (43 R186). -/
theorem scriptOf_fontLookup_none {ch : CHAR} (h : font ch = none) : scriptOf (.fontLookup ch) = [.raise .noGlyph ⟨-1, some ch⟩] := by
  have hpos : posOfInt (-1) = -1 := posOfInt_of_mem (by decide) (by decide)
  simp only [scriptOf, fontLookupScript, h, hpos]

theorem scriptOf_rotateBits (v : I32) : scriptOf (.rotateBits v) = [.setResult ((v.setWidth 8).setWidth 64)] := by
  rw [scriptOf, rotateBitsScript, rotate_eq, lowByte]

/-- A power of two an int32 holds, in RESULT. -/
theorem setWidth_one_shiftLeft {k : Nat} (hk : k ≤ 30) : ((1 : I32) <<< k).setWidth 64 = BitVec.ofNat 64 (2 ^ k) := by
  have hlt : 2 ^ k < 2 ^ 32 := Nat.pow_lt_pow_right (by decide) (by omega)
  apply BitVec.eq_of_toNat_eq
  rw [BitVec.toNat_setWidth, BitVec.toNat_shiftLeft, BitVec.toNat_ofNat, Nat.shiftLeft_eq, show (1 : I32).toNat = 1 from rfl, Nat.one_mul,
    Nat.mod_eq_of_lt hlt]

/-- POW2's value for n ≥ 0: exact to 30, then the largest int32 (43 R190). -/
def pow2Result (n : I32) : I64 := if n.toInt ≤ 30 then BitVec.ofNat 64 (2 ^ n.toInt.toNat) else 0x7FFFFFFF

theorem scriptOf_pow2_nonneg {n : I32} (h : 0 ≤ n.toInt) : scriptOf (.pow2 n) = [.setResult (pow2Result n)] := by
  have hnat : n.toInt.toNat = n.toNat := BitVec.toNat_toInt_of_sle (decide_eq_true h)
  simp only [scriptOf, pow2Script, pow2Value, pow2Result, if_neg (not_lt.mpr h)]
  by_cases h30 : n.toInt ≤ 30
  · simp only [if_pos h30, hnat, setWidth_one_shiftLeft (show n.toNat ≤ 30 by omega)]
  · simp only [if_neg h30]
    rfl

theorem scriptOf_pow2_neg {n : I32} (h : n.toInt < 0) : scriptOf (.pow2 n) = [.refuse .domain] := by
  simp only [scriptOf, pow2Script, pow2Value, if_pos h]

/-! ### An operation of one register action (60 R236, R239, R241) -/

/-- The end of an operation just accepted, if it is not SET_TEXT: what is left is ERR, and that nothing is pending. -/
theorem endOperation_accept {op : Instr} (ht : isSetText op = false) {s : State} (hr : s.ready) :
    endOperation (accept op s) = { s with err := .none, req := none } := by
  obtain ⟨hm, hb, -⟩ := hr
  rw [endOperation_other (s := accept op s) ht, accept, ← hm, ← hb]

section
variable {i : Instr} (hi : isHostOperation i = true) (ht : isSetText i = false) {s : State} (hr : s.ready)
include hi ht hr

/-- An operation that only writes RESULT. -/
theorem exec_setResult {v : I64} (hs : scriptOf i = [.setResult v]) :
    exec i s = .next { s with result := v, resultValid := true, err := .none, req := none } := by
  have hrun : run (scriptOf i) (accept i s) = { accept i s with result := v, resultValid := true } := by
    rw [hs, run_register (accept_running hr.2.2) rfl, act]
  rw [exec_completes (n := 0) hi hr hrun rfl rfl]
  exact congrArg (fun u : State => Host.Outcome.next { u with result := v, resultValid := true }) (endOperation_accept ht hr)

/-- An operation that only raises an argument error. -/
theorem exec_raise {code : ErrCode} {info : ErrInfo} (hs : scriptOf i = [.raise code info]) :
    exec i s = .next { s with err := code, errInfo := info, resultValid := false, req := none } := by
  rw [exec_accepted hi hr, hs, run_register (accept_running hr.2.2) rfl, act, complete_of_not_running (raise_not_running ..),
    raiseInvalidArgument, endOperation_accept ht hr]

/-- An operation that is refused. -/
theorem exec_refuse {code : ErrCode} (hs : scriptOf i = [.refuse code]) :
    exec i s = .next { s with err := code, resultValid := false, req := none, refusalMark := true } := by
  rw [exec_accepted hi hr, hs, run_register (accept_running hr.2.2) rfl, act, complete_of_not_running (refuse_not_running ..),
    refuseRequest_accept ht hr]

end

/-- Settles O44: the character has a mask, which is RESULT (`exec_setResult`), or none, which is an argument error (`exec_raise`). -/
theorem fontLookupCompletes : Obligations.FontLookupCompletes := by
  unfold Obligations.FontLookupCompletes
  exact fun ch s hr => ⟨fun m h => exec_setResult rfl rfl hr (scriptOf_fontLookup_some h),
    fun h => exec_raise rfl rfl hr (scriptOf_fontLookup_none h)⟩

/-- Settles O45: ROTATE's table is the identity (`rotate_eq`), so the byte rotated is the low byte itself. -/
theorem rotateBitsCompletes : Obligations.RotateBitsCompletes := by
  unfold Obligations.RotateBitsCompletes
  exact ⟨rotate_eq, fun v s hr => exec_setResult rfl rfl hr (scriptOf_rotateBits v)⟩

/-- Settles O46: up to n = 30 the shifted bit stays within int32 (`scriptOf_pow2_nonneg`). -/
theorem pow2Completes : Obligations.Pow2Completes := by
  unfold Obligations.Pow2Completes
  exact fun n s hr h => exec_setResult rfl rfl hr (scriptOf_pow2_nonneg h)

/-- Settles O47: below 0 POW2's sequence is the refusal alone (`scriptOf_pow2_neg`). -/
theorem pow2NegativeRefused : Obligations.Pow2NegativeRefused := by
  unfold Obligations.Pow2NegativeRefused
  exact fun n s hr h => exec_refuse rfl rfl hr (scriptOf_pow2_neg h)

/-! ### What the requests without an event leave unchanged (43; 60 R236, R240) -/

/-- What no request without an event touches: the pins, the working registers, ENABLED, BUS, the chip, and the host's side. -/
def State.silentView (s : State) :=
  (s.stb, s.clk, s.dioOut, s.rxAcc, s.btnAcc, s.tb, s.dm, s.pacc, s.enabled, s.bus, s.chip, s.restores, s.host, s.hostData)

/-- Outside a SET_TEXT the end of a request touches none of these. -/
theorem silentView_endOperation {s : State} (h : s.mstep.inSetText = false) : (endOperation s).silentView = s.silentView := by
  rw [endOperation_other h]
  rfl

/-- The action answers a lookup: a value for RESULT, an argument error, or a refusal. -/
def Action.isAnswer : Action → Bool
  | .setResult _ | .raise _ _ | .refuse _ => true
  | .stb _ | .clk _ | .dio _ | .dirIn | .dirOut | .sample | .rxClear | .rxShift | .btnClear | .btnOr _ | .btnAdd _ | .resultOfBtn32
  | .resultOfBtn64 | .clearValid | .setEnabled | .startReading | .setDm _ | .setTb _ | .paccClear | .paccOr _ => false

/-- An operation just accepted, answered: the answer ends it, or the completion does. -/
theorem silentView_answered {a : Action} (ha : a.isAnswer = true) {op : Instr} (ht : isSetText op = false) {s : State}
    (hf : s.modelFault = none) : (complete (act a (accept op s))).silentView = s.silentView := by
  cases a with
  | setResult v =>
    have hr : (act (.setResult v) (accept op s)).running = true := accept_running (op := op) hf
    rw [complete_of_running hr]
    exact silentView_endOperation (s := act (.setResult v) (accept op s)) ht
  | raise code info =>
    rw [act, complete_of_not_running (raise_not_running ..)]
    exact silentView_endOperation (s := accept op s) ht
  | refuse code =>
    rw [act, complete_of_not_running (refuse_not_running ..)]
    exact silentView_endOperation (s := accept op s) ht
  | stb _ | clk _ | dio _ | dirIn | dirOut | sample | rxClear | rxShift | btnClear | btnOr _ | btnAdd _ | resultOfBtn32
  | resultOfBtn64 | clearValid | setEnabled | startReading | setDm _ | setTb _ | paccClear | paccOr _ => cases ha

/-- An operation whose sequence is one answer, accepted or not. -/
theorem silentView_operation {i : Instr} (hi : isHostOperation i = true) (ht : isSetText i = false) {a : Action}
    (hs : scriptOf i = [a]) (ha : a.isAnswer = true) {s t : State} (h : exec i s = .next t) : t.silentView = s.silentView := by
  rw [exec_hostOperation hi, runRequest, hs] at h
  split at h
  next hc =>
    obtain ⟨-, hf⟩ := canAccept_iff.mp hc
    cases h
    rw [run_register (accept_running hf) rfl]
    exact silentView_answered ha ht hf
  next => cases h; rfl

/-- A reserved code, accepted and refused or not accepted (30 R81). -/
theorem silentView_reserved {o : BitVec 4} {s t : State} (h : exec (.reserved o) s = .next t) : t.silentView = s.silentView := by
  have ht : t = refuseOpsel (.reserved o) s := by cases h; rfl
  rw [ht, refuseOpsel]
  split
  · exact silentView_endOperation (s := accept (.reserved o) s) rfl
  · rfl

/-- Settles O53: each sequence is one answer (`silentView_operation`), and a reserved code is refused (`silentView_reserved`). -/
theorem silentRequestsFrame : Obligations.SilentRequestsFrame := by
  unfold Obligations.SilentRequestsFrame
  intro i s t hi h
  suffices hv : t.silentView = s.silentView by simpa only [State.silentView, Prod.mk.injEq] using hv
  rcases hi with ⟨ch, rfl⟩ | ⟨v, rfl⟩ | ⟨n, rfl⟩ | ⟨o, rfl⟩
  · cases hm : font ch with
    | some m => exact silentView_operation rfl rfl (scriptOf_fontLookup_some hm) rfl h
    | none => exact silentView_operation rfl rfl (scriptOf_fontLookup_none hm) rfl h
  · exact silentView_operation rfl rfl (scriptOf_rotateBits v) rfl h
  · rcases lt_or_ge n.toInt 0 with hn | hn
    · exact silentView_operation rfl rfl (scriptOf_pow2_neg hn) rfl h
    · exact silentView_operation rfl rfl (scriptOf_pow2_nonneg hn) rfl h
  · exact silentView_reserved h

end Sys2Proof.Machine
end

section
/-! PROOFS of the family 44_tm1638_bus_commands: what SEND_CHAR stores (O28) and the key scans read (O40); the bus commands (O48), the
edges of STB (O49), the data bytes (O50) and the bytes the source does not gloss (O51); the observation of the display (O15); and that
the engine does not depend on the receiver (O54). -/

namespace Sys2Proof.Machine

/-! ### The edges of STB (44 R202, R214) -/

/-- A frame that ends within a byte leaves the reading UNKNOWN (44 R202). -/
theorem chipStb_rise_partial {c : Receiver} (hr : c.reading = true) (hn : c.nbits ≠ 0) :
    chipStb false true c = { c with inFrame := false, unknown := true } := by
  simp [chipStb, hr, hn]

/-- Settles O49: the falling edge, the rising edge at a byte boundary and within a byte, and no edge (`chipStb_fall`, `chipStb_rise`,
`chipStb_rise_partial`, `chipStb_same`). -/
theorem framingEdges : Obligations.FramingEdges := by
  unfold Obligations.FramingEdges
  exact fun c hr => ⟨chipStb_fall hr, chipStb_rise hr, chipStb_rise_partial hr, fun b => chipStb_same b c⟩

/-! ### The bus commands (44 R205 to R209, R211) -/

/-- A display address goes to APTR (44 R209). -/
theorem address_display (c : Receiver) {a : BitVec 6} (ha : a.toNat < 16) :
    c.address a = { c with aptr := some (a.setWidth 4), frame := .address } := if_pos ha

/-- An address outside the display RAM leaves the reading UNKNOWN (44 R211). -/
theorem address_outside (c : Receiver) {a : BitVec 6} (ha : 16 ≤ a.toNat) :
    c.address a = { c with unknown := true, frame := .other } := if_neg (Nat.not_lt.mpr ha)

/-- Settles O48: each command is its effect on the receiver and the count of its byte (`exec_busCommand`), an address command by
where its address lies. -/
theorem busCommandsComplete : Obligations.BusCommandsComplete := by
  unfold Obligations.BusCommandsComplete
  intro s
  refine ⟨exec_busCommand .dataWriteAuto s, exec_busCommand .dataWriteFixed s, exec_busCommand .dataReadKeys s,
    fun i => exec_busCommand (.displayCtrl i) s, fun a ha => ?_, fun a ha => ?_⟩
  · refine (exec_busCommand (.address a) s).trans ?_
    rw [Receiver.busCommand, address_display s.chip ha]
    rfl
  · refine (exec_busCommand (.address a) s).trans ?_
    rw [Receiver.busCommand, address_outside s.chip ha]
    rfl

/-! ### Command bytes the source does not gloss (44 R204, R211) -/

/-- A byte of the address class is the address command of its low six bits (30 R75). -/
theorem decodeBus8_of_busClass {v : Byte} (h : busClass v = 3) : decodeBus8 v = .ok (.address (busAddr v)) := by
  conv_lhs => rw [← address_addr h]
  exact decode_address _

/-- The address bytes 0xD0 to 0xFF address no display byte. -/
theorem busAddr_outside {v : Byte} (h : 0xD0 ≤ v.toNat) : 16 ≤ (busAddr v).toNat := by
  have hv := v.isLt
  rw [busAddr, BitVec.extractLsb'_toNat, Nat.shiftRight_zero]
  omega

/-- An unglossed command byte, and an address byte outside the display RAM, make the reading UNKNOWN and write nothing else of what
the source describes. -/
theorem commandByte_unglossed (c : Receiver) {v : Byte} (h : (∀ cmd, decodeBus8 v ≠ .ok cmd) ∨ 0xD0 ≤ v.toNat) :
    c.commandByte v = { c with unknown := true, frame := .other } := by
  rw [Receiver.commandByte]
  rcases h with h | h
  · cases hd : decodeBus8 v with
    | ok cmd => exact absurd hd (h cmd)
    | error e => rfl
  · rw [decodeBus8_of_busClass ((busClass_eq_three_iff v).mpr (by omega))]
    exact address_outside c (busAddr_outside h)

theorem takeByte_command {c : Receiver} (hn : c.nbytes = 0) (v : Byte) : c.takeByte v = (c.commandByte v).byteDone := by
  rw [Receiver.takeByte, if_pos hn]

/-- Settles O51: the byte is dispatched as a command, and only UNKNOWN and the framing change (`commandByte_unglossed`). -/
theorem unglossedCommandUnknown : Obligations.UnglossedCommandUnknown := by
  unfold Obligations.UnglossedCommandUnknown
  intro c v hn h
  rw [takeByte_command hn, commandByte_unglossed c h]
  exact ⟨rfl, rfl, rfl, rfl, rfl, rfl⟩

/-! ### Data bytes (44 R209 to R211) -/

/-- A data byte with a place is stored there. -/
theorem ram_takeByte_placed {c : Receiver} {a : Nat} (hn : c.nbytes ≠ 0) (ha : c.dataAddress = some a) (d : Byte) :
    (c.takeByte d).ram = c.ram.write a d := by
  rw [Receiver.takeByte, if_neg hn, Receiver.dataByte, ha]
  rfl

/-- A data byte without a place makes the reading UNKNOWN and stores nothing. -/
theorem takeByte_unplaced {c : Receiver} (hn : c.nbytes ≠ 0) (ha : c.dataAddress = none) (d : Byte) :
    (c.takeByte d).unknown = true ∧ (c.takeByte d).ram = c.ram := by
  rw [Receiver.takeByte, if_neg hn, Receiver.dataByte, ha]
  exact ⟨rfl, rfl⟩

theorem dataAddress_fixed {c : Receiver} {a : BitVec 4} (hf : c.frame = .address) (ha : c.aptr = some a) (hw : c.wmode = .fixed) :
    c.dataAddress = if c.nbytes = 1 then some a.toNat else none := by
  simp only [Receiver.dataAddress, hf, ha, hw]

theorem dataAddress_auto {c : Receiver} {a : BitVec 4} (hf : c.frame = .address) (ha : c.aptr = some a) (hw : c.wmode = .auto) :
    c.dataAddress = if a.toNat + (c.nbytes - 1) < 16 then some (a.toNat + (c.nbytes - 1)) else none := by
  simp only [Receiver.dataAddress, hf, ha, hw]

/-- Outside an address frame, without an address, or with no write mode set, no rule places a data byte. -/
theorem dataAddress_none {c : Receiver} (h : c.frame ≠ .address ∨ c.aptr = none ∨ c.wmode = .none ∨ c.wmode = .read) :
    c.dataAddress = none := by
  unfold Receiver.dataAddress
  split
  next hf ha hw => simp [hf, ha, hw] at h
  next hf ha hw => simp [hf, ha, hw] at h
  next => rfl

/-- Settles O50: where the rules place a data byte (`dataAddress_fixed`, `dataAddress_auto`, `dataAddress_none`), and what it does there
and elsewhere (`ram_takeByte_placed`, `takeByte_unplaced`). -/
theorem dataBytePlacement : Obligations.DataBytePlacement := by
  unfold Obligations.DataBytePlacement
  intro c a d hn
  refine ⟨fun hf ha hw h => ?_, fun hf ha hw h => ?_, fun hf ha hw h => ?_, fun hf ha hw h => ?_,
    fun h => takeByte_unplaced hn (dataAddress_none h) d⟩
  · exact ram_takeByte_placed hn ((dataAddress_fixed hf ha hw).trans (if_pos h)) d
  · exact takeByte_unplaced hn ((dataAddress_fixed hf ha hw).trans (if_neg h)) d
  · exact ram_takeByte_placed hn ((dataAddress_auto hf ha hw).trans (if_pos (by omega))) d
  · exact takeByte_unplaced hn ((dataAddress_auto hf ha hw).trans (if_neg (by omega))) d

/-! ### The observation of the display (44 R211, R215; 70 R263) -/

/-- At the host's turn the observation is the step. -/
theorem step_observeDisplay {s : State} {rest : List HostAction} (ht : s.hostTurn) (hh : s.host = .observeDisplay :: rest) :
    step s = observeDisplay { s with host := rest } := by
  rw [step_hostRead ht hh rfl]
  simp only [hostStep, hh]

/-- Settles O15: the step is the observation (`step_observeDisplay`), answered by ENABLED and UNKNOWN. -/
theorem displayObservation : Obligations.DisplayObservation := by
  unfold Obligations.DisplayObservation
  intro s rest ht hh
  rw [step_observeDisplay ht hh]
  refine ⟨fun he => ?_, fun he hu => ?_, fun he hu => ?_⟩
  · simp [observeDisplay, State.displayReading, he]
  · simp [observeDisplay, State.displayReading, he, hu]
  · simp [observeDisplay, State.displayReading, he, hu]

/-! ### What SEND_CHAR stores (44 R206, R209, R211) -/

/-- SEND_CHAR's address is even (41 R134). -/
theorem charAddress_even (pos : I32) : ((charAddress pos).setWidth 6).toNat % 2 = 0 := by
  rw [BitVec.toNat_setWidth, charAddress, BitVec.toNat_mul, show (2 : I32).toNat = 2 from rfl]
  omega

/-- What SEND_CHAR leaves of the receiver is what SEND_DATA's two frames leave (41 R133). -/
theorem chip_sendChar {pos data : I32} {dot : Bool} {s t : State} (hr : s.ready) (hd : s.driving)
    (h : exec (.sendChar pos data dot) s = .next t) : t.chip = s.chip.seeData s.stb (charAddress pos) (charData data dot) := by
  rw [exec_completes (i := .sendChar pos data dot) rfl hr (run_sendChar (accept_sending hr hd) pos data dot) rfl rfl] at h
  cases h
  rfl

/-- Settles O28: the receiver after SEND_CHAR's frames (`chip_sendChar`), at a display address and outside (`seeData_display`,
`seeData_outside`). -/
theorem sendCharStores : Obligations.SendCharStores := by
  unfold Obligations.SendCharStores
  rintro pos data dot s t hr ⟨hstb, -, hd⟩ ⟨hread, -⟩ h
  refine ⟨charAddress_even pos, ?_⟩
  rw [chip_sendChar hr hd h, hstb]
  rcases Nat.lt_or_ge ((charAddress pos).setWidth 6).toNat 16 with ha | ha
  · rw [seeData_display hread _ _ rfl ha]
    exact ⟨rfl, rfl, rfl, rfl, ⟨hread, rfl⟩,
      fun _ => ⟨Memory.read_write_same _ _ _, fun x hx => Memory.read_write_other _ _ hx, rfl, rfl⟩,
      fun h => absurd ha (Nat.not_lt.mpr h)⟩
  · rw [seeData_outside hread _ _ rfl ha]
    exact ⟨rfl, rfl, rfl, rfl, ⟨hread, rfl⟩, fun h => absurd h (Nat.not_lt.mpr ha), fun _ => ⟨fun _ => rfl, rfl, rfl⟩⟩

/-! ### What the key scans read (44 R207) -/

/-- The receiver once the command byte of a key scan is taken: KEYS is drawn, and its first bit is to be presented. -/
theorem keyChip_read {s : State} (hs : s.stb = true) (hr : s.chip.reading = true) :
    s.keyChip = { s.chip.opened with
      shift := busDataReadKeys, nbytes := 1, wmode := .read, frame := .scan, ki := 0, kj := 0
      keys := ⟨s.chip.lineByte 0, s.chip.lineByte 1, s.chip.lineByte 2, s.chip.lineByte 3⟩
      line := s.chip.line.drop 32, draws := s.chip.draws + 32 } := by
  have htaken : s.keyChip = s.chip.opened.taken busDataReadKeys := by
    rw [State.keyChip, hs, chipStb_fall hr]
    exact seeByte_open (c := s.chip.opened) hr rfl rfl _
  rw [htaken, taken_command (cmd := .dataReadKeys) rfl (by decide)]
  rfl

/-- A chip that presents KEYS does so at each of the four bytes. -/
theorem presenting_ki {c : Receiver} (hp : c.presenting = true) {n : Nat} (hn : n < 4) :
    ({ c with ki := n } : Receiver).presenting = true := by
  simp only [Receiver.presenting, Bool.and_eq_true, decide_eq_true_eq] at hp ⊢
  obtain ⟨hread, hopen, hscan, -⟩ := hp
  exact ⟨hread, hopen, hscan, hn⟩

section
variable {c : Receiver} (hp : c.presenting = true) (hi : c.ki = 0) (hj : c.kj = 0)
include hp hi hj

/-- While the chip presents KEYS, each byte received takes it to the next of the four. -/
theorem afterBytes_presenting {n : Nat} (hn : n ≤ 4) : c.afterBytes n = { c with ki := n } := by
  induction n with
  | zero => rw [Receiver.afterBytes, ← hi]
  | succ n ih =>
    obtain ⟨-, hnext⟩ := answer_presenting (c := { c with ki := n }) (presenting_ki hp (by omega)) hj
    rw [Receiver.afterBytes, ih (by omega), hnext]

/-- Byte n of the scan is KEYS[n]. -/
theorem scanByte_presenting {n : Nat} (hn : n < 4) : c.scanByte n = c.keys.byte n := by
  obtain ⟨hbyte, -⟩ := answer_presenting (c := { c with ki := n }) (presenting_ki hp hn) hj
  rw [Receiver.scanByte, afterBytes_presenting hp hi hj (by omega), Receiver.byteNow, hbyte]

end

/-- Either key scan as one operation; only BTN_ACC and RESULT tell the two apart. -/
theorem exec_eitherKeyScan {i : Instr} (hi : i = .getButtons ∨ i = .getButtons64) {s : State} (hr : s.ready) (hd : s.driving) :
    ∃ v, exec i s = .next (s.keyScanned v) := by
  rcases hi with rfl | rfl
  · exact ⟨_, exec_getButtons hr hd⟩
  · exact ⟨_, exec_getButtons64 hr hd⟩

section
variable {s : State} (hs : s.stb = true) (hr : s.chip.reading = true)
include hs hr

/-- After the command of a key scan the chip presents KEYS, from the first bit on. -/
theorem keyChip_presenting : s.keyChip.presenting = true ∧ s.keyChip.ki = 0 ∧ s.keyChip.kj = 0 := by
  rw [keyChip_read hs hr]
  exact ⟨by simp [Receiver.presenting, Receiver.opened, hr], rfl, rfl⟩

/-- The receiver after a key scan from an idle strobe: all of KEYS presented, the frame closed. -/
theorem keyScanned_chip_read (v : I64) : (s.keyScanned v).chip = ({ s.keyChip with ki := 4 } : Receiver).closed := by
  obtain ⟨hp, hi, hj⟩ := keyChip_presenting hs hr
  rw [State.keyScanned, afterBytes_presenting hp hi hj (Nat.le_refl 4), keyChip_read hs hr]
  exact chipStb_rise hr rfl

/-- Byte n of the scan is the KEYS[n] the receiver holds after it. -/
theorem keyByte_read (v : I64) {n : Nat} (hn : n < 4) : s.keyByte n = (s.keyScanned v).chip.keys.byte n := by
  obtain ⟨hp, hi, hj⟩ := keyChip_presenting hs hr
  rw [State.keyByte, scanByte_presenting hp hi hj hn, keyScanned_chip_read hs hr]
  rfl

end

/-- Settles O40: the four bytes of the scan are the KEYS the chip holds after it (`keyByte_read`), drawn at the command
(`keyChip_read`). -/
theorem keyScansReadKeys : Obligations.KeyScansReadKeys := by
  unfold Obligations.KeyScansReadKeys
  rintro i s t hi hr ⟨hstb, -, hd⟩ ⟨hread, -⟩ h
  obtain ⟨v, hv⟩ := exec_eitherKeyScan hi hr hd
  cases hv.symm.trans h
  have hbyte : ∀ n, n < 4 → s.keyByte n = (s.keyScanned v).chip.keys.byte n := fun _ => keyByte_read hstb hread v
  refine ⟨?_, ?_⟩
  · rw [bus_keyScanned, hbyte 0 (by decide), hbyte 1 (by decide), hbyte 2 (by decide), hbyte 3 (by decide)]
  · rw [keyScanned_chip_read hstb hread, keyChip_read hstb hread]
    refine ⟨fun k hk => ?_, rfl, rfl, rfl, rfl, rfl, hread, rfl⟩
    interval_cases k <;> rfl

/-! ### The engine does not depend on the receiver (44 R200, 20 R62) -/

/-- Two states that differ in the receiver at most. -/
def State.SameEngine (s t : State) : Prop := ∃ c, t = { s with chip := c }

theorem State.SameEngine.enterFault {s t : State} (h : s.SameEngine t) (f : ModelFault) :
    (enterFault f s).SameEngine (enterFault f t) := by
  obtain ⟨c, rfl⟩ := h
  exact ⟨c, rfl⟩

theorem State.SameEngine.accept {s t : State} (h : s.SameEngine t) (op : Instr) : (accept op s).SameEngine (accept op t) := by
  obtain ⟨c, rfl⟩ := h
  exact ⟨c, rfl⟩

theorem State.SameEngine.refuseRequest {s t : State} (h : s.SameEngine t) (code : ErrCode) :
    (refuseRequest code s).SameEngine (refuseRequest code t) := by
  obtain ⟨c, rfl⟩ := h
  exact ⟨c, rfl⟩

theorem State.SameEngine.emitDio {s t : State} (h : s.SameEngine t) (b : Bool) : (emitDio b s).SameEngine (emitDio b t) := by
  have hmode : t.dioMode = s.dioMode := by obtain ⟨c, rfl⟩ := h; rfl
  cases hm : s.dioMode with
  | output =>
    rw [emitDio_output hm, emitDio_output (hmode.trans hm)]
    obtain ⟨c, rfl⟩ := h
    exact ⟨c, rfl⟩
  | input =>
    rw [emitDio_input hm, emitDio_input (hmode.trans hm)]
    exact h.enterFault _

/-- Only a SAMPLE brings something of the receiver into the engine (40 R105). -/
theorem State.SameEngine.act {s t : State} (h : s.SameEngine t) {a : Action} (ha : a ≠ .sample) : (act a s).SameEngine (act a t) := by
  cases a with
  | sample => exact absurd rfl ha
  | dio b => exact h.emitDio b
  | stb b =>
    obtain ⟨c, rfl⟩ := h
    exact ⟨chipStb s.stb b c, rfl⟩
  | clk b =>
    obtain ⟨c, rfl⟩ := h
    exact ⟨chipClk s.clk b s.dioOut c, rfl⟩
  | startReading =>
    obtain ⟨c, rfl⟩ := h
    exact ⟨c.startReading, rfl⟩
  | dirIn | dirOut | rxClear | rxShift | btnClear | btnOr _ | btnAdd _ | resultOfBtn32 | resultOfBtn64 | setResult _ | clearValid
  | setEnabled | setDm _ | setTb _ | paccClear | paccOr _ | raise _ _ | refuse _ =>
    obtain ⟨c, rfl⟩ := h
    exact ⟨c, rfl⟩

theorem State.SameEngine.running {s t : State} (h : s.SameEngine t) : t.running = s.running := by
  obtain ⟨c, rfl⟩ := h
  rfl

theorem State.SameEngine.canAccept {s t : State} (h : s.SameEngine t) : t.canAccept = s.canAccept := by
  obtain ⟨c, rfl⟩ := h
  rfl

/-- A sequence that samples nothing leaves states that differ in the receiver at most. -/
theorem State.SameEngine.run {as : List Action} (has : .sample ∉ as) {s t : State} (h : s.SameEngine t) :
    (run as s).SameEngine (run as t) := by
  induction as generalizing s t with
  | nil => exact h
  | cons a as ih =>
    obtain ⟨ha, has⟩ := not_or.mp (mt List.mem_cons.mpr has)
    rw [run_cons, run_cons]
    refine ih has ?_
    unfold runAction
    rw [h.running]
    split
    · exact h.act (Ne.symm ha)
    · exact h

theorem State.SameEngine.complete {s t : State} (h : s.SameEngine t) : (complete s).SameEngine (complete t) := by
  cases hr : s.running with
  | true =>
    rw [complete_of_running hr, complete_of_running (h.running.trans hr)]
    obtain ⟨c, rfl⟩ := h
    exact ⟨c, rfl⟩
  | false =>
    rw [complete_of_not_running hr, complete_of_not_running (h.running.trans hr)]
    exact h

theorem State.SameEngine.runRequest {as : List Action} (has : .sample ∉ as) {s t : State} (h : s.SameEngine t) (op : Instr) :
    (runRequest op as s).SameEngine (runRequest op as t) := by
  unfold Machine.runRequest
  rw [h.canAccept]
  split
  · exact ((h.accept op).run has).complete
  · exact h

theorem State.SameEngine.refuseOpsel {s t : State} (h : s.SameEngine t) (op : Instr) :
    (refuseOpsel op s).SameEngine (refuseOpsel op t) := by
  unfold Machine.refuseOpsel
  rw [h.canAccept]
  split
  · exact (h.accept op).refuseRequest _
  · exact h

theorem State.SameEngine.microOperation {as : List Action} (has : .sample ∉ as) {s t : State} (h : s.SameEngine t) (op : Instr) :
    (microOperation op as s).SameEngine (microOperation op as t) := by
  have hm : t.mstep = s.mstep := by obtain ⟨c, rfl⟩ := h; rfl
  unfold Machine.microOperation
  rw [hm]
  split
  · exact h.refuseOpsel op
  · exact h.run has

/-! ### The requests that sample nothing -/

/-- A sequence that writes none of the byte receiver's registers samples nothing. -/
theorem sample_not_mem_of_writesOnly {gs : List RegGroup} {as : List Action} (hw : writesOnly gs as = true) (hg : .scan ∉ gs) :
    .sample ∉ as :=
  fun h => writesOnly_ne hw hg _ h rfl

/-- A lookup's sequence is one answer. -/
theorem sample_not_mem_lookup {i : Instr} {a : Action} (hs : scriptOf i = [a]) (ha : a.isAnswer = true) : .sample ∉ scriptOf i := by
  rw [hs, List.mem_singleton]
  rintro rfl
  cases ha

/-- Only the key scans and RECEIVE_BYTE sample the data line. -/
theorem sample_not_mem_scriptOf {i : Instr} (hb : i ≠ .getButtons) (hb64 : i ≠ .getButtons64) (hrx : i ≠ .receiveByte) :
    .sample ∉ scriptOf i := by
  cases i with
  | getButtons => exact absurd rfl hb
  | getButtons64 => exact absurd rfl hb64
  | receiveByte => exact absurd rfl hrx
  | enable a => exact sample_not_mem_of_writesOnly (writesOnly_enable a) (by decide)
  | sendChar pos data dot => exact sample_not_mem_of_writesOnly (writesOnly_sendChar pos data dot) (by decide)
  | setText text => exact sample_not_mem_of_writesOnly (writesOnly_setText text) (by decide)
  | fontLookup ch =>
    cases hm : font ch with
    | some m => exact sample_not_mem_lookup (scriptOf_fontLookup_some hm) rfl
    | none => exact sample_not_mem_lookup (scriptOf_fontLookup_none hm) rfl
  | rotateBits v => exact sample_not_mem_lookup (scriptOf_rotateBits v) rfl
  | pow2 n =>
    rcases lt_or_ge n.toInt 0 with hn | hn
    · exact sample_not_mem_lookup (scriptOf_pow2_neg hn) rfl
    · exact sample_not_mem_lookup (scriptOf_pow2_nonneg hn) rfl
  | sendByte _ | sendCommand _ | sendData _ _ | reserved _ | cmdDataWriteAuto | cmdDataReadKeys | cmdDataWriteFixed
  | cmdDisplayCtrl _ | cmdAddress _ => exact sample_not_mem_of_writesOnly (gs := [.refusal]) rfl (by decide)

/-- Settles O54: accepted, refused or neither, the request's sequence samples nothing (`sample_not_mem_scriptOf`), so what it leaves
differs in the receiver at most (`State.SameEngine.run`). -/
theorem engineIgnoresReceiver : Obligations.EngineIgnoresReceiver := by
  unfold Obligations.EngineIgnoresReceiver
  intro i s c hi hb hb64 hrx
  have hs : .sample ∉ scriptOf i := sample_not_mem_scriptOf hb hb64 hrx
  have h0 : s.SameEngine { s with chip := c } := ⟨c, rfl⟩
  suffices h : ∃ t t', exec i s = .next t ∧ exec i { s with chip := c } = .next t' ∧ t.SameEngine t' by
    obtain ⟨t, _, ht, ht', c', rfl⟩ := h
    exact ⟨t, c', ht, ht'⟩
  cases i with
  | enable _ | sendChar _ _ _ | setText _ | fontLookup _ | rotateBits _ | pow2 _ => exact ⟨_, _, rfl, rfl, h0.runRequest hs _⟩
  | sendByte _ | sendCommand _ | sendData _ _ => exact ⟨_, _, rfl, rfl, h0.microOperation hs _⟩
  | reserved _ => exact ⟨_, _, rfl, rfl, h0.refuseOpsel _⟩
  | getButtons => exact absurd rfl hb
  | getButtons64 => exact absurd rfl hb64
  | receiveByte => exact absurd rfl hrx
  | cmdDataWriteAuto | cmdDataReadKeys | cmdDataWriteFixed | cmdDisplayCtrl _ | cmdAddress _ => cases hi

end Sys2Proof.Machine
end

section
/-! PROOFS of the family 60_exceptions: the engine a model fault has stopped (O10), and the steps that run an instruction (O8). -/

namespace Sys2Proof.Machine

/-! ### After a model fault (60 R235, log 18) -/

/-- With no byte waiting, the step of a stopped engine is the stopped one, whatever MSTEP and REQ hold (log 27). -/
theorem step_stopped {s : State} {f : ModelFault} (hn : s.chip.nbits < 8) (hf : s.modelFault = some f) :
    step s = stoppedStep (.engineStopped f) s := by
  simp only [step, fetch, if_neg (Nat.not_le.mpr hn), hf]

/-- A fault entered by an engine that one has already stopped writes nothing it did not hold, SET_TEXT's registers aside. -/
theorem enterFault_stopped {s : State} {f : ModelFault} (hf : s.modelFault = some f) (hb : s.busy = true)
    (he : s.err = .modelFault) (g : ModelFault) : enterFault g s = dropText s := by
  rw [enterFault, hf, Option.getD_some, ← hf, ← hb, ← he]
  rfl

/-- The host can only let time pass and read the port of a stopped engine; no event, pin, request or position of it changes. -/
theorem hostMove_stopped {s t : State} {f : ModelFault} (hf : s.modelFault = some f) (hb : s.busy = true)
    (he : s.err = .modelFault) (h : HostMove s t) :
    t.bus = s.bus ∧ t.stb = s.stb ∧ t.clk = s.clk ∧ t.dioOut = s.dioOut ∧ t.busy = true ∧ t.err = .modelFault
      ∧ t.modelFault = some f ∧ t.req = s.req ∧ t.mstep = s.mstep := by
  obtain ⟨rest, rfl⟩ | ⟨r, rest, ⟨-, hfree, -⟩, -⟩ | ⟨rest, rfl⟩ | ⟨rest, d, rfl⟩ := h
  · exact ⟨rfl, rfl, rfl, rfl, hb, he, hf, rfl, rfl⟩
  · exact absurd (hb.symm.trans hfree) (by decide)
  · unfold readResult
    split
    · exact ⟨rfl, rfl, rfl, rfl, hb, he, hf, rfl, rfl⟩
    · rw [enterFault_stopped (s := { s with host := rest }) hf hb he]
      exact ⟨rfl, rfl, rfl, rfl, hb, he, hf, rfl, rfl⟩
  · exact ⟨rfl, rfl, rfl, rfl, hb, he, hf, rfl, rfl⟩

/-- Settles O10: of the four kinds of step (`step_cases`) only the host's moves are left (`hostMove_stopped`), and a request, or no
action at all, is where the stopped step stops (`step_stopped`). -/
theorem stoppedEngineStaysStopped : Obligations.StoppedEngineStaysStopped := by
  unfold Obligations.StoppedEngineStaysStopped
  intro s f hf hb he hn
  refine ⟨fun t h => ?_, fun hh => ?_, fun r rest hh => ?_⟩
  · obtain ⟨hbyte, -⟩ | ⟨-, hnone, -⟩ | ⟨-, ⟨-, -, hnone⟩, -⟩ | ⟨-, hm⟩ := step_cases h
    · exact absurd hbyte (Nat.not_le.mpr hn)
    · exact absurd (hf.symm.trans hnone) (Option.some_ne_none f)
    · exact absurd (hf.symm.trans hnone) (Option.some_ne_none f)
    · exact hostMove_stopped hf hb he hm
  · rw [step_stopped hn hf]
    simp only [stoppedStep, hh]
  · rw [step_stopped hn hf]
    obtain hh | hh := hh <;> simp only [stoppedStep, hh]

/-! ### The steps that run an instruction (60 R241, 44 R203, R204; log 12, 13, 14) -/

/-- With the engine free and no byte waiting, the pending request is the step. -/
theorem step_request {s : State} {r : Request} (hn : s.chip.nbits < 8) (hr : s.ready) (hq : s.req = some r) :
    step s = exec (decodeHreq r) s := by
  obtain ⟨hm, hb, hf⟩ := hr
  simp only [step, fetch, if_neg (Nat.not_le.mpr hn), hf, hm, hb, hq]

/-- A complete glossed byte that opens a frame is the step, whatever the engine is doing (log 27). -/
theorem step_busCommand {s : State} {cmd : BusCommand} (hn : 8 ≤ s.chip.nbits) (h0 : s.chip.nbytes = 0)
    (hd : decodeBus8 s.chip.shift = .ok cmd) : step s = exec cmd.toInstr s := by
  simp only [step, fetch, if_pos hn, fetchByte, if_pos h0, hd]

/-- A code placed for the next step is the one it runs: a request is pending at a free engine, a byte complete in the receiver. -/
theorem step_placeCode {c : Code} {i : Instr} (h : decode c = .ok i) (s : State) :
    step (placeCode c s) = exec i (placeCode c s) := by
  cases c with
  | hreq r =>
    cases h
    exact step_request (Nat.mod_lt _ (by decide)) ⟨rfl, rfl, rfl⟩ rfl
  | bus8 v =>
    obtain ⟨cmd, hd, rfl⟩ := decode_bus8_ok.mp h
    exact step_busCommand (le_refl 8) rfl hd

/-- A word of the table has the instruction of the code it stands for. -/
theorem decodeTableWord_eq_some {nbits w : Nat} {i : Instr} :
    decodeTableWord nbits w = some i ↔ decode (codeOfTableWord nbits w) = .ok i := by
  unfold decodeTableWord
  cases decode (codeOfTableWord nbits w) <;> simp

/-- Settles O8: a request at a free engine and a complete byte are each the step (`step_request`, `step_busCommand`), and
`withFetchWord` places the word's code as one of them (`step_placeCode`). -/
theorem stepRunsDecodedInstruction : Obligations.StepRunsDecodedInstruction := by
  unfold Obligations.StepRunsDecodedInstruction
  exact ⟨fun _ _ hn hr hq => step_request hn hr hq, fun _ _ hn h0 hd => step_busCommand hn h0 hd,
    fun s _ _ _ h => step_placeCode (decodeTableWord_eq_some.mp h) s⟩

end Sys2Proof.Machine
end

section
/-! PROOFS of the family 70_reset_and_hazards: what reset leaves and that the engine then waits (O12), and that the machine's invariant
holds there (O57). -/

namespace Sys2Proof.Machine

/-! ### What reset leaves (10 R31; 70 R261, R262) -/

/-- After reset the engine waits: it is ready with nothing pending (`step_idle`), and no request comes from the machine itself (70 R262,
log 12, 32). -/
theorem step_reset : step State.reset = .next State.reset :=
  calc step State.reset
    _ = hostStep State.reset := step_idle (by decide) ⟨rfl, rfl, rfl⟩ rfl
    _ = .next State.reset := rfl

/-- Settles O12: each register holds the value reset gives it, and the step leaves them so (`step_reset`). -/
theorem resetValues : Obligations.ResetValues := by
  unfold Obligations.ResetValues
  exact ⟨rfl, rfl, rfl, rfl, rfl, rfl, rfl, rfl, rfl, rfl, rfl, step_reset⟩

/-! ### The invariant's shares at reset (70 R261, log 2) -/

/-- Before the reading starts no byte of the display memory is written and every counter of the receiver is 0 (44 R201). -/
theorem Receiver.inv_start : Receiver.start.Inv where
  ramCanonical := Memory.wf_nil
  bitCount := Nat.zero_le _
  keyPosition := ⟨Nat.zero_le _, Nat.zero_le _⟩

/-- At reset no operation is in progress, no fault has stopped the engine, and SET_TEXT's registers are empty. -/
theorem State.control_reset : State.reset.Control where
  runningBusy h := absurd rfl h
  faultStops h := absurd rfl h
  textDropped _ := ⟨rfl, rfl, rfl⟩

/-- At reset BUS has no event for a pin to disagree with, and the data pin is an output, whatever levels were drawn (log 1). -/
theorem State.latched_reset : State.reset.Latched where
  stbLatch _ h := absurd h (Option.some_ne_none _).symm
  clkLatch _ h := absurd h (Option.some_ne_none _).symm
  dioLatch := rfl

/-- Settles O57: the invariant's shares (`inv_iff`) each hold at reset, and RX_ACC is 0 there. -/
theorem invariantAtReset : Obligations.InvariantAtReset := by
  unfold Obligations.InvariantAtReset
  exact inv_iff.mpr ⟨Receiver.inv_start, Nat.zero_le _, State.control_reset, State.latched_reset⟩

end Sys2Proof.Machine
end
